-- ==== Sys2Proof/Word.lean ====
section
/-!
DEFINITION. The plain data every other file speaks of: bit vectors the spec gives a width, the binary32 values of
00_scope.md R12, channels, table names, and the operands of the unit operations that are exact numbers.
-/

namespace Sys2Proof

/-- One byte on the serial wire to the DAC (45_dac_codec.md R206). -/
abbrev Byte := BitVec 8

/-- The 3-bit event word of the event port (30_encoding.md R80). -/
abbrev EventWord := BitVec 3

/-- The 12 selector-line levels, and the scale mask made from them (30_encoding.md R82, 10_state.md R21). -/
abbrev Degrees := BitVec 12

/-- The 16-bit DAC frame (30_encoding.md R85). -/
abbrev Frame := BitVec 16

/-- A DAC code of `DAC_BITS = 10` bits (00_scope.md R6, 45_dac_codec.md R201). -/
abbrev DacCode := BitVec 10

/-- The identifier of an ADC input, opaque to PQCORE (00_scope.md R6 `ADC_INPUT[c]`). -/
abbrev InputId := Nat

/-- A channel id: `A = 0`, `B = 1` (00_scope.md R6 `NCH`). -/
inductive Chan where
  | a
  | b
  deriving DecidableEq, Repr

/-- Two like things, one for each channel. In `MODE = SPECTRAL` only channel A exists (10_state.md R22, 46_event_dispatcher.md
R233); the second part is then no part of the machine, and an `EXPECT` line that names it is refused (log entry 16). -/
structure PerChan (α : Type) where
  a : α
  b : α
  deriving DecidableEq, Repr

/-- The note tables (40_table_generator.md R100): `FT` in Hz, `VT` in volts. -/
inductive Table where
  | ft
  | vt
  deriving DecidableEq, Repr

/-- An IEEE 754 binary32 value (00_scope.md R12): one NaN, two infinities, and the finite values by sign, biased exponent
`0 .. 254` and fraction (the layout of 30_encoding.md R84). Every member is a value and no value has two members. -/
inductive F32 where
  | nan
  | inf (neg : Bool)
  | fin (neg : Bool) (exp : Fin 255) (frac : BitVec 23)
  deriving DecidableEq, Repr

/-- The exact real `(num / den) * 2^(twelfths / 12)`: what `ROUND_DEC3` is applied to (40_table_generator.md R101, R102). -/
structure SemitoneReal where
  num : Int
  den : Nat
  twelfths : Nat
  deriving DecidableEq, Repr

/-- A sum of integer multiples of angles of order `n`: the pair `(a, m)` stands for `a` times a function of the angle
`2 pi m / n` (a cosine in `Power`, a root of unity in `Spectrum`). -/
abbrev AngleSum := List (Int × Nat)

/-- The DFT of a block of binary32 samples, exact (43_spectral_estimator.md R163): bin `k` is `bins[k]`, and there the pair
`(a, m)` stands for `a * 2^-149 * exp(-2 pi sqrt(-1) m / order)`. -/
structure Spectrum where
  order : Nat
  bins : List AngleSum
  deriving DecidableEq, Repr

/-- The power of one bin, an exact real (43_spectral_estimator.md R163): `(1 / den)` times the sum over `terms` of
`a * cos(2 pi m / order)`. A rational power `p / q` is `den = q`, `order = 1`, `terms = [(p, 0)]`. -/
structure Power where
  den : Nat
  order : Nat
  terms : AngleSum
  deriving DecidableEq, Repr

/-- The correction result `CR` (10_state.md R26). -/
inductive Correction where
  | some (j : Nat)
  | noneEmpty
  | noneBelow
  deriving DecidableEq, Repr

/-- Channel `A` is 0 and channel `B` is 1 (00_scope.md R6). -/
def Chan.bit : Chan → Bool
  | .a => false
  | .b => true

/-- The channel a bit names. -/
def Chan.ofBit : Bool → Chan
  | false => .a
  | true => .b

/-- The part that belongs to a channel. -/
def PerChan.get {α : Type} (p : PerChan α) : Chan → α
  | .a => p.a
  | .b => p.b

/-- Replace the part that belongs to a channel. -/
def PerChan.set {α : Type} (p : PerChan α) (c : Chan) (x : α) : PerChan α :=
  match c with
  | .a => { p with a := x }
  | .b => { p with b := x }

end Sys2Proof
end

