-- ==== Sys2Proof/Config.lean ====
section
/-!
DEFINITION. The configuration record `CFG` of 00_scope.md R6, and the free values: constants with no body, so that nothing in
Lean can evaluate them and a claim about them holds whatever they are.
-/

namespace Sys2Proof

/-- The operating mode (00_scope.md R3). -/
inductive Mode where
  | spectral
  | event
  deriving DecidableEq, Repr

/-- The field `FFT_POWER` (00_scope.md R6, 43_spectral_estimator.md R163): the exact reference, or the power function of a
declared FFT, numbered, whose values are the free values `Config.declaredPower`. -/
inductive FftPower where
  | reference
  | declared (id : Nat)
  deriving DecidableEq, Repr

/-- The configuration record `CFG` (00_scope.md R6). It is constant for the life of the block (10_state.md R28): the state
carries it and no step writes it, so a claim about every state is a claim about every configuration. `NCH`, `DAC_BITS = 10` and
`SEMITONE_RATIO` are derived or fixed and are no fields. -/
structure Cfg where
  /-- `MODE` -/
  mode : Mode
  /-- `N`, the length of both tables -/
  n : Nat
  /-- `ROOT_FREQ` -/
  rootFreq : F32
  /-- `VPS` -/
  vps : F32
  /-- `VOLT_OFFSET` -/
  voltOffset : Nat
  /-- `NSAMP` -/
  nsamp : Nat
  /-- `SAMPLE_RATE_HZ` -/
  sampleRateHz : F32
  /-- `SAMPLE_BITS` -/
  sampleBits : Nat
  /-- `ADC_CODE_BITS` -/
  adcCodeBits : Nat
  /-- `ADC_VREF` -/
  adcVref : F32
  /-- `INPUT_DIVIDER` -/
  inputDivider : F32
  /-- `DAC_VMAX` -/
  dacVmax : F32
  /-- `DAC_CTRL[c]` -/
  dacCtrl : PerChan Nat
  /-- `ADC_INPUT[c]` -/
  adcInput : PerChan InputId
  /-- `INIT_SCALE_READ` -/
  initScaleRead : Bool
  /-- `FFT_POWER` -/
  fftPower : FftPower
  deriving DecidableEq, Repr

/-- FREE VALUE (log entry 6). The power a declared FFT gives bin `k` of the block `x`, as numerator and denominator less one:
43_spectral_estimator.md R163 leaves the function to the model that declares it. -/
opaque Config.declaredPower : Nat → List F32 → Nat → Nat × Nat

/-- FREE VALUE (log entry 7). The number, in units of 2^-149, that stands where a rule speaks of the value of a binary32 that
is an infinity or the NaN: the spec states no value there. -/
opaque Config.numberOf : F32 → Int

/-- FREE VALUE (log entry 7). The code `V2CODE` gives for a negative quotient: 45_dac_codec.md R201 states none. -/
opaque Config.negativeCode : Int → DacCode

end Sys2Proof
end

