-- ==== Sys2Proof/Syntax.lean ====
section
/-!
DEFINITION. The instructions of PQCORE: one constructor for each row of spec/opcode_table.json.
-/

namespace Sys2Proof

/-- One constructor per row of the opcode table (30_encoding.md R81, R85, R88). An operand the rule of an operation lists as a
value is an argument; an operand it reads from the machine (`buf`, `mask`, the tables, `CFG`, the handshakes) is not. -/
inductive Instr where
  /-- `GATE`, word `01c` (46_event_dispatcher.md R221). -/
  | gate (c : Chan)
  /-- `SCALE`, word `100` (46_event_dispatcher.md R222). -/
  | scale
  /-- The reserved words `000` and `001` (46_event_dispatcher.md R223); `x` is bit 0. -/
  | reserved00x (x : Bool)
  /-- The reserved word `101` (46_event_dispatcher.md R223). -/
  | reserved101
  /-- The reserved words `110` and `111` (46_event_dispatcher.md R223); `x` is bit 0. -/
  | reserved11x (x : Bool)
  /-- `GEN_FREQ_TABLE` (40_table_generator.md R101). -/
  | genFreqTable
  /-- `ROUND_DEC3(t)` (40_table_generator.md R102). -/
  | roundDec3 (t : SemitoneReal)
  /-- `GEN_VOLT_TABLE` (40_table_generator.md R103). -/
  | genVoltTable
  /-- `INDEX_TO_VOLTAGE(j)` (40_table_generator.md R105). -/
  | indexToVoltage (j : Nat)
  /-- `QUANTIZE_FLOOR(x, T)` (41_quantizer.md R120). -/
  | quantizeFloor (x : F32) (t : Table)
  /-- `CORRECT(index, mask, tableLen)` (42_scale_corrector.md R140); `mask` and `tableLen = N` are read from the machine. -/
  | correct (index : Nat)
  /-- `MEAN(buf)` (43_spectral_estimator.md R160). -/
  | mean
  /-- `DC_FILTER(buf)` (43_spectral_estimator.md R161). -/
  | dcFilter
  /-- `DFT(x)` (43_spectral_estimator.md R163). -/
  | dft (x : List F32)
  /-- `BIN_POWER(x)` (43_spectral_estimator.md R163). -/
  | binPower (x : List F32)
  /-- `PEAK_BIN(P)` (43_spectral_estimator.md R164). -/
  | peakBin (p : List Power)
  /-- `BIN_TO_HZ(k)` (43_spectral_estimator.md R165). -/
  | binToHz (k : Nat)
  /-- `ESTIMATE(buf)` (43_spectral_estimator.md R166). -/
  | estimate
  /-- `AVERAGE_VOLTAGE(buf)` (44_sample_averager.md R180). -/
  | averageVoltage
  /-- `CLAMP(v)` (45_dac_codec.md R200). -/
  | clamp (v : F32)
  /-- `V2CODE(vc)` (45_dac_codec.md R201). -/
  | v2code (vc : F32)
  /-- `PACK_FRAME(c, code)` (45_dac_codec.md R205). -/
  | packFrame (c : Chan) (code : DacCode)
  /-- `ENCODE(c, v)` (45_dac_codec.md R207). -/
  | encodeVoltage (c : Chan) (v : F32)
  /-- `FREE_RUN_TRIGGER` (46_event_dispatcher.md R224). -/
  | freeRunTrigger
  /-- `VOLTAGE_PATH` (46_event_dispatcher.md R225). -/
  | voltagePath
  /-- `SPECTRAL_PATH` (46_event_dispatcher.md R226). -/
  | spectralPath
  /-- `WRITE_DONE` (46_event_dispatcher.md R227). -/
  | writeDone
  /-- `HOLD_DONE` (46_event_dispatcher.md R228). -/
  | holdDone
  /-- `RESET` (70_reset_and_hazards.md R290). -/
  | reset
  /-- `ADC_COMPLETE` with the captured codes (60_exceptions.md R277). -/
  | adcComplete (codes : List Nat)
  /-- `DAC_COMPLETE` (60_exceptions.md R278). -/
  | dacComplete
  /-- `DAC_FRAME`: a frame word as the DAC reads it, control nibble and code (30_encoding.md R85, 45_dac_codec.md R205). -/
  | dacFrame (ctrl : BitVec 4) (code : DacCode)
  deriving DecidableEq, Repr

end Sys2Proof
end

