-- ==== Sys2Proof/WellFormed.lean ====
section
/-!
DEFINITION. The checks on an instruction as syntax: the ranges its rule states for its operands, in so far as they hold in
every configuration. What depends on the configuration is checked where the machine reads it.
-/

namespace Sys2Proof

/-- A finite binary32. -/
def F32.isFinite : F32 → Bool
  | .fin _ _ _ => true
  | _ => false

/-- `N <= 65536` (00_scope.md R6), so an index of a table is below this. -/
def maxTable : Nat := 65536

/-- `NSAMP <= 65536` (00_scope.md R6). -/
def maxBlock : Nat := 65536

/-- The length of a sample block: even and in `2 .. 65536` (00_scope.md R6 `NSAMP`). -/
def blockLength (n : Nat) : Bool := n % 2 == 0 && decide (2 ≤ n) && decide (n ≤ maxBlock)

/-- A block of filtered samples: legal length, every sample finite (43_spectral_estimator.md R161). -/
def sampleBlock (x : List F32) : Bool := blockLength x.length && x.all F32.isFinite

/-- A power is a real number: a positive denominator and a positive order (43_spectral_estimator.md R163). -/
def Power.wf (p : Power) : Bool := decide (0 < p.den) && decide (0 < p.order)

/-- The operand `vc` of `V2CODE` is at least `+0.0` and no NaN (45_dac_codec.md R201). -/
def clampedVoltage : F32 → Bool
  | .nan => false
  | .inf _ => false
  | .fin neg _ _ => !neg

/-- The well-formed instructions. -/
def Instr.wf : Instr → Bool
  | .gate _ => true
  | .scale => true
  | .reserved00x _ => true
  | .reserved101 => true
  | .reserved11x _ => true
  | .genFreqTable => true
  | .roundDec3 t => decide (0 < t.den) && decide (t.twelfths < maxTable)
  | .genVoltTable => true
  | .indexToVoltage j => decide (j < maxTable)
  | .quantizeFloor _ _ => true
  | .correct index => decide (index < maxTable)
  | .mean => true
  | .dcFilter => true
  | .dft x => sampleBlock x
  | .binPower x => sampleBlock x
  | .peakBin p => decide (1 ≤ p.length) && decide (2 * p.length ≤ maxBlock) && p.all Power.wf
  | .binToHz k => decide (2 * k < maxBlock)
  | .estimate => true
  | .averageVoltage => true
  | .clamp _ => true
  | .v2code vc => clampedVoltage vc
  | .packFrame _ _ => true
  | .encodeVoltage _ _ => true
  | .freeRunTrigger => true
  | .voltagePath => true
  | .spectralPath => true
  | .writeDone => true
  | .holdDone => true
  | .reset => true
  | .adcComplete codes => blockLength codes.length && codes.all (fun d => decide (d < 65536))
  | .dacComplete => true
  | .dacFrame _ _ => true

end Sys2Proof
end

