-- ==== Sys2Proof/Decode.lean ====
section
/-!
DEFINITION. The decoder of the two formats PQCORE gives a binary encoding, the event word and the DAC frame (30_encoding.md
R80, R81, R85), total and rejecting by name, and after it the encoder written from the same tables. The other rows of the
opcode table have no external encoding (30_encoding.md R88).
-/

namespace Sys2Proof

/-- Why a word is no instruction. -/
inductive Reject where
  /-- An event word has 3 bits (30_encoding.md R80): a byte on the event port with a higher bit set is none. -/
  | eventWidth
  /-- A frame has 16 bits, two bytes on the wire (45_dac_codec.md R206): another number of bytes is none. -/
  | frameLength
  /-- `FR[1:0]` is always `00` (30_encoding.md R86): another value is no frame of PQCORE. -/
  | framePad
  deriving DecidableEq, Repr

/-- A word of one of the two encoded formats (30_encoding.md R87: each of one fixed length). -/
inductive Code where
  | event (w : EventWord)
  | frame (w : Frame)
  deriving DecidableEq, Repr

/-- The opcode map of the event port, all eight words (30_encoding.md R81): `KIND` is `EV[2:1]`, `C` is `EV[0]`. -/
def decodeEvent (ev : EventWord) : Instr :=
  if ev &&& 0b110 = 0b010 then .gate (Chan.ofBit (ev.getLsbD 0))
  else if ev = 0b100 then .scale
  else if ev &&& 0b110 = 0b000 then .reserved00x (ev.getLsbD 0)
  else if ev &&& 0b110 = 0b110 then .reserved11x (ev.getLsbD 0)
  else .reserved101

/-- The fields of a frame: `CTRL` is `FR[15:12]`, the code `FR[11:2]`, the pad `FR[1:0]` (30_encoding.md R85). -/
def decodeFrame (fr : Frame) : Except Reject Instr :=
  if fr.extractLsb' 0 2 = 0 then .ok (.dacFrame (fr.extractLsb' 12 4) (fr.extractLsb' 2 10))
  else .error .framePad

/-- Read a word of either format. -/
def decode : Code → Except Reject Instr
  | .event ev => .ok (decodeEvent ev)
  | .frame fr => decodeFrame fr

/-- A byte on the event port, whose upper five bits must be 0 (30_encoding.md R80: the word has 3 bits). -/
def decodeEventByte (b : Byte) : Except Reject Instr :=
  if b.extractLsb' 3 5 = 0 then .ok (decodeEvent (b.extractLsb' 0 3)) else .error .eventWidth

/-- The bytes of a frame on the wire, `FR[15:8]` first (45_dac_codec.md R206). -/
def decodeWire : List Byte → Except Reject Instr
  | [hi, lo] => decodeFrame (hi ++ lo)
  | _ => .error .frameLength

/-- The event word of an event instruction (30_encoding.md R81). -/
def encodeEvent (kind : BitVec 2) (bit : Bool) : EventWord := kind ++ BitVec.ofBool bit

/-- The frame `{ctrl, code, 00}` (45_dac_codec.md R205). -/
def packBits (ctrl : BitVec 4) (code : DacCode) : Frame := (ctrl ++ code) ++ (0 : BitVec 2)

/-- The word of an instruction that has one: the event words and the frame (30_encoding.md R81, R85); none for the internal
operations, the reset and the completions (30_encoding.md R88). -/
def encode : Instr → Option Code
  | .gate c => some (.event (encodeEvent 0b01 c.bit))
  | .scale => some (.event (encodeEvent 0b10 false))
  | .reserved00x x => some (.event (encodeEvent 0b00 x))
  | .reserved101 => some (.event (encodeEvent 0b10 true))
  | .reserved11x x => some (.event (encodeEvent 0b11 x))
  | .genFreqTable => none
  | .roundDec3 _ => none
  | .genVoltTable => none
  | .indexToVoltage _ => none
  | .quantizeFloor _ _ => none
  | .correct _ => none
  | .mean => none
  | .dcFilter => none
  | .dft _ => none
  | .binPower _ => none
  | .peakBin _ => none
  | .binToHz _ => none
  | .estimate => none
  | .averageVoltage => none
  | .clamp _ => none
  | .v2code _ => none
  | .packFrame _ _ => none
  | .encodeVoltage _ _ => none
  | .freeRunTrigger => none
  | .voltagePath => none
  | .spectralPath => none
  | .writeDone => none
  | .holdDone => none
  | .reset => none
  | .adcComplete _ => none
  | .dacComplete => none
  | .dacFrame ctrl code => some (.frame (packBits ctrl code))

/-- The two bytes of a frame in wire order, the more significant first (45_dac_codec.md R206). -/
def wireBytes (fr : Frame) : List Byte := [fr.extractLsb' 8 8, fr.extractLsb' 0 8]

/-- The instruction read from a row's bits as spec/opcode_table.json numbers them: a row of at most one byte is an event word,
one of two bytes a frame. -/
def decodeTableWord (nbits w : Nat) : Option Instr :=
  if nbits ≤ 8 then
    (if w < 256 then (decodeEventByte (BitVec.ofNat 8 w)).toOption else none)
  else if nbits = 16 then
    (if w < 65536 then (decodeWire (wireBytes (BitVec.ofNat 16 w))).toOption else none)
  else none

end Sys2Proof
end

