-- ==== Sys2Proof/Machine/Flags.lean ====
section
/-!
DEFINITION. The status register (10_state.md R27): its fields, read and written. `STATUS` is kept as the 16-bit word an observer
reads (60_exceptions.md R276); bits 15:8 are written by nothing here.
-/

namespace Sys2Proof

/-- The values of the field `LAST` (10_state.md R27). -/
inductive LastOutcome where
  | none
  | emitted
  | heldEmpty
  | heldBelow
  | faulted
  deriving DecidableEq, Repr

/-- The fault causes (60_exceptions.md R261). -/
inductive FaultCause where
  | illegalEvent
  | numeric
  deriving DecidableEq, Repr

/-- The code of an outcome in `LAST` (10_state.md R27). -/
def LastOutcome.code : LastOutcome → BitVec 3
  | .none => 0b000
  | .emitted => 0b001
  | .heldEmpty => 0b010
  | .heldBelow => 0b011
  | .faulted => 0b100

/-- The code of a fault cause (60_exceptions.md R261). -/
def FaultCause.code : FaultCause → Nat
  | .illegalEvent => 1
  | .numeric => 2

/-- The sticky bit of a fault cause, as a mask (60_exceptions.md R261: `STATUS[6]`, `STATUS[7]`). -/
def FaultCause.bit : FaultCause → BitVec 16
  | .illegalEvent => 0x0040
  | .numeric => 0x0080

/-- `STATE`, bits 1:0. -/
def statusState (st : BitVec 16) : BitVec 2 := st.extractLsb' 0 2

/-- `CH`, bit 2. -/
def statusCh (st : BitVec 16) : Bool := st.getLsbD 2

/-- `LAST`, bits 5:3. -/
def statusLast (st : BitVec 16) : BitVec 3 := st.extractLsb' 3 3

/-- `F_ILLEGAL_EVENT`, bit 6. -/
def statusIllegalEvent (st : BitVec 16) : Bool := st.getLsbD 6

/-- `F_NUMERIC`, bit 7. -/
def statusNumeric (st : BitVec 16) : Bool := st.getLsbD 7

/-- The reserved bits 15:8. -/
def statusReserved (st : BitVec 16) : BitVec 8 := st.extractLsb' 8 8

/-- Write `STATE`. -/
def withStatusState (st : BitVec 16) (v : BitVec 2) : BitVec 16 := (st &&& 0xFFFC) ||| v.setWidth 16

/-- Write `CH`. -/
def withStatusCh (st : BitVec 16) (b : Bool) : BitVec 16 := (st &&& 0xFFFB) ||| (if b then 0x0004 else 0x0000)

/-- Write `LAST`. -/
def withStatusLast (st : BitVec 16) (l : LastOutcome) : BitVec 16 := (st &&& 0xFFC7) ||| (l.code.setWidth 16 <<< 3)

/-- Set the sticky bit of a cause (60_exceptions.md R262). -/
def withStatusFault (st : BitVec 16) (f : FaultCause) : BitVec 16 := st ||| f.bit

/-- `STATUS` written out from its fields, in the places of 10_state.md R27: bits 15:8 reserved, 7 and 6 the fault bits, 5:3
`LAST`, 2 `CH`, 1:0 `STATE`. -/
def statusWord (reserved : BitVec 8) (numeric illegalEvent : Bool) (last : BitVec 3) (ch : Bool) (state : BitVec 2) :
    BitVec 16 :=
  (reserved.setWidth 16 <<< 8) ||| ((BitVec.ofBool numeric).setWidth 16 <<< 7) |||
    ((BitVec.ofBool illegalEvent).setWidth 16 <<< 6) ||| (last.setWidth 16 <<< 3) |||
    ((BitVec.ofBool ch).setWidth 16 <<< 2) ||| state.setWidth 16

end Sys2Proof
end

