-- ==== Sys2Proof/Machine/Binary32.lean ====
section
/-!
DEFINITION. Binary32 arithmetic (00_scope.md R12). Every finite binary32 is an integer multiple of 2^-149, so exact numbers are
kept as integers in that unit and as fractions of integers, and each operation rounds once.
-/

namespace Sys2Proof

/-- `2^149`: the number of units in 1.0. -/
def F32.one : Nat := 2 ^ 149

/-- The magnitude of a finite value in units of 2^-149, from its exponent and fraction fields (30_encoding.md R84). -/
def F32.magnitude (exp frac : Nat) : Nat :=
  if exp = 0 then frac else (2 ^ 23 + frac) * 2 ^ (exp - 1)

/-- The exact value in units of 2^-149. An infinity or the NaN has no number: a free value stands for it. -/
def F32.scaled : F32 → Int
  | .nan => Config.numberOf .nan
  | .inf neg => Config.numberOf (.inf neg)
  | .fin neg exp frac =>
    if neg then -(F32.magnitude exp.val frac.toNat : Int) else (F32.magnitude exp.val frac.toNat : Int)

/-- The place of a value in the order of binary32, in units of 2^-149. An infinity stands at `2^128`, beyond every finite
value; the NaN has no place. -/
def F32.place : F32 → Option Int
  | .nan => none
  | .inf neg => some (if neg then -(F32.one * 2 ^ 128 : Nat) else (F32.one * 2 ^ 128 : Nat))
  | .fin neg exp frac => some (F32.fin neg exp frac).scaled

/-- The NaN. -/
def F32.isNaN : F32 → Bool
  | .nan => true
  | _ => false

/-- A value equal to zero, of either sign. -/
def F32.isZero : F32 → Bool
  | .fin _ exp frac => exp.val == 0 && frac == 0
  | _ => false

/-- IEEE `<=`: false when an operand is NaN. -/
def F32.le (x y : F32) : Bool :=
  match x.place, y.place with
  | some p, some q => decide (p ≤ q)
  | _, _ => false

/-- IEEE `<`: false when an operand is NaN. -/
def F32.lt (x y : F32) : Bool :=
  match x.place, y.place with
  | some p, some q => decide (p < q)
  | _, _ => false

/-- IEEE `==`: false when an operand is NaN, and `-0.0 == 0.0`. -/
def F32.eq (x y : F32) : Bool :=
  match x.place, y.place with
  | some p, some q => decide (p = q)
  | _, _ => false

/-- `n / d` rounded to the nearest integer, ties to even. -/
def roundEven (n d : Nat) : Nat :=
  if d < 2 * (n % d) ∨ (2 * (n % d) = d ∧ n / d % 2 = 1) then n / d + 1 else n / d

/-- The binary exponent, less that of the smallest subnormals, at which the magnitude `n / d` is rounded: 24 significant bits,
fewer for a subnormal. -/
def roundingExponent (n d : Nat) : Nat := Nat.log2 (n * F32.one / d) - 23

/-- The magnitude `n / d` rounded to binary32, as exponent and fraction fields read as one number (30_encoding.md R84, bits
30:0). A carry out of the fraction moves to the next exponent. -/
def roundMagnitude (n d : Nat) : Nat :=
  roundingExponent n d * 2 ^ 23 + roundEven (n * F32.one) (d * 2 ^ roundingExponent n d)

/-- The binary32 with a given sign whose exponent and fraction fields are `r`; from exponent 255 on an infinity: that is an
exact magnitude of at least `2^128 - 2^103` (00_scope.md R12). -/
def F32.ofFields (neg : Bool) (r : Nat) : F32 :=
  if h : r < 255 * 2 ^ 23 then .fin neg ⟨r / 2 ^ 23, Nat.div_lt_of_lt_mul (by omega)⟩ (BitVec.ofNat 23 r) else .inf neg

/-- `RNE32` of `n / d` with a sign of its own, so that a zero has one. `n / 0` is no number. -/
def rneSigned (neg : Bool) (n d : Nat) : F32 :=
  if d = 0 then .nan else F32.ofFields neg (roundMagnitude n d)

/-- `RNE32` of the exact rational `n / d` (00_scope.md R12). -/
def rne32 (n : Int) (d : Nat) : F32 := rneSigned (decide (n < 0)) n.natAbs d

/-- An integer converted to binary32 (00_scope.md R12). -/
def F32.ofNat (k : Nat) : F32 := rne32 k 1

/-- `+0.0`. -/
def F32.zero : F32 := .fin false 0 0

/-- The sign of a value that is no NaN. -/
def F32.isNeg : F32 → Bool
  | .nan => false
  | .inf neg => neg
  | .fin neg _ _ => neg

/-- The magnitude of a finite value in units of 2^-149. -/
def F32.absScaled (x : F32) : Nat := x.scaled.natAbs

/-- The exact sum of two finite values, rounded once; a zero sum is `+0.0` unless both are `-0.0`. -/
def finiteAdd (x y : F32) : F32 :=
  if x.scaled + y.scaled = 0 then .fin (x.isNeg && y.isNeg) 0 0 else rne32 (x.scaled + y.scaled) F32.one

/-- Binary32 addition (00_scope.md R12). -/
def F32.add (x y : F32) : F32 :=
  match x, y with
  | .nan, _ => .nan
  | _, .nan => .nan
  | .inf s, .inf t => if s = t then .inf s else .nan
  | .inf s, _ => .inf s
  | _, .inf t => .inf t
  | x, y => finiteAdd x y

/-- The same value with the other sign. -/
def F32.negate : F32 → F32
  | .nan => .nan
  | .inf neg => .inf (!neg)
  | .fin neg exp frac => .fin (!neg) exp frac

/-- Binary32 subtraction (00_scope.md R12). -/
def F32.sub (x y : F32) : F32 := x.add y.negate

/-- Binary32 multiplication (00_scope.md R12); an infinity times a zero is NaN. -/
def F32.mul (x y : F32) : F32 :=
  match x, y with
  | .nan, _ => .nan
  | _, .nan => .nan
  | .inf s, y => if y.isZero then .nan else .inf (s != y.isNeg)
  | x, .inf t => if x.isZero then .nan else .inf (x.isNeg != t)
  | x, y => rneSigned (x.isNeg != y.isNeg) (x.absScaled * y.absScaled) (F32.one * F32.one)

/-- Binary32 division (00_scope.md R12); `0 / 0` and infinity by infinity are NaN, a finite value by zero an infinity. -/
def F32.div (x y : F32) : F32 :=
  match x, y with
  | .nan, _ => .nan
  | _, .nan => .nan
  | .inf _, .inf _ => .nan
  | .inf s, y => .inf (s != y.isNeg)
  | x, .inf t => .fin (x.isNeg != t) 0 0
  | x, y =>
    if y.isZero then (if x.isZero then .nan else .inf (x.isNeg != y.isNeg))
    else rneSigned (x.isNeg != y.isNeg) x.absScaled y.absScaled

/-- `floor` of the number of a value (00_scope.md R11). -/
def F32.floor (x : F32) : Int := x.scaled / (F32.one : Int)

/-- The value a 32-bit pattern stands for (00_scope.md R12: sign 31, exponent 30:23, fraction 22:0). -/
def F32.ofBits (w : BitVec 32) : F32 :=
  if h : (w.extractLsb' 23 8).toNat < 255 then
    .fin (w.getLsbD 31) ⟨(w.extractLsb' 23 8).toNat, h⟩ (w.extractLsb' 0 23)
  else if w.extractLsb' 0 23 = 0 then .inf (w.getLsbD 31) else .nan

/-- The 32-bit pattern of a value, for printing; the NaN has no one pattern (log entry 8). -/
def F32.toBits : F32 → Option (BitVec 32)
  | .nan => none
  | .inf neg => some ((BitVec.ofBool neg ++ (255 : BitVec 8)) ++ (0 : BitVec 23))
  | .fin neg exp frac => some ((BitVec.ofBool neg ++ BitVec.ofNat 8 exp.val) ++ frac)

end Sys2Proof
end

