-- ==== Sys2Proof/Machine/Tables.lean ====
section
/-!
DEFINITION. What the TableGenerator computes (40_table_generator.md): the exact decimal rounding and the contents of the two
note tables as functions of the configuration.
-/

namespace Sys2Proof

/-- The greatest `r' = r + (an integer below 2^bits)` with `r'^12 <= n`, digit by digit from the top. -/
def root12From (n : Nat) : Nat → Nat → Nat
  | 0, r => r
  | b + 1, r => if (r + 2 ^ b) ^ 12 ≤ n then root12From n b (r + 2 ^ b) else root12From n b r

/-- The floor of the twelfth root. -/
def root12 (n : Nat) : Nat := root12From n (Nat.log2 n / 12 + 1) 0

/-- `floor(2000 |t|)` for the exact real `t`: the greatest `r` with `r^12 <= (2000 |num| / den)^12 * 2^twelfths`. -/
def twoThousandths (t : SemitoneReal) : Nat :=
  root12 ((2000 * t.num.natAbs) ^ 12 * 2 ^ t.twelfths / t.den ^ 12)

/-- `ROUND_DEC3(t)` in thousandths (40_table_generator.md R102): `sign(t) * floor(1000 |t| + 1/2)`, ties away from zero;
`floor(1000 |t| + 1/2)` is `(floor(2000 |t|) + 1) div 2`. -/
def roundDec3 (t : SemitoneReal) : Int :=
  if t.num < 0 then -(((twoThousandths t + 1) / 2 : Nat) : Int) else (((twoThousandths t + 1) / 2 : Nat) : Int)

/-- The exact real `value(ROOT_FREQ) * 2^(i/12)` (40_table_generator.md R101). -/
def semitoneOf (root : F32) (i : Nat) : SemitoneReal := ⟨root.scaled, F32.one, i⟩

/-- `FT[i]`: one decimal rounding, then one binary32 rounding (40_table_generator.md R101). -/
def freqEntry (cfg : Cfg) (i : Nat) : F32 := rne32 (roundDec3 (semitoneOf cfg.rootFreq i)) 1000

/-- `VT[i] = RNE32(value(VPS) * (i + VOLT_OFFSET))` (40_table_generator.md R103). -/
def voltEntry (cfg : Cfg) (i : Nat) : F32 := rne32 (cfg.vps.scaled * ((i + cfg.voltOffset : Nat) : Int)) F32.one

/-- The contents of `FT` (40_table_generator.md R101). -/
def freqTable (cfg : Cfg) : List F32 := (List.range cfg.n).map (freqEntry cfg)

/-- The contents of `VT` (40_table_generator.md R103). -/
def voltTable (cfg : Cfg) : List F32 := (List.range cfg.n).map (voltEntry cfg)

end Sys2Proof
end

