-- ==== Sys2Proof/Machine/ConfigCheck.lean ====
section
/-!
DEFINITION. The checks a configuration must pass (00_scope.md R7), decidable from `CFG` alone, and the test configurations of
95_test_vectors.md section 1.
-/

namespace Sys2Proof

/-- The checks of 00_scope.md R7, by name. -/
inductive ConfigCheck where
  | ranges
  | ftMono
  | vtMono
  | dacFullscale
  | ctrl
  deriving DecidableEq, Repr

/-- A channel exists: `c < NCH`, where `NCH` is 1 in the spectral mode and 2 in the event mode (00_scope.md R6). -/
def Cfg.hasChannel (cfg : Cfg) : Chan → Bool
  | .a => true
  | .b => decide (cfg.mode = .event)

/-- A finite binary32 above zero. -/
def F32.isPositive (x : F32) : Bool := x.isFinite && F32.zero.lt x

/-- `WF_RANGES`: every field within the legal values of 00_scope.md R6. -/
def Cfg.rangesOk (cfg : Cfg) : Bool :=
  [decide (1 ≤ cfg.n), decide (cfg.n ≤ maxTable), cfg.rootFreq.isPositive, cfg.vps.isPositive,
    decide (cfg.voltOffset ≤ 1), blockLength cfg.nsamp, cfg.sampleRateHz.isPositive,
    cfg.sampleBits == 8 || cfg.sampleBits == 16, decide (1 ≤ cfg.adcCodeBits),
    decide (cfg.adcCodeBits ≤ cfg.sampleBits), cfg.adcVref.isPositive, cfg.inputDivider.isPositive,
    cfg.dacVmax.isPositive].all id

/-- Strictly increasing with every entry finite (00_scope.md R7 `WF_FT_MONO`, `WF_VT_MONO`). -/
def strictlyIncreasing : List F32 → Bool
  | [] => true
  | [x] => x.isFinite
  | x :: y :: rest => x.isFinite && x.lt y && strictlyIncreasing (y :: rest)

/-- The DAC step `RNE32(DAC_VMAX / 1023)` (45_dac_codec.md R201). -/
def Cfg.dacStep (cfg : Cfg) : F32 := cfg.dacVmax.div (F32.ofNat 1023)

/-- `WF_DAC_FULLSCALE`: `floor(RNE32(DAC_VMAX / RNE32(DAC_VMAX / 1023))) >= 1023` (00_scope.md R7). A quotient that is no
number, which a step rounded to zero gives, has no floor and fails the check (log entry 9). -/
def Cfg.fullscaleOk (cfg : Cfg) : Bool :=
  (cfg.dacVmax.div cfg.dacStep).isFinite && decide (1023 ≤ (cfg.dacVmax.div cfg.dacStep).floor)

/-- `WF_CTRL`: `DAC_CTRL[c] < 16` for every channel (00_scope.md R7). -/
def Cfg.ctrlOk (cfg : Cfg) : Bool :=
  decide (cfg.dacCtrl.a < 16) && (!cfg.hasChannel .b || decide (cfg.dacCtrl.b < 16))

/-- The first check a configuration fails, if any. -/
def Cfg.failure (cfg : Cfg) : Option ConfigCheck :=
  if !cfg.rangesOk then some .ranges
  else if !strictlyIncreasing (freqTable cfg) then some .ftMono
  else if !strictlyIncreasing (voltTable cfg) then some .vtMono
  else if !cfg.fullscaleOk then some .dacFullscale
  else if !cfg.ctrlOk then some .ctrl
  else none

/-- A well-formed configuration (00_scope.md R7). -/
def Cfg.wf (cfg : Cfg) : Bool := cfg.failure.isNone

/-- The test configuration `CFG_T` (95_test_vectors.md section 1, 92_eei_decisions.md D44): the defaults of 00_scope.md R6 and,
for the OPEN fields, values of the spec's own choice. -/
def cfgT : Cfg where
  mode := .event
  n := 72
  rootFreq := F32.ofBits 0x4182CCCD
  vps := F32.ofBits 0x3DAAAAAB
  voltOffset := 0
  nsamp := 2048
  sampleRateHz := F32.ofBits 0x45FA0000
  sampleBits := 16
  adcCodeBits := 12
  adcVref := F32.ofBits 0x40800000
  inputDivider := F32.ofBits 0x3F000000
  dacVmax := F32.ofBits 0x40A00000
  dacCtrl := ⟨0x3, 0xB⟩
  adcInput := ⟨0, 1⟩
  initScaleRead := true
  fftPower := .reference

/-- `CFG_S` (95_test_vectors.md section 1). -/
def cfgS : Cfg := { cfgT with mode := .spectral, nsamp := 16 }

/-- `CFG_S2` (95_test_vectors.md section 1). -/
def cfgS2 : Cfg := { cfgT with mode := .spectral }

end Sys2Proof
end

