-- ==== Sys2Proof/Machine/State.lean ====
section
/-!
DEFINITION. The state of PQCORE and of the environment it reads and drives (10_state.md), as plain data; the reasons a step can
stop; the stimulus a run is driven by (30_encoding.md R89); and the state after reset (70_reset_and_hazards.md R290).
-/

namespace Sys2Proof.Machine

/-- The sequencer state, which plays the role of the program counter (10_state.md R20). -/
inductive Seq where
  | idle
  | sampling (c : Chan)
  | emitting (c : Chan) (pend : Option F32)
  deriving DecidableEq, Repr

/-- The record of one channel (10_state.md R22). `lastVoltage` is `none` where the spec says "no value". -/
structure ChanState where
  lastValid : Bool
  lastVoltage : Option F32
  deriving DecidableEq, Repr

/-- What a unit operation computes (10_state.md R25 and the rules of files 40 to 45). -/
inductive UnitResult where
  /-- `ROUND_DEC3`: the decimal, in thousandths. -/
  | decimal (thousandths : Int)
  /-- `MEAN`. -/
  | mean (m : F32)
  /-- `DC_FILTER`: the filtered samples. -/
  | samples (x : List F32)
  /-- `DFT`: the bins `0 .. NSAMP/2`. -/
  | spectrum (sp : Spectrum)
  /-- `BIN_POWER`: the powers of the bins `0 .. NSAMP/2 - 1`. -/
  | powers (p : List Power)
  /-- `PEAK_BIN`. -/
  | bin (k : Nat)
  /-- `BIN_TO_HZ`. -/
  | hz (f : F32)
  /-- The intermediate `XV`. -/
  | xv (v : F32)
  /-- The intermediate `QI`. -/
  | qi (i : Nat)
  /-- The intermediate `CR`. -/
  | cr (r : Correction)
  /-- The intermediate `VO`. -/
  | vo (v : F32)
  /-- `CLAMP`. -/
  | clamped (v : F32)
  /-- The intermediate `CODE`. -/
  | code (d : DacCode)
  /-- The intermediate `FR`. -/
  | fr (w : Frame)
  deriving DecidableEq, Repr

/-- A state field and the value an `EXPECT` line names for it (30_encoding.md R89). -/
inductive Observation where
  | seq (v : Seq)
  | mask (v : Degrees)
  | lastValid (c : Chan) (v : Bool)
  | lastVoltage (c : Chan) (v : F32)
  | adcReq (v : Option InputId)
  | adcDone (v : Bool)
  | dacReq (v : Option (Chan × Frame))
  | dacDone (v : Bool)
  | status (v : BitVec 16)
  | tableEntry (t : Table) (i : Nat) (v : F32)
  | sample (i : Nat) (v : Nat)
  | offer (v : Option EventWord)
  | pins (v : Degrees)
  | dacOut (c : Chan) (v : Option Frame)
  | trace (v : List (Chan × Frame))
  deriving DecidableEq, Repr

/-- One line of a stimulus script (30_encoding.md R89): a move of an agent, or an observation. Two pseudo-forms of
30_encoding.md R90 depend on the state they meet and are lines too: the tail of `TRIGGER`, and `SPECTRAL_ROUND`. -/
inductive Move where
  /-- `RESET` -/
  | reset
  /-- `PINS` -/
  | pins (p : Degrees)
  /-- `EV`; `GATE A`, `GATE B` and `SCALE` are the words `010`, `011` and `100` -/
  | offer (ev : EventWord)
  /-- `LOSE` -/
  | lose
  /-- `CAPTURE` -/
  | capture (codes : List Nat)
  /-- `CAPTURE FILL` -/
  | captureFill (v : Nat)
  /-- `WRITEDONE` -/
  | writeDone
  /-- `STEP` -/
  | step
  /-- `RUN` -/
  | run
  /-- `EXPECT` -/
  | expect (o : Observation)
  /-- The end of `TRIGGER c`. -/
  | settle (c : Chan)
  /-- `SPECTRAL_ROUND CODES ...`, only in `MODE = SPECTRAL` -/
  | spectralRound (codes : List Nat)
  deriving DecidableEq, Repr

/-- Why the model stops with a fault. PQCORE's own faults are sticky status bits and stop nothing (60_exceptions.md R262); these
are the places where the spec says that a model faults. -/
inductive Fault where
  /-- Raised by every operation that reads `buf` while it holds no value, and by an `EXPECT` line on it: "a model faults if
  `buf` is read before any capture completes" (10_state.md R30). Safe: the machine stops where the spec gives no value. -/
  | bufferNoValue
  /-- Raised by every operation that reads a `buf` of another length than `NSAMP`, and by an `EXPECT` line on an index outside
  it: `buf[i]` is defined for `0 <= i < NSAMP` (20_memory.md R62). Safe. -/
  | bufferRange
  /-- Raised by `INDEX_TO_VOLTAGE`, `QUANTIZE_FLOOR`, both paths and an `EXPECT` line when a table index is out of range: "a
  model asserts this and faults if it ever fails" (20_memory.md R61). Safe. -/
  | tableRange
  /-- Raised by an `EXPECT` line that reads `chan[c].lastVoltage` while `lastValid` is false: "reading it while
  `lastValid = false` faults in a model" (10_state.md R22). Safe. -/
  | voltageNoValue
  deriving DecidableEq, Repr

/-- Why the model gives a step no meaning. -/
inductive Refusal where
  /-- Raised by an arm of `exec` whose instruction has no meaning yet. Safe. -/
  | notModelled (mnemonic : String)
  /-- Raised by `step` and `boot`: the configuration fails a check and "gives it no meaning" (00_scope.md R7). Safe. -/
  | configuration (check : ConfigCheck)
  /-- Raised by `ADC_COMPLETE` while no capture is requested (60_exceptions.md R281). Safe. -/
  | captureNotRequested
  /-- Raised by `ADC_COMPLETE` with another number of codes than `NSAMP` (60_exceptions.md R281). Safe. -/
  | captureLength
  /-- Raised by `ADC_COMPLETE` with a code of `2^SAMPLE_BITS` or more (60_exceptions.md R281). Safe. -/
  | captureCode
  /-- Raised by `DAC_COMPLETE` while no write is requested (60_exceptions.md R281). Safe. -/
  | writeNotRequested
  /-- Raised by `DAC_FRAME` when the frame is not the one requested (60_exceptions.md R278, R281). Safe. -/
  | frameNotRequested
  /-- Raised by an offer while a word is pending (60_exceptions.md R281). Safe. -/
  | offerPending
  /-- Raised by an offer or a loss in `MODE = SPECTRAL`, where GATE takes no step and SCALE only PINS moves (60_exceptions.md
  R279, R280). Safe. -/
  | noEventSource
  /-- Raised by a loss with nothing offered or with `seq = Idle` (60_exceptions.md R279, R281). Safe. -/
  | loseNotEnabled
  /-- Raised by `PACK_FRAME` and `ENCODE` on a channel that the configuration does not have: `c < NCH` (45_dac_codec.md R205);
  and by an `EXPECT` line that names `chan[B]` or `dacOut[B]` there, which is the model's choice (log entry 16). Safe. -/
  | noSuchChannel
  /-- Raised by a `SPECTRAL_ROUND` line in `MODE = EVENT`: the form exists "only in `MODE = SPECTRAL`" (30_encoding.md R90, log
  entry 16). Safe. -/
  | notSpectral
  /-- Raised by an `EXPECT` line whose field has another value: the script does not describe this run (30_encoding.md R89).
  Safe. -/
  | expectationFailed
  deriving DecidableEq, Repr

/-- The state: what 10_state.md gives PQCORE (R20-R30), the environment state PQCORE reads or drives (R31), the constant
configuration (R28), and two fields of the model's own (`script`, `result`). -/
structure State where
  /-- `CFG`, which no step writes (10_state.md R28). -/
  cfg : Cfg
  /-- `FT` (10_state.md R29, 20_memory.md R61). -/
  ft : List F32
  /-- `VT` (10_state.md R29, 20_memory.md R61). -/
  vt : List F32
  /-- `buf`, or no value (10_state.md R30, 20_memory.md R62). -/
  buf : Option (List Nat)
  /-- `seq` (10_state.md R20). -/
  seq : Seq
  /-- `mask` (10_state.md R21). -/
  mask : Degrees
  /-- `chan[c]` (10_state.md R22). -/
  chan : PerChan ChanState
  /-- `adcReq` (10_state.md R23). -/
  adcReq : Option InputId
  /-- `adcDone` (10_state.md R23). -/
  adcDone : Bool
  /-- `dacReq` (10_state.md R23). -/
  dacReq : Option (Chan × Frame)
  /-- `dacDone` (10_state.md R23). -/
  dacDone : Bool
  /-- `STATUS` (10_state.md R27). -/
  status : BitVec 16
  /-- `offer` (10_state.md R31). -/
  offer : Option EventWord
  /-- `pins` (10_state.md R31). -/
  pins : Degrees
  /-- `dacOut[c]` (10_state.md R31). -/
  dacOut : PerChan (Option Frame)
  /-- `trace`, in latch order (10_state.md R31). -/
  trace : List (Chan × Frame)
  /-- The stimulus lines still to be read: the environment's draws and the interleaving, as data (log entry 2). -/
  script : List Move
  /-- What the last unit operation run on its own computed; none outside (log entry 5). -/
  result : Option UnitResult
  deriving DecidableEq, Repr

/-- A channel with no output yet (70_reset_and_hazards.md R290). -/
def ChanState.empty : ChanState := ⟨false, none⟩

/-- The state right after reset (70_reset_and_hazards.md R290, R291): every field of PQCORE at the value R290 gives, the tables
generated, nothing latched yet (R308). The configuration is `CFG_T` (log entry 1); no word is offered, all selector lines are
high and the script is empty (log entries 2 and 3), so `mask = ~pins = 0x000`. -/
def State.reset : State where
  cfg := cfgT
  ft := freqTable cfgT
  vt := voltTable cfgT
  buf := none
  seq := .idle
  mask := 0x000
  chan := ⟨ChanState.empty, ChanState.empty⟩
  adcReq := none
  adcDone := false
  dacReq := none
  dacDone := false
  status := 0x0000
  offer := none
  pins := 0xFFF
  dacOut := ⟨none, none⟩
  trace := []
  script := []
  result := none

end Sys2Proof.Machine
end

