-- ==== Sys2Proof/Machine/Ops.lean ====
section
/-!
DEFINITION. The shared operations on the state: moving the sequencer, recording a fault, entering an event and returning from
one, posting requests, and the environment's moves on its own state.
-/

namespace Sys2Proof.Machine

/-- What a step answers. -/
abbrev Answer := Host.Outcome State Fault Refusal

/-- The code of `seq` in the field `STATE` (10_state.md R27). -/
def Seq.code : Seq → BitVec 2
  | .idle => 0b00
  | .sampling _ => 0b01
  | .emitting _ _ => 0b10

/-- The channel of the event in process, if any (10_state.md R20). -/
def Seq.channel : Seq → Option Chan
  | .idle => none
  | .sampling c => some c
  | .emitting c _ => some c

/-- `seq <- q`; the field `STATE` follows (10_state.md R27). -/
def State.setSeq (s : State) (q : Seq) : State :=
  { s with seq := q, status := withStatusState s.status q.code }

/-- `STATUS.CH <- c` (10_state.md R27). -/
def State.setChannel (s : State) (c : Chan) : State := { s with status := withStatusCh s.status c.bit }

/-- `STATUS.LAST <- l` (10_state.md R27). -/
def State.setLast (s : State) (l : LastOutcome) : State := { s with status := withStatusLast s.status l }

/-- `raise Fault(cause)`: set the cause's sticky bit and do nothing else (60_exceptions.md R262). -/
def State.raiseFault (s : State) (f : FaultCause) : State := { s with status := withStatusFault s.status f }

/-- `issue Capture(ADC_INPUT[c])` (00_scope.md R13, 46_event_dispatcher.md R221). -/
def State.issueCapture (s : State) (c : Chan) : State := { s with adcReq := some (s.cfg.adcInput.get c) }

/-- `issue DacWrite(c, fr)` (00_scope.md R13, 46_event_dispatcher.md R225). -/
def State.issueDacWrite (s : State) (c : Chan) (fr : Frame) : State := { s with dacReq := some (c, fr) }

/-- Entry into an event (60_exceptions.md R267): the only context recorded is the channel, in `seq` and `STATUS.CH`; then the
capture is requested (46_event_dispatcher.md R221, R224). -/
def State.enterEvent (s : State) (c : Chan) : State := ((s.setChannel c).setSeq (.sampling c)).issueCapture c

/-- Return from an event to `Idle` (60_exceptions.md R268): nothing is restored. -/
def State.returnToIdle (s : State) : State := s.setSeq .idle

/-- The event ends without a write, its outcome recorded in `LAST` (60_exceptions.md R263, 46_event_dispatcher.md R225). -/
def State.endWithoutWrite (s : State) (c : Chan) (l : LastOutcome) : State := (s.setLast l).setSeq (.emitting c none)

/-- The event ends in the fault `NUMERIC`: the sticky bit, `LAST = FAULTED` (60_exceptions.md R261), and no write. -/
def State.endWithNumericFault (s : State) (c : Chan) : State := (s.raiseFault .numeric).endWithoutWrite c .faulted

/-- The frame is requested and the write of `v` is outstanding (46_event_dispatcher.md R225, R226). -/
def State.beginWrite (s : State) (c : Chan) (v : F32) (fr : Frame) : State :=
  (s.issueDacWrite c fr).setSeq (.emitting c (some v))

/-- Consume the offered event word (46_event_dispatcher.md R221 to R223). -/
def State.consumeOffer (s : State) : State := { s with offer := none }

/-- Record a completed write on a channel (46_event_dispatcher.md R227). -/
def State.recordWrite (s : State) (c : Chan) (v : F32) : State := { s with chan := s.chan.set c ⟨true, some v⟩ }

/-- The DAC latches a frame: the load strobe, the trace, and the handshake (60_exceptions.md R278). -/
def State.latchFrame (s : State) (c : Chan) (fr : Frame) : State :=
  { s with dacOut := s.dacOut.set c (some fr), trace := s.trace ++ [(c, fr)], dacReq := none, dacDone := true }

/-- The ADC delivers a whole buffer, and the handshake (60_exceptions.md R277). -/
def State.deliverCapture (s : State) (codes : List Nat) : State :=
  { s with buf := some codes, adcReq := none, adcDone := true }

/-- A unit operation run on its own leaves its result (log entry 5) and writes no state of the spec. -/
def State.yieldResult (s : State) (r : UnitResult) : State := { s with result := some r }

/-- `chan[c]` emptied for every channel that exists (70_reset_and_hazards.md R290). -/
def State.clearChannels (s : State) : PerChan ChanState :=
  ⟨ChanState.empty, if s.cfg.hasChannel .b then ChanState.empty else s.chan.b⟩

end Sys2Proof.Machine
end

