-- ==== Sys2Proof/Machine/Operands.lean ====
section
/-!
DEFINITION. What an operation reads: the tables, the sample buffer, the selector lines, the event word; and when each
sequencer step is enabled (46_event_dispatcher.md R220).
-/

namespace Sys2Proof.Machine

/-- The table a name means (40_table_generator.md R100). -/
def State.table (s : State) : Table → List F32
  | .ft => s.ft
  | .vt => s.vt

/-- Read `T[i]`, faulting outside the table (20_memory.md R61). -/
def readTable (t : List F32) (i : Nat) : Except Fault F32 :=
  match t[i]? with
  | some v => .ok v
  | none => .error .tableRange

/-- Read the whole sample buffer (20_memory.md R65): `buf[0 .. NSAMP-1]`. -/
def State.readBuffer (s : State) : Except Fault (List Nat) :=
  match s.buf with
  | none => .error .bufferNoValue
  | some codes => if codes.length = s.cfg.nsamp then .ok codes else .error .bufferRange

/-- The scale mask the selector lines stand for: `mask[i] = 1` iff line `i` is low (30_encoding.md R82). -/
def maskFromPins (pins : Degrees) : Degrees := ~~~pins

/-- `mask[p mod 12]`, the Euclidean remainder of a position that may be negative (00_scope.md R11, 42_scale_corrector.md R140). -/
def permits (mask : Degrees) (p : Int) : Bool := mask.getLsbD (p % 12).toNat

/-- The mask a reset gives (70_reset_and_hazards.md R291). -/
def State.initialMask (s : State) : Degrees := if s.cfg.initScaleRead then maskFromPins s.pins else 0x000

/-- Turn what an operand read gives into an answer: the first fault stops the machine, and a value goes on. -/
def orFault {α : Type} (e : Except Fault α) (k : α → Answer) : Answer :=
  match e with
  | .ok x => k x
  | .error f => .fault f

/-- The event port accepts a word: `MODE = EVENT`, `seq = Idle`, and the word is the one offered (46_event_dispatcher.md R221 to
R223, R229). -/
def State.accepts (s : State) (i : Instr) : Bool :=
  decide (s.cfg.mode = .event) && decide (s.seq = .idle) &&
    (match s.offer with
      | some ev => decide (decodeEvent ev = i)
      | none => false)

/-- The sequencer step a state enables, if any (46_event_dispatcher.md R220): at most one (R230). -/
def State.enabledStep (s : State) : Option Instr :=
  match s.seq with
  | .idle =>
    match s.cfg.mode with
    | .spectral => some .freeRunTrigger
    | .event => s.offer.map decodeEvent
  | .sampling c =>
    if s.adcDone then
      match s.cfg.mode, c with
      | .event, _ => some .voltagePath
      | .spectral, .a => some .spectralPath
      | .spectral, .b => none
    else none
  | .emitting _ (some _) => if s.dacDone then some .writeDone else none
  | .emitting _ none => some .holdDone

end Sys2Proof.Machine
end

