-- ==== Sys2Proof/Machine/Collaborators.lean ====
section
/-!
DEFINITION. The reset and the collaborators: the ADC and DAC completions, the DAC reading its frame, the moves of the GATE and
SCALE agents, and the observations of a script (70_reset_and_hazards.md R290, 60_exceptions.md R277 to R281, 30_encoding.md R89).
-/

namespace Sys2Proof.Machine

/-- `RESET`: everything PQCORE holds but the tables; the environment's `offer`, `pins`, `dacOut` and `trace` stay
(70_reset_and_hazards.md R290, R291, R293). -/
def execReset (s : State) : Answer :=
  .next { s with
    seq := .idle, mask := s.initialMask, chan := s.clearChannels, adcReq := none, adcDone := false, dacReq := none,
    dacDone := false, status := 0x0000, buf := none, result := none }

/-- `ADC_COMPLETE`: a requested capture is completed by exactly `NSAMP` codes of `SAMPLE_BITS` bits (60_exceptions.md R277);
another completion is refused (R281). -/
def execAdcComplete (codes : List Nat) (s : State) : Answer :=
  match s.adcReq with
  | none => .refused .captureNotRequested
  | some _ =>
    if codes.length = s.cfg.nsamp then
      (if codes.all (fun d => decide (d < 2 ^ s.cfg.sampleBits)) then .next (s.deliverCapture codes) else .refused .captureCode)
    else .refused .captureLength

/-- `DAC_COMPLETE`: the requested frame is latched (60_exceptions.md R278). -/
def execDacComplete (s : State) : Answer :=
  match s.dacReq with
  | none => .refused .writeNotRequested
  | some (c, fr) => .next (s.latchFrame c fr)

/-- `DAC_FRAME`: the DAC takes a frame of these fields when it is the one requested, and latches it on the channel of the
request (45_dac_codec.md R205, 60_exceptions.md R278). -/
def execDacFrame (ctrl : BitVec 4) (code : DacCode) (s : State) : Answer :=
  match s.dacReq with
  | none => .refused .frameNotRequested
  | some (c, fr) => if fr = packBits ctrl code then .next (s.latchFrame c fr) else .refused .frameNotRequested

/-- PINS: the switches change (60_exceptions.md R280). -/
def movePins (p : Degrees) (s : State) : Answer := .next { s with pins := p }

/-- OFFER: a word is put on a free event port; a faulty collaborator may offer a reserved one (60_exceptions.md R279, R280). -/
def moveOffer (ev : EventWord) (s : State) : Answer :=
  match s.cfg.mode, s.offer with
  | .spectral, _ => .refused .noEventSource
  | .event, some _ => .refused .offerPending
  | .event, none => .next { s with offer := some ev }

/-- LOSE: a word that waits while the sequencer is busy is withdrawn (60_exceptions.md R279, R280). -/
def moveLose (s : State) : Answer :=
  match s.cfg.mode with
  | .spectral => .refused .noEventSource
  | .event =>
    if s.offer.isSome ∧ s.seq ≠ .idle then .next s.consumeOffer else .refused .loseNotEnabled

/-- The channel whose record or output an `EXPECT` line names, if it names one (30_encoding.md R89, 10_state.md R22, R31). -/
def observedChannel : Observation → Option Chan
  | .lastValid c _ => some c
  | .lastVoltage c _ => some c
  | .dacOut c _ => some c
  | .seq _ => none
  | .mask _ => none
  | .adcReq _ => none
  | .adcDone _ => none
  | .dacReq _ => none
  | .dacDone _ => none
  | .status _ => none
  | .tableEntry _ _ _ => none
  | .sample _ _ => none
  | .offer _ => none
  | .pins _ => none
  | .trace _ => none

/-- What an `EXPECT` line names is part of the machine: its channel, if it names one, exists (00_scope.md R6, 46_event_dispatcher.md
R233). -/
def State.observable (s : State) (o : Observation) : Bool := (observedChannel o).all s.cfg.hasChannel

/-- Whether a state field has the value an `EXPECT` line names (30_encoding.md R89); asked only of what is part of the machine
(`moveExpect`). -/
def State.observe (s : State) : Observation → Except Fault Bool
  | .seq v => .ok (decide (s.seq = v))
  | .mask v => .ok (decide (s.mask = v))
  | .lastValid c v => .ok ((s.chan.get c).lastValid == v)
  | .lastVoltage c v =>
    match (s.chan.get c).lastValid, (s.chan.get c).lastVoltage with
    | true, some w => .ok (decide (w = v))
    | _, _ => .error .voltageNoValue
  | .adcReq v => .ok (decide (s.adcReq = v))
  | .adcDone v => .ok (s.adcDone == v)
  | .dacReq v => .ok (decide (s.dacReq = v))
  | .dacDone v => .ok (s.dacDone == v)
  | .status v => .ok (decide (s.status = v))
  | .tableEntry t i v => (readTable (s.table t) i).map fun w => decide (w = v)
  | .sample i v =>
    match s.readBuffer with
    | .error f => .error f
    | .ok codes => if h : i < codes.length then .ok (codes[i] == v) else .error .bufferRange
  | .offer v => .ok (decide (s.offer = v))
  | .pins v => .ok (decide (s.pins = v))
  | .dacOut c v => .ok (decide (s.dacOut.get c = v))
  | .trace v => .ok (decide (s.trace = v))

/-- `EXPECT`: an observation, not a move: the state is kept (30_encoding.md R89). DESIGN CHOICE (log entry 16): the spec gives no
outcome for `chan[B]` and `dacOut[B]` in `MODE = SPECTRAL`, where there is no channel B; the line is refused. -/
def moveExpect (o : Observation) (s : State) : Answer :=
  if s.observable o then orFault (s.observe o) fun b => if b then .next s else .refused .expectationFailed
  else .refused .noSuchChannel

end Sys2Proof.Machine
end

