-- ==== Sys2Proof/Machine/Corrector.lean ====
section
/-!
DEFINITION. The ScaleCorrector (42_scale_corrector.md).
-/

namespace Sys2Proof.Machine

/-- The downward scan from position `p` over as many positions as the first argument says (42_scale_corrector.md R140). -/
def correctScan (mask : Degrees) : Nat → Int → Correction
  | 0, _ => .noneEmpty
  | k + 1, p =>
    if permits mask p then (if 0 ≤ p then .some p.toNat else .noneBelow)
    else correctScan mask k (p - 1)

/-- `CORRECT(index, mask, tableLen)`: index 0 and a permitted degree pass; otherwise the 13 positions `index .. index-12` are
scanned (42_scale_corrector.md R140). `tableLen` has no effect (R144), and no `index` is too large (log entry 14). -/
def correct (index : Nat) (mask : Degrees) (_tableLen : Nat) : Correction :=
  if permits mask (index : Int) || index == 0 then .some index else correctScan mask 13 (index : Int)

/-- `CORRECT` with the scale mask read at the time of the call (42_scale_corrector.md R140, 10_state.md R21). -/
def execCorrect (index : Nat) (s : State) : Answer :=
  .next (s.yieldResult (.cr (correct index s.mask s.cfg.n)))

end Sys2Proof.Machine
end

