-- ==== Sys2Proof/Machine/DacCodec.lean ====
section
/-!
DEFINITION. The DacCodec (45_dac_codec.md): voltage to DAC code, and the frame.
-/

namespace Sys2Proof.Machine

/-- `CLAMP(v)` to `[0, DAC_VMAX]` (45_dac_codec.md R200); none when the assertion that `v` is no NaN fails. -/
def clampVoltage (cfg : Cfg) (v : F32) : Option F32 :=
  if v.isNaN then none
  else if v.le F32.zero then some F32.zero
  else if cfg.dacVmax.le v then some cfg.dacVmax
  else some v

/-- `min(f, 1023)` as 10 bits (45_dac_codec.md R201). A negative floor is no code: R201 states none for it. -/
def codeOfFloor (f : Int) : DacCode :=
  if f < 0 then Config.negativeCode f else BitVec.ofNat 10 (min f.toNat 1023)

/-- `V2CODE(vc)`: the floor of the rounded quotient by the rounded step, at most 1023 (45_dac_codec.md R201). -/
def voltageToCode (cfg : Cfg) (vc : F32) : DacCode := codeOfFloor (vc.div cfg.dacStep).floor

/-- `PACK_FRAME(c, code) = {DAC_CTRL[c], code, 00}` (45_dac_codec.md R205). -/
def packFrame (cfg : Cfg) (c : Chan) (code : DacCode) : Frame := packBits (BitVec.ofNat 4 (cfg.dacCtrl.get c)) code

/-- `ENCODE(c, v)` (45_dac_codec.md R207); none when the assertion of `CLAMP` fails, and then no frame is emitted (R200). -/
def encodeVoltage (cfg : Cfg) (c : Chan) (v : F32) : Option Frame :=
  (clampVoltage cfg v).map fun vc => packFrame cfg c (voltageToCode cfg vc)

/-- `DECODE(code) = RNE32(code * step)` (45_dac_codec.md R204): test-only, run by no step; it states the round trip. -/
def decodeCode (cfg : Cfg) (code : DacCode) : F32 := (F32.ofNat code.toNat).mul cfg.dacStep

/-- A unit of the codec met a NaN: the fault `NUMERIC`, `LAST = FAULTED`, and no frame (45_dac_codec.md R200, 60_exceptions.md
R261). -/
def State.codecFault (s : State) : State := { (s.raiseFault .numeric).setLast .faulted with result := none }

/-- `CLAMP` (45_dac_codec.md R200). -/
def execClamp (v : F32) (s : State) : Answer :=
  match clampVoltage s.cfg v with
  | some vc => .next (s.yieldResult (.clamped vc))
  | none => .next s.codecFault

/-- `V2CODE` (45_dac_codec.md R201; `vc > DAC_VMAX`: log entry 19). -/
def execV2code (vc : F32) (s : State) : Answer := .next (s.yieldResult (.code (voltageToCode s.cfg vc)))

/-- `PACK_FRAME`, for a channel `c < NCH` (45_dac_codec.md R205). -/
def execPackFrame (c : Chan) (code : DacCode) (s : State) : Answer :=
  if s.cfg.hasChannel c then .next (s.yieldResult (.fr (packFrame s.cfg c code))) else .refused .noSuchChannel

/-- `ENCODE`, for a channel `c < NCH` (45_dac_codec.md R207). -/
def execEncodeVoltage (c : Chan) (v : F32) (s : State) : Answer :=
  if s.cfg.hasChannel c then
    match encodeVoltage s.cfg c v with
    | some fr => .next (s.yieldResult (.fr fr))
    | none => .next s.codecFault
  else .refused .noSuchChannel

end Sys2Proof.Machine
end

