-- ==== Sys2Proof/Machine/Quantizer.lean ====
section
/-!
DEFINITION. The Quantizer (41_quantizer.md): floor binary search.
-/

namespace Sys2Proof.Machine

/-- The loop of `QUANTIZE_FLOOR` (41_quantizer.md R120), `fuel` bounding its length: `u - l` strictly decreases (R122). -/
def quantizeLoop (x : F32) (t : List F32) : Nat → Nat → Nat → Except Fault Nat
  | 0, l, _ => .ok l
  | fuel + 1, l, u =>
    if 1 < u - l then
      match readTable t ((l + u) / 2) with
      | .error f => .error f
      | .ok tm =>
        if x.eq tm then .ok ((l + u) / 2)
        else if tm.lt x then quantizeLoop x t fuel ((l + u) / 2) u
        else quantizeLoop x t fuel l ((l + u) / 2)
    else .ok l

/-- `QUANTIZE_FLOOR(x, T)` (41_quantizer.md R120), `last` the index of the last entry. -/
def quantizeFloor (x : F32) (t : List F32) : Except Fault Nat :=
  match readTable t 0, readTable t (t.length - 1) with
  | .ok lo, .ok hi =>
    if x.le lo then .ok 0
    else if hi.le x then .ok (t.length - 1)
    else quantizeLoop x t t.length 0 (t.length - 1)
  | .error f, _ => .error f
  | _, .error f => .error f

/-- `QUANTIZE_FLOOR` (41_quantizer.md R120). -/
def execQuantizeFloor (x : F32) (t : Table) (s : State) : Answer :=
  orFault (quantizeFloor x (s.table t)) fun i => .next (s.yieldResult (.qi i))

end Sys2Proof.Machine
end

