-- ==== Sys2Proof/Machine/Averager.lean ====
section
/-!
DEFINITION. The sample mean, which both paths use (43_spectral_estimator.md R160), and the SampleAverager
(44_sample_averager.md).
-/

namespace Sys2Proof.Machine

/-- `MEAN(buf)`: the exact sum over `NSAMP`, rounded once (43_spectral_estimator.md R160). -/
def meanOf (nsamp : Nat) (buf : List Nat) : F32 := rne32 (buf.sum : Nat) nsamp

/-- The averager's scale `RNE32(ADC_VREF / 2^ADC_CODE_BITS)` (44_sample_averager.md R180). -/
def adcScale (cfg : Cfg) : F32 := cfg.adcVref.div (F32.ofNat (2 ^ cfg.adcCodeBits))

/-- `AVERAGE_VOLTAGE(buf)`: three rounded operations in the written order (44_sample_averager.md R180). -/
def averageVoltage (cfg : Cfg) (buf : List Nat) : F32 :=
  ((meanOf cfg.nsamp buf).div cfg.inputDivider).mul (adcScale cfg)

/-- `MEAN` (43_spectral_estimator.md R160). -/
def execMean (s : State) : Answer :=
  orFault s.readBuffer fun buf => .next (s.yieldResult (.mean (meanOf s.cfg.nsamp buf)))

/-- `AVERAGE_VOLTAGE` (44_sample_averager.md R180). -/
def execAverageVoltage (s : State) : Answer :=
  orFault s.readBuffer fun buf => .next (s.yieldResult (.xv (averageVoltage s.cfg buf)))

end Sys2Proof.Machine
end

