-- ==== Sys2Proof/Machine/Cosine.lean ====
section
/-!
DEFINITION. The order of exact powers (43_spectral_estimator.md R163, R164). A power is a sum of integer multiples of cosines of
rational angles. Its sign is decided by integer arithmetic: a sum that vanishes is found by a polynomial identity, and any
other is enclosed at growing precision until the enclosure excludes zero. That the answer is the sign of the real number is
proved in Laws/Cosine.lean.
-/

namespace Sys2Proof.Machine

/-- One level of the nested arctangent series, on a fraction `r`: `1/k - r/xx`. -/
def arctanLevel (xx k : Nat) : Int × Nat → Int × Nat
  | (p, q) => (((q * xx : Nat) : Int) - k * p, k * q * xx)

/-- The arctangent series of `1/x` from its `j`-th term on, `xx = x^2`, in nested form, as a fraction:
`1/(2j+1) - (1/xx) (1/(2j+3) - ...)`. -/
def arctanTail (xx : Nat) : Nat → Nat → Int × Nat
  | 0, _ => (0, 1)
  | terms + 1, j => arctanLevel xx (2 * j + 1) (arctanTail xx terms (j + 1))

/-- `pi` in units of `2^-q`, rounded down, from Machin's formula `pi = 16 arctan(1/5) - 4 arctan(1/239)`. -/
def piScaled (q : Nat) : Int :=
  let a := arctanTail 25 (q / 2 + 2) 0
  let b := arctanTail 57121 (q / 2 + 2) 0
  (16 * a.1 * ((239 * b.2 : Nat) : Int) - 4 * b.1 * ((5 * a.2 : Nat) : Int)) * 2 ^ q / ((5 * a.2 * (239 * b.2) : Nat) : Int)

/-- One level of the nested cosine series, on a fraction `r`: `1 - num / (den * k) * r`. -/
def cosLevel (num den k : Nat) : Int × Nat → Int × Nat
  | (p, q) => (((k * den * q : Nat) : Int) - num * p, k * den * q)

/-- The cosine series from its `j`-th term on at `t`, where `t^2 = num / den`, in nested form, as a fraction:
`1 - t^2 / ((2j+1)(2j+2)) (1 - ...)`. -/
def cosTail (num den : Nat) : Nat → Nat → Int × Nat
  | 0, _ => (0, 1)
  | terms + 1, j => cosLevel num den ((2 * j + 1) * (2 * j + 2)) (cosTail num den terms (j + 1))

/-- `cos (2 pi m / n)` in units of `2^-p`, within 3 units, from `pi` in units of `2^-(p+3)`. -/
def cosScaled (pi : Nat) (n p m : Nat) : Int :=
  match cosTail ((2 * pi * m) ^ 2) ((2 ^ (p + 3) * n) ^ 2) (p / 2 + 10) 0 with
  | (c, d) => c * 2 ^ p / (d : Int)

/-- The sum over a list of terms of `a` times a table's entry `m mod n`. -/
def weighted (tab : List Int) (n : Nat) : AngleSum → Int
  | [] => 0
  | (a, m) :: rest => a * tab.getD (m % n) 0 + weighted tab n rest

/-- The sum of the magnitudes of the multiples. -/
def weight : AngleSum → Nat
  | [] => 0
  | (a, _) :: rest => a.natAbs + weight rest

/-- The cosines of the angles of order `n`, in units of `2^-p`. -/
def cosTable (n p : Nat) : List Int := (List.range n).map (cosScaled (piScaled (p + 3)).natAbs n p)

/-- What the enclosure at precision `p` says of the sign of a sum: `.eq` is undecided. -/
def signAt (n : Nat) (ts : AngleSum) (p : Nat) : Ordering :=
  let v := weighted (cosTable n p) n ts
  if (3 * weight ts : Nat) < v then .gt
  else if v < -(3 * weight ts : Nat) then .lt
  else .eq

/-- Double the precision until the sign is decided; undecided at the last is zero. -/
def signFrom (n : Nat) (ts : AngleSum) : Nat → Nat → Ordering
  | 0, _ => .eq
  | fuel + 1, p =>
    match signAt n ts p with
    | .eq => signFrom n ts fuel (2 * p)
    | o => o

/-- A number of doublings from 64 after which the precision exceeds what separates from zero every nonzero sum of this order
and weight: the norm of twice the sum is a nonzero integer, and each of its at most `n` conjugates is at most `2 * weight`. -/
def doublings (n : Nat) (ts : AngleSum) : Nat := Nat.log2 ((n * (Nat.log2 (weight ts) + 2) + 4) / 64) + 2

/-- The greatest common divisor of the multiples. -/
def content : AngleSum → Nat
  | [] => 0
  | (a, _) :: rest => Nat.gcd a.natAbs (content rest)

/-- The terms with every multiple divided by `g`. -/
def divideTerms (g : Nat) (ts : AngleSum) : AngleSum := ts.map fun t => (t.1 / (g : Int), t.2)

/-- The terms with their common divisor taken out, which changes no sign. -/
def primitiveTerms (ts : AngleSum) : AngleSum := divideTerms (content ts) ts

/-- The multiples of the angles congruent to `r` or to `-r` modulo `n`: the coefficient of `z^r` in twice the sum, as a
polynomial in `z = exp(2 pi sqrt(-1) / n)`. -/
def residueSum (n r : Nat) : AngleSum → Int
  | [] => 0
  | (a, m) :: rest =>
    (if m % n = r then a else 0) + (if (n - m % n) % n = r then a else 0) + residueSum n r rest

/-- Multiply a polynomial, given by its coefficients modulo `z^n - 1` (`n` the length), by `z^d - 1`. -/
def shiftDifference (c : List Int) (d : Nat) : List Int :=
  List.zipWith (fun a b => a - b) (c.drop (c.length - d) ++ c.take (c.length - d)) c

/-- The divisors of `n` below `n`. -/
def properDivisors (n : Nat) : List Nat := (List.range n).filter fun d => decide (0 < d) && n % d == 0

/-- The sum is zero: as a polynomial it vanishes at every primitive `n`-th root of unity. Multiplying by `z^d - 1` for the
proper divisors `d` of `n` makes it vanish at the other `n`-th roots too, and does not at the primitive ones. -/
def vanishes (n : Nat) (ts : AngleSum) : Bool :=
  ((properDivisors n).foldl shiftDifference ((List.range n).map fun r => residueSum n r ts)).all fun c => c == 0

/-- The sign of a sum whose multiples have no common divisor. -/
def primitiveSign (n : Nat) (ts : AngleSum) : Ordering :=
  match signAt n ts 64 with
  | .eq => if vanishes n ts then .eq else signFrom n ts (doublings n ts) 64
  | o => o

/-- The sign of the real number `sum of a * cos (2 pi m / n)`, for `n > 0`. -/
def cosSign (n : Nat) (ts : AngleSum) : Ordering :=
  if weight ts = 0 then .eq else primitiveSign n (primitiveTerms ts)

/-- The terms of a sum with every multiple scaled. -/
def scaleTerms (k : Int) (ts : AngleSum) : AngleSum := ts.map fun t => (k * t.1, t.2)

/-- The terms of a sum of order `n` as a sum of order `n * k`. -/
def refineTerms (k : Nat) (ts : AngleSum) : AngleSum := ts.map fun t => (t.1, k * t.2)

/-- The order common to two powers. -/
def commonOrder (p q : Power) : Nat := if p.order = q.order then p.order else p.order * q.order

/-- The difference of two powers times both denominators, as a sum of the common order. -/
def powerDifference (p q : Power) : AngleSum :=
  if p.order = q.order then scaleTerms q.den p.terms ++ scaleTerms (-(p.den : Int)) q.terms
  else scaleTerms q.den (refineTerms q.order p.terms) ++ scaleTerms (-(p.den : Int)) (refineTerms p.order q.terms)

/-- `p > q` as real numbers (43_spectral_estimator.md R164). -/
def powerGt (p q : Power) : Bool := cosSign (commonOrder p q) (powerDifference p q) == .gt

end Sys2Proof.Machine
end

