-- ==== Sys2Proof/Machine/Spectral.lean ====
section
/-!
DEFINITION. The SpectralPitchEstimator (43_spectral_estimator.md): DC filter, DFT, power, peak, bin to Hz. No window is applied
(R162).
-/

namespace Sys2Proof.Machine

/-- `DC_FILTER(buf)`: one rounded subtraction of the mean per sample (43_spectral_estimator.md R161). -/
def dcFilter (nsamp : Nat) (buf : List Nat) : List F32 := buf.map fun d => (F32.ofNat d).sub (meanOf nsamp buf)

/-- Bin `k` of the exact DFT of a block: sample `i` turns by `i * k` steps of the block's length (43_spectral_estimator.md
R163). -/
def dftBin (x : List F32) (k : Nat) : AngleSum :=
  x.zipIdx.map fun t => (t.1.scaled, t.2 * k % x.length)

/-- `DFT(x)[k]` for `k = 0 .. NSAMP/2` (43_spectral_estimator.md R163), `NSAMP` the length of the block (log entry 19). -/
def dft (x : List F32) : Spectrum := ⟨x.length, (List.range (x.length / 2 + 1)).map (dftBin x)⟩

/-- The scalar product of two blocks. -/
def dot : List Int → List Int → Int
  | a :: as, b :: bs => a * b + dot as bs
  | _, _ => 0

/-- The circular autocorrelation of a block at lag `d`: the sum of `x[i] * x[i+d]`, indices modulo the length. -/
def autocorrelation (x : List Int) (d : Nat) : Int := dot x (x.drop d ++ x.take d)

/-- The reference power of bin `k`, `re(DFT(x)[k])^2 + im(DFT(x)[k])^2` (43_spectral_estimator.md R163), written as the cosine
sum of the block's autocorrelation `r`. -/
def referenceBin (n : Nat) (r : List Int) (k : Nat) : Power :=
  ⟨F32.one * F32.one, n, r.zipIdx.map fun t => (t.1, t.2 * k % n)⟩

/-- `P_ref(x)[k]` for `k = 0 .. NSAMP/2 - 1` (43_spectral_estimator.md R163), `NSAMP` the length of the block (log entry 19). -/
def referencePower (x : List F32) : List Power :=
  let r := (List.range x.length).map (autocorrelation (x.map F32.scaled))
  (List.range (x.length / 2)).map (referenceBin x.length r)

/-- The power a declared FFT gives bin `k`: a free value made to conform, at least 0, and 0 for a block of zeros
(43_spectral_estimator.md R163). -/
def declaredBin (id : Nat) (x : List F32) (k : Nat) : Power :=
  if x.all F32.isZero then ⟨1, 1, [(0, 0)]⟩
  else ⟨(Config.declaredPower id x k).2 + 1, 1, [(((Config.declaredPower id x k).1 : Nat), 0)]⟩

/-- `BIN_POWER(x)` under the configuration's `FFT_POWER` (43_spectral_estimator.md R163). -/
def binPower (f : FftPower) (x : List F32) : List Power :=
  match f with
  | .reference => referencePower x
  | .declared id => (List.range (x.length / 2)).map (declaredBin id x)

/-- The loop of `PEAK_BIN` (43_spectral_estimator.md R164): an equal power never displaces. -/
def peakLoop : List Power → Nat → Nat → Power → Nat
  | [], _, best, _ => best
  | p :: rest, k, best, top =>
    if powerGt p top then peakLoop rest (k + 1) k p else peakLoop rest (k + 1) best top

/-- `PEAK_BIN(P)` (43_spectral_estimator.md R164). DESIGN CHOICE (log entry 19): the whole list is searched, whatever its length; R164
states its result for `NSAMP/2` powers. -/
def peakBin : List Power → Nat
  | [] => 0
  | p :: rest => peakLoop rest 1 0 p

/-- `BIN_TO_HZ(k) = RNE32(RNE32(k * SAMPLE_RATE_HZ) / NSAMP)` (43_spectral_estimator.md R165). DESIGN CHOICE (log entry 19): the same
formula for a `k` of `NSAMP/2` or more, for which R165 states no result. -/
def binToHz (cfg : Cfg) (k : Nat) : F32 := ((F32.ofNat k).mul cfg.sampleRateHz).div (F32.ofNat cfg.nsamp)

/-- `ESTIMATE(buf)` (43_spectral_estimator.md R166). -/
def estimate (cfg : Cfg) (buf : List Nat) : F32 :=
  binToHz cfg (peakBin (binPower cfg.fftPower (dcFilter cfg.nsamp buf)))

/-- `DC_FILTER` (43_spectral_estimator.md R161). -/
def execDcFilter (s : State) : Answer :=
  orFault s.readBuffer fun buf => .next (s.yieldResult (.samples (dcFilter s.cfg.nsamp buf)))

/-- `DFT` (43_spectral_estimator.md R163). -/
def execDft (x : List F32) (s : State) : Answer := .next (s.yieldResult (.spectrum (dft x)))

/-- `BIN_POWER` (43_spectral_estimator.md R163). -/
def execBinPower (x : List F32) (s : State) : Answer :=
  .next (s.yieldResult (.powers (binPower s.cfg.fftPower x)))

/-- `PEAK_BIN` (43_spectral_estimator.md R164; a list of another length than `NSAMP/2`: log entry 19). -/
def execPeakBin (p : List Power) (s : State) : Answer := .next (s.yieldResult (.bin (peakBin p)))

/-- `BIN_TO_HZ` (43_spectral_estimator.md R165; `k >= NSAMP/2`: log entry 19). -/
def execBinToHz (k : Nat) (s : State) : Answer := .next (s.yieldResult (.hz (binToHz s.cfg k)))

/-- `ESTIMATE` (43_spectral_estimator.md R166). -/
def execEstimate (s : State) : Answer :=
  orFault s.readBuffer fun buf => .next (s.yieldResult (.xv (estimate s.cfg buf)))

end Sys2Proof.Machine
end

