-- ==== Sys2Proof/Machine/Dispatcher.lean ====
section
/-!
DEFINITION. The sequencer's steps (46_event_dispatcher.md R221 to R228). A step whose enabling condition fails waits: the state
is kept whole (60_exceptions.md R272, log entry 10).
-/

namespace Sys2Proof.Machine

/-- How a pipeline ends: with a frame to write, in a hold, or in the fault `NUMERIC` (46_event_dispatcher.md R225). -/
inductive PathEnd where
  | emit (vo : F32) (fr : Frame)
  | hold (l : LastOutcome)
  | numericFault
  deriving DecidableEq, Repr

/-- The frame of a voltage, or the codec's failed assertion (45_dac_codec.md R200, R207). -/
def emitVoltage (cfg : Cfg) (c : Chan) (vo : F32) : PathEnd :=
  match encodeVoltage cfg c vo with
  | some fr => .emit vo fr
  | none => .numericFault

/-- What a correction leads to (46_event_dispatcher.md R225). -/
def afterCorrection (cfg : Cfg) (vt : List F32) (c : Chan) (r : Correction) : Except Fault PathEnd :=
  match r with
  | .some j => (readTable vt j).map (emitVoltage cfg c)
  | .noneEmpty => .ok (.hold .heldEmpty)
  | .noneBelow => .ok (.hold .heldBelow)

/-- Averager, quantizer, corrector, table and codec (46_event_dispatcher.md R225). -/
def voltagePipeline (cfg : Cfg) (vt : List F32) (mask : Degrees) (c : Chan) (buf : List Nat) : Except Fault PathEnd :=
  if (averageVoltage cfg buf).isNaN then .ok .numericFault
  else
    match quantizeFloor (averageVoltage cfg buf) vt with
    | .ok qi => afterCorrection cfg vt c (correct qi mask cfg.n)
    | .error f => .error f

/-- Estimator, quantizer, table and codec, without correction (46_event_dispatcher.md R226). -/
def spectralPipeline (cfg : Cfg) (ft vt : List F32) (buf : List Nat) : Except Fault PathEnd :=
  match quantizeFloor (estimate cfg buf) ft with
  | .ok qi => (readTable vt qi).map (emitVoltage cfg .a)
  | .error f => .error f

/-- Commit the end of a pipeline (46_event_dispatcher.md R225, R226). -/
def State.endPath (s : State) (c : Chan) (e : PathEnd) : State :=
  match e with
  | .emit vo fr => s.beginWrite c vo fr
  | .hold l => s.endWithoutWrite c l
  | .numericFault => s.endWithNumericFault c

/-- `adcDone <- false` (46_event_dispatcher.md R225, R226). -/
def State.consumeCapture (s : State) : State := { s with adcDone := false }

/-- `dacDone <- false` (46_event_dispatcher.md R227). -/
def State.consumeWrite (s : State) : State := { s with dacDone := false }

/-- A reserved word is consumed and recorded as the fault `ILLEGAL_EVENT` (46_event_dispatcher.md R223). -/
def acceptReserved (i : Instr) (s : State) : Answer :=
  if s.accepts i then .next (s.consumeOffer.raiseFault .illegalEvent) else .next s

/-- `ACCEPT_GATE` (46_event_dispatcher.md R221). -/
def execGate (c : Chan) (s : State) : Answer :=
  if s.accepts (.gate c) then .next (s.consumeOffer.enterEvent c) else .next s

/-- `ACCEPT_SCALE`: the mask is rebuilt from the selector lines as they are now (46_event_dispatcher.md R222). -/
def execScale (s : State) : Answer :=
  if s.accepts .scale then .next { s.consumeOffer with mask := maskFromPins s.pins } else .next s

/-- `ACCEPT_RESERVED` of the words `000` and `001` (46_event_dispatcher.md R223). -/
def execReserved00x (x : Bool) (s : State) : Answer := acceptReserved (.reserved00x x) s

/-- `ACCEPT_RESERVED` of the word `101` (46_event_dispatcher.md R223). -/
def execReserved101 (s : State) : Answer := acceptReserved .reserved101 s

/-- `ACCEPT_RESERVED` of the words `110` and `111` (46_event_dispatcher.md R223). -/
def execReserved11x (x : Bool) (s : State) : Answer := acceptReserved (.reserved11x x) s

/-- `FREE_RUN_TRIGGER` (46_event_dispatcher.md R224). -/
def execFreeRunTrigger (s : State) : Answer :=
  match s.cfg.mode, s.seq with
  | .spectral, .idle => .next (s.enterEvent .a)
  | _, _ => .next s

/-- `VOLTAGE_PATH` (46_event_dispatcher.md R225). -/
def execVoltagePath (s : State) : Answer :=
  match s.cfg.mode, s.seq, s.adcDone with
  | .event, .sampling c, true =>
    orFault s.readBuffer fun buf =>
      orFault (voltagePipeline s.cfg s.vt s.mask c buf) fun e => .next (s.consumeCapture.endPath c e)
  | _, _, _ => .next s

/-- `SPECTRAL_PATH` (46_event_dispatcher.md R226). -/
def execSpectralPath (s : State) : Answer :=
  match s.cfg.mode, s.seq, s.adcDone with
  | .spectral, .sampling .a, true =>
    orFault s.readBuffer fun buf =>
      orFault (spectralPipeline s.cfg s.ft s.vt buf) fun e => .next (s.consumeCapture.endPath .a e)
  | _, _, _ => .next s

/-- `WRITE_DONE` (46_event_dispatcher.md R227). -/
def execWriteDone (s : State) : Answer :=
  match s.seq, s.dacDone with
  | .emitting c (some v), true => .next ((s.consumeWrite.recordWrite c v).setLast .emitted).returnToIdle
  | _, _ => .next s

/-- `HOLD_DONE` (46_event_dispatcher.md R228). -/
def execHoldDone (s : State) : Answer :=
  match s.seq with
  | .emitting _ none => .next s.returnToIdle
  | _ => .next s

end Sys2Proof.Machine
end

