-- ==== Sys2Proof/Machine/TableGenerator.lean ====
section
/-!
DEFINITION. The TableGenerator's operations (40_table_generator.md); what they compute stands in Machine/Tables.lean.
-/

namespace Sys2Proof.Machine

/-- `GEN_FREQ_TABLE` builds `FT` from the configuration (40_table_generator.md R101). -/
def execGenFreqTable (s : State) : Answer := .next { s with ft := freqTable s.cfg }

/-- `ROUND_DEC3` (40_table_generator.md R102). -/
def execRoundDec3 (t : SemitoneReal) (s : State) : Answer := .next (s.yieldResult (.decimal (roundDec3 t)))

/-- `GEN_VOLT_TABLE` builds `VT` from the configuration (40_table_generator.md R103). -/
def execGenVoltTable (s : State) : Answer := .next { s with vt := voltTable s.cfg }

/-- `INDEX_TO_VOLTAGE(j)`: `VO = VT[j]` (40_table_generator.md R105). -/
def execIndexToVoltage (j : Nat) (s : State) : Answer :=
  orFault (readTable s.vt j) fun v => .next (s.yieldResult (.vo v))

end Sys2Proof.Machine
end

