-- ==== Sys2Proof/Machine/Dispatch.lean ====
section
/-!
DEFINITION. The one match over the instructions: each arm is one direct call of its meaning.
-/

namespace Sys2Proof.Machine

def exec (i : Instr) (s : State) : Host.Outcome State Fault Refusal :=
  match i with
  | .gate c => Sys2Proof.Machine.execGate c s
  | .scale => Sys2Proof.Machine.execScale s
  | .reserved00x x => Sys2Proof.Machine.execReserved00x x s
  | .reserved101 => Sys2Proof.Machine.execReserved101 s
  | .reserved11x x => Sys2Proof.Machine.execReserved11x x s
  | .genFreqTable => Sys2Proof.Machine.execGenFreqTable s
  | .roundDec3 t => Sys2Proof.Machine.execRoundDec3 t s
  | .genVoltTable => Sys2Proof.Machine.execGenVoltTable s
  | .indexToVoltage j => Sys2Proof.Machine.execIndexToVoltage j s
  | .quantizeFloor x t => Sys2Proof.Machine.execQuantizeFloor x t s
  | .correct index => Sys2Proof.Machine.execCorrect index s
  | .mean => Sys2Proof.Machine.execMean s
  | .dcFilter => Sys2Proof.Machine.execDcFilter s
  | .dft x => Sys2Proof.Machine.execDft x s
  | .binPower x => Sys2Proof.Machine.execBinPower x s
  | .peakBin p => Sys2Proof.Machine.execPeakBin p s
  | .binToHz k => Sys2Proof.Machine.execBinToHz k s
  | .estimate => Sys2Proof.Machine.execEstimate s
  | .averageVoltage => Sys2Proof.Machine.execAverageVoltage s
  | .clamp v => Sys2Proof.Machine.execClamp v s
  | .v2code vc => Sys2Proof.Machine.execV2code vc s
  | .packFrame c code => Sys2Proof.Machine.execPackFrame c code s
  | .encodeVoltage c v => Sys2Proof.Machine.execEncodeVoltage c v s
  | .freeRunTrigger => Sys2Proof.Machine.execFreeRunTrigger s
  | .voltagePath => Sys2Proof.Machine.execVoltagePath s
  | .spectralPath => Sys2Proof.Machine.execSpectralPath s
  | .writeDone => Sys2Proof.Machine.execWriteDone s
  | .holdDone => Sys2Proof.Machine.execHoldDone s
  | .reset => Sys2Proof.Machine.execReset s
  | .adcComplete codes => Sys2Proof.Machine.execAdcComplete codes s
  | .dacComplete => Sys2Proof.Machine.execDacComplete s
  | .dacFrame ctrl code => Sys2Proof.Machine.execDacFrame ctrl code s

end Sys2Proof.Machine
end

