-- ==== Sys2Proof/Machine/Stimulus.lean ====
section
/-!
DEFINITION. The stimulus notation (30_encoding.md R89, R90) as lines of a script: the line forms that are shorthands of others, and
the pseudo-forms.
-/

namespace Sys2Proof.Machine

/-- `GATE A`, `GATE B`: offer `010`, `011` (30_encoding.md R89). -/
def lineGate (c : Chan) : Move := .offer ((0b01 : BitVec 2) ++ BitVec.ofBool c.bit)

/-- `SCALE`: offer `100` (30_encoding.md R89). -/
def lineScale : Move := .offer 0b100

/-- `SETSCALE m`: `PINS ~m` then `SCALE` then `STEP` (30_encoding.md R90). -/
def linesSetScale (m : Degrees) : List Move := [.pins (~~~m), lineScale, .step]

/-- `TRIGGER c CODES ...` (30_encoding.md R90). -/
def linesTrigger (c : Chan) (codes : List Nat) : List Move := [lineGate c, .step, .capture codes, .step, .settle c]

/-- `TRIGGER c FILL v` (30_encoding.md R90). -/
def linesTriggerFill (c : Chan) (v : Nat) : List Move := [lineGate c, .step, .captureFill v, .step, .settle c]

/-- The expansion of `SPECTRAL_ROUND CODES ...` (30_encoding.md R90); that it is one only in `MODE = SPECTRAL` is checked where the
line is read (`moveSpectralRound`). -/
def linesSpectralRound (codes : List Nat) : List Move := [.step, .capture codes, .step, .writeDone, .step]

end Sys2Proof.Machine
end

