-- ==== Sys2Proof/Machine/Turn.lean ====
section
/-!
DEFINITION. Whose turn it is and what that agent does: the sequencer's enabled step, the DAC reading its frame, and one line of
the stimulus script (00_scope.md R9, 30_encoding.md R89, R90). Also where an instruction is placed for the next turn.
-/

namespace Sys2Proof.Machine

/-- The sequencer takes its enabled step, or waits when none is (46_event_dispatcher.md R220, 60_exceptions.md R272). -/
def seqTurn (s : State) : Answer :=
  match s.enabledStep with
  | some i => exec i s
  | none => .next s

/-- What the DAC runs: the frame it is asked to write, read as a frame word, and the bare completion where nothing is asked or
the word is no frame of PQCORE (60_exceptions.md R278, 30_encoding.md R85). -/
def dacInstr (s : State) : Instr :=
  match s.dacReq with
  | none => .dacComplete
  | some (_, fr) =>
    match decodeFrame fr with
    | .ok i => i
    | .error _ => .dacComplete

/-- The lines the end of `TRIGGER c` stands for (30_encoding.md R90). -/
def settleLines (s : State) (c : Chan) : List Move :=
  match s.seq with
  | .emitting d (some _) => if d = c then [.writeDone, .step] else [.step]
  | _ => [.step]

/-- `SPECTRAL_ROUND`: its expansion, only in `MODE = SPECTRAL` (30_encoding.md R90); elsewhere the form does not exist and is refused
(log entry 16). -/
def moveSpectralRound (codes : List Nat) (s : State) : Answer :=
  match s.cfg.mode with
  | .spectral => .next { s with script := linesSpectralRound codes ++ s.script }
  | .event => .refused .notSpectral

/-- One line of the script, the state's `script` being what follows it (30_encoding.md R89). -/
def runMove (m : Move) (s : State) : Answer :=
  match m with
  | .reset => exec .reset s
  | .pins p => movePins p s
  | .offer ev => moveOffer ev s
  | .lose => moveLose s
  | .capture codes => exec (.adcComplete codes) s
  | .captureFill v => exec (.adcComplete (List.replicate s.cfg.nsamp v)) s
  | .writeDone => exec (dacInstr s) s
  | .step => seqTurn s
  | .run =>
    match s.enabledStep with
    | some i => exec i { s with script := .run :: s.script }
    | none => .next s
  | .expect o => moveExpect o s
  | .settle c => .next { s with script := settleLines s c ++ s.script }
  | .spectralRound codes => moveSpectralRound codes s

/-- One step of a machine whose configuration is well formed: the next line of the script, or the sequencer's turn when the
script is empty. -/
def turn (s : State) : Answer :=
  match s.script with
  | [] => seqTurn s
  | m :: rest => runMove m { s with script := rest }

/-- An event word where the sequencer takes its next instruction from: offered, in `Idle`, in the event mode, and the turn is the
sequencer's. -/
def placeEvent (s : State) (ev : EventWord) : State :=
  { s.setSeq .idle with
    cfg := { s.cfg with mode := .event }, offer := some ev, script := .step :: s.script }

/-- A frame where the DAC takes its next instruction from: requested, and the turn is the DAC's. -/
def placeFrame (s : State) (fr : Frame) : State :=
  { s with dacReq := some (.a, fr), script := .writeDone :: s.script }

/-- The instruction with the bits `w`, numbered as spec/opcode_table.json numbers them, placed for the next turn: a row of at
most one byte is an event word, any other a frame. -/
def placeWord (s : State) (nbits w : Nat) : State :=
  if nbits ≤ 8 then placeEvent s (BitVec.ofNat 3 w) else placeFrame s (BitVec.ofNat 16 w)

end Sys2Proof.Machine
end

