-- ==== Sys2Proof/Machine/Step.lean ====
section
/-!
DEFINITION. One step of the machine, and where an instruction's word is placed for it.
-/

namespace Sys2Proof.Machine

/-- One atomic step of one agent (00_scope.md R8). A configuration that fails a check has no meaning (R7). -/
def step (s : State) : Host.Outcome State Fault Refusal :=
  match s.cfg.failure with
  | some check => .refused (.configuration check)
  | none => turn s

/-- The state with an instruction's word where the next step takes its instruction from (log entry 12). -/
def State.withFetchWord (s : State) (nbits w : Nat) : State := placeWord s nbits w

end Sys2Proof.Machine
end

