-- ==== Sys2Proof/Machine/Boot.lean ====
section
/-!
DEFINITION. Boot (70_reset_and_hazards.md R294, R295; 40_table_generator.md R100): fix and check the configuration, generate `FT`
then `VT`, apply RST.
-/

namespace Sys2Proof.Machine

/-- The block at power-up, before its tables are built: nothing latched, nothing offered, the selector lines at their levels. -/
def powerUp (cfg : Cfg) (pins : Degrees) : State where
  cfg := cfg
  ft := []
  vt := []
  buf := none
  seq := .idle
  mask := 0x000
  chan := ⟨ChanState.empty, ChanState.empty⟩
  adcReq := none
  adcDone := false
  dacReq := none
  dacDone := false
  status := 0x0000
  offer := none
  pins := pins
  dacOut := ⟨none, none⟩
  trace := []
  script := []
  result := none

/-- Run instructions one after another. -/
def execAll : List Instr → State → Answer
  | [], s => .next s
  | i :: rest, s =>
    match exec i s with
    | .next t => execAll rest t
    | .fault f => .fault f
    | .refused r => .refused r

/-- Boot a configuration: refused by the name of the check it fails (00_scope.md R7), otherwise the tables are generated and the
block is reset (70_reset_and_hazards.md R295). -/
def boot (cfg : Cfg) (pins : Degrees) : Answer :=
  match cfg.failure with
  | some check => .refused (.configuration check)
  | none => execAll [.genFreqTable, .genVoltTable, .reset] (powerUp cfg pins)

end Sys2Proof.Machine
end

