-- ==== Sys2Proof/Safety.lean ====
section
/-!
DEFINITION. What claims say of values and states: the real numbers the model's exact numbers stand for, the invariant of PQCORE,
the wait and the stuck states.
-/

namespace Sys2Proof

/-! ## Real numbers: what the exact rationals and cosine sums of the model stand for -/

/-- `value(x)` of a finite binary32 (00_scope.md R12), as a real number. -/
noncomputable def F32.value (x : F32) : ℝ := (x.scaled : ℝ) / 2 ^ 149

/-- The real number `sum of a * cos (2 pi m / n)`. -/
noncomputable def angleCos (n : ℕ) (ts : AngleSum) : ℝ :=
  (ts.map fun t => (t.1 : ℝ) * Real.cos (2 * Real.pi * t.2 / n)).sum

/-- The real number a power stands for (43_spectral_estimator.md R163). -/
noncomputable def Power.value (p : Power) : ℝ := angleCos p.order p.terms / p.den

/-- The complex number bin `k` of a spectrum stands for; a bin it does not hold is 0. -/
noncomputable def Spectrum.value (sp : Spectrum) (k : ℕ) : ℂ :=
  ((sp.bins.getD k []).map fun t => (t.1 : ℂ) * Complex.exp (-(2 * Real.pi * Complex.I * t.2) / sp.order)).sum / 2 ^ 149

/-- `DFT(x)[k]`, `NSAMP` the length of the block (43_spectral_estimator.md R163). -/
noncomputable def dftValue (x : List F32) (k : ℕ) : ℂ :=
  ∑ i : Fin x.length, ((x[i].value : ℝ) : ℂ) * Complex.exp (-(2 * Real.pi * Complex.I * i * k) / x.length)

/-- The exact real `(num / den) * 2^(twelfths / 12)` (40_table_generator.md R101). -/
noncomputable def SemitoneReal.value (t : SemitoneReal) : ℝ := (t.num : ℝ) / t.den * 2 ^ ((t.twelfths : ℝ) / 12)

/-- The last fraction bit of a finite value is 0 (00_scope.md R12, "ties to even"). -/
def F32.isEven : F32 → Prop
  | .nan => False
  | .inf _ => False
  | .fin _ _ f => f.getLsbD 0 = false

/-- `r` is `RNE32(q)` (00_scope.md R12): the finite value nearest to `q`, of two equally near ones the even one; from magnitude
`2^128 - 2^103` on an infinity. It says nothing of the sign of a zero. -/
def Rounds (q : ℝ) (r : F32) : Prop :=
  (|q| < 2 ^ 128 - 2 ^ 103 → r.isFinite = true ∧
    ∀ y : F32, y.isFinite = true → |r.value - q| ≤ |y.value - q| ∧
      (|r.value - q| = |y.value - q| → y.value = r.value ∨ r.isEven)) ∧
  (2 ^ 128 - 2 ^ 103 ≤ q → r = .inf false) ∧ (q ≤ -(2 ^ 128 - 2 ^ 103) → r = .inf true)

/-- A table is strictly increasing with every entry finite (00_scope.md R7). -/
def strictTable (t : List F32) : Prop :=
  (∀ x ∈ t, x.isFinite = true) ∧ ∀ i (h : i + 1 < t.length), t[i].value < t[i + 1].value

/-- Finite and above zero. -/
abbrev F32.positive (x : F32) : Prop := x.isFinite = true ∧ 0 < x.value

/-- Every field is within its legal values (00_scope.md R6, R7 `WF_RANGES`). -/
def Cfg.rangesMet (cfg : Cfg) : Prop :=
  (1 ≤ cfg.n ∧ cfg.n ≤ 65536) ∧ cfg.rootFreq.positive ∧ cfg.vps.positive ∧ (cfg.voltOffset = 0 ∨ cfg.voltOffset = 1) ∧
    (cfg.nsamp % 2 = 0 ∧ 2 ≤ cfg.nsamp ∧ cfg.nsamp ≤ 65536) ∧ cfg.sampleRateHz.positive ∧
    (cfg.sampleBits = 8 ∨ cfg.sampleBits = 16) ∧ (1 ≤ cfg.adcCodeBits ∧ cfg.adcCodeBits ≤ cfg.sampleBits) ∧
    cfg.adcVref.positive ∧ cfg.inputDivider.positive ∧ cfg.dacVmax.positive

/-- `floor(RNE32(DAC_VMAX / RNE32(DAC_VMAX / 1023))) >= 1023`, the step not zero (00_scope.md R7 `WF_DAC_FULLSCALE`; log entry
9). -/
def Cfg.fullscaleMet (cfg : Cfg) : Prop :=
  ∃ step q : F32, Rounds (cfg.dacVmax.value / 1023) step ∧ step.value ≠ 0 ∧ Rounds (cfg.dacVmax.value / step.value) q ∧
    q.isFinite = true ∧ 1023 ≤ ⌊q.value⌋

/-- The control nibble of every channel that exists fits (00_scope.md R7 `WF_CTRL`). -/
def Cfg.ctrlMet (cfg : Cfg) : Prop := cfg.dacCtrl.a < 16 ∧ (cfg.mode = .event → cfg.dacCtrl.b < 16)

/-- The steps of the sequencer (46_event_dispatcher.md R221 to R228). -/
def Instr.isSeqStep : Instr → Bool
  | .gate _ => true
  | .scale => true
  | .reserved00x _ => true
  | .reserved101 => true
  | .reserved11x _ => true
  | .freeRunTrigger => true
  | .voltagePath => true
  | .spectralPath => true
  | .writeDone => true
  | .holdDone => true
  | _ => false

end Sys2Proof

namespace Sys2Proof.Machine

/-- The tables hold their generated contents (10_state.md R29). -/
abbrev State.tablesGenerated (s : State) : Prop := s.ft = freqTable s.cfg ∧ s.vt = voltTable s.cfg

/-- A list of codes is a whole buffer: `NSAMP` codes of `SAMPLE_BITS` bits (20_memory.md R62). -/
abbrev wholeBuffer (cfg : Cfg) (codes : List Nat) : Prop :=
  codes.length = cfg.nsamp ∧ codes.all (fun d => decide (d < 2 ^ cfg.sampleBits)) = true

/-- `buf` holds no value or a whole buffer (20_memory.md R62). -/
def State.bufferWhole (s : State) : Prop := ∀ codes, s.buf = some codes → wholeBuffer s.cfg codes

/-- No request and no completion is outstanding (10_state.md R24). -/
abbrev State.handshakesClear (s : State) : Prop :=
  s.adcReq = none ∧ s.adcDone = false ∧ s.dacReq = none ∧ s.dacDone = false

/-- The handshake registers agree with `seq` (10_state.md R24): in `Sampling(c)` the capture is either requested, on the input of
`c`, or complete, with `buf` delivered; in `Emitting(c, some v)` the frame of `v` is either requested or latched; elsewhere all
four are clear. The channel exists. -/
def State.handshakesAgree (s : State) : Prop :=
  match s.seq with
  | .idle => s.handshakesClear
  | .sampling c =>
    s.cfg.hasChannel c = true ∧ s.dacReq = none ∧ s.dacDone = false ∧
      ((s.adcReq = some (s.cfg.adcInput.get c) ∧ s.adcDone = false) ∨
        (s.adcReq = none ∧ s.adcDone = true ∧ s.buf.isSome = true))
  | .emitting c (some v) =>
    s.cfg.hasChannel c = true ∧ s.adcReq = none ∧ s.adcDone = false ∧
      ((∃ fr, encodeVoltage s.cfg c v = some fr ∧ s.dacReq = some (c, fr) ∧ s.dacDone = false) ∨
        (s.dacReq = none ∧ s.dacDone = true))
  | .emitting c none => s.cfg.hasChannel c = true ∧ s.handshakesClear

/-- `STATUS` agrees with `seq`, its reserved bits read 0 and `LAST` is one of its five values (10_state.md R27, 30_encoding.md
R86). -/
abbrev State.statusAgrees (s : State) : Prop :=
  statusState s.status = s.seq.code ∧ statusReserved s.status = 0 ∧ (statusLast s.status).toNat ≤ 4 ∧
    (s.seq.channel = none ∨ s.seq.channel = some (Chan.ofBit (statusCh s.status)))

/-- `lastVoltage` has a value exactly when `lastValid` (10_state.md R22). -/
abbrev ChanState.agrees (c : ChanState) : Prop := c.lastValid = c.lastVoltage.isSome

/-- The pad bits of a frame are `00` (30_encoding.md R86). -/
abbrev framePadClear (fr : Frame) : Prop := fr.extractLsb' 0 2 = 0

/-- The last frame of a channel in a trace. -/
def lastFrame (t : List (Chan × Frame)) (c : Chan) : Option Frame :=
  ((t.filter fun x => decide (x.1 = c)).getLast?).map Prod.snd

/-- `dacOut[c]` is the last frame of `c` in `trace`, and every frame latched is well formed (10_state.md R31, 60_exceptions.md
R278). -/
def State.outputsAgree (s : State) : Prop :=
  (∀ c, s.dacOut.get c = lastFrame s.trace c) ∧ ∀ x ∈ s.trace, framePadClear x.2

/-- In the spectral mode no word is ever offered (46_event_dispatcher.md R233). -/
abbrev State.sourcesQuiet (s : State) : Prop := s.cfg.mode = .spectral → s.offer = none

/-- The invariant of PQCORE: it holds after reset and every step keeps it. -/
def State.Inv (s : State) : Prop :=
  s.tablesGenerated ∧ s.bufferWhole ∧ s.handshakesAgree ∧ s.statusAgrees ∧
    (s.chan.a.agrees ∧ s.chan.b.agrees) ∧ s.outputsAgree ∧ s.sourcesQuiet

/-- The wait state of the event mode (60_exceptions.md R272). -/
abbrev State.waiting (s : State) : Prop := s.cfg.mode = .event ∧ s.seq = .idle ∧ s.offer = none

/-- A request is outstanding, so the sequencer waits for a collaborator, and is stuck if it never completes
(70_reset_and_hazards.md R304). -/
def State.blocked (s : State) : Prop :=
  (∃ c, s.seq = .sampling c ∧ s.adcReq.isSome = true ∧ s.adcDone = false) ∨
    (∃ c v, s.seq = .emitting c (some v) ∧ s.dacReq.isSome = true ∧ s.dacDone = false)

/-- `STATUS` with the reserved bits as they are and the other fields as given (10_state.md R27). -/
abbrev State.statusWith (s : State) (numeric illegalEvent : Bool) (last : BitVec 3) (ch : Bool) (state : BitVec 2) :
    BitVec 16 :=
  statusWord (statusReserved s.status) numeric illegalEvent last ch state

/-- The sequencer has the turn: the script is empty, or its first line is `STEP` or `RUN` (30_encoding.md R89). -/
abbrev State.seqHasTurn (s : State) : Prop :=
  s.script = [] ∨ s.script.head? = some .step ∨ s.script.head? = some .run

/-- A line that completes a capture (30_encoding.md R89). -/
def Move.isCapture : Move → Bool
  | .capture _ => true
  | .captureFill _ => true
  | _ => false

/-- Run steps one after another, stopping at the first stop. -/
abbrev runSteps (k : Nat) (s : State) : Answer := Host.Core.run Sys2Proof.core k s

/-- A fault is recorded: a claim that assumes no fault fails on such a state (00_scope.md R14). -/
abbrev State.faultRecorded (s : State) : Prop :=
  statusIllegalEvent s.status = true ∨ statusNumeric s.status = true

end Sys2Proof.Machine
end

