-- ==== Sys2Proof/Certificates/Slice0/Obligations.lean ====
section
/-!
DEFINITION. The statements for the provers. A statement about an instruction writes its next state out as an update of the
state before, so that it states the frame too: every field not named keeps its value.
-/

open Sys2Proof Sys2Proof.Machine

/-! ## Encodings -/

/-- 30_encoding.md R81. The eight words of the opcode map, each decoded to the row it selects, and the port: outside
`MODE = EVENT` and `seq = Idle` a word has no effect. -/
def Obligations.OpcodeMapDecodes : Prop :=
  (∀ ev : EventWord, (ev &&& 0b110 = 0b010 → decode (.event ev) = .ok (.gate (Chan.ofBit (ev.getLsbD 0)))) ∧
    (ev = 0b100 → decode (.event ev) = .ok .scale) ∧
    (ev = 0b000 ∨ ev = 0b001 → decode (.event ev) = .ok (.reserved00x (ev.getLsbD 0))) ∧
    (ev = 0b101 → decode (.event ev) = .ok .reserved101) ∧
    (ev = 0b110 ∨ ev = 0b111 → decode (.event ev) = .ok (.reserved11x (ev.getLsbD 0)))) ∧
  ∀ (s : State) (ev : EventWord) (i : Instr), ¬(s.cfg.mode = .event ∧ s.seq = .idle) → decode (.event ev) = .ok i →
    exec i s = .next s

/-- 30_encoding.md R81, R85, 45_dac_codec.md R205, R206. Words written out from the tables decode to what they stand for. -/
def Obligations.WrittenOutWordsDecode : Prop :=
  decode (.event 0b010) = .ok (.gate .a) ∧ decode (.event 0b011) = .ok (.gate .b) ∧ decode (.event 0b100) = .ok .scale ∧
    decode (.event 0b101) = .ok .reserved101 ∧ decode (.frame 0b0011011001100100) = .ok (.dacFrame 3 409) ∧
    wireBytes 0x3664 = [0x36, 0x64] ∧ decodeWire [0x36, 0x64] = .ok (.dacFrame 3 409)

/-- 30_encoding.md R81, R85. Decoding an encoded instruction gives it back, with every operand at every value. -/
def Obligations.EncodedWordsDecodeBack : Prop :=
  ∀ (i : Instr) (w : Code), i.wf = true → encode i = some w →
    decode w = .ok i ∧ ∀ fr, w = .frame fr → decodeWire (wireBytes fr) = .ok i

/-- 30_encoding.md R81, R86. A word that decodes is the word of the instruction it decodes to, that instruction is well formed,
every event word decodes, and a frame decodes exactly when its pad bits are `00`. -/
def Obligations.DecodedWordsEncodeBack : Prop :=
  (∀ (w : Code) (i : Instr), decode w = .ok i → encode i = some w ∧ i.wf = true) ∧
    (∀ ev, ∃ i, decode (.event ev) = .ok i) ∧
    ∀ fr : Frame, (∃ i, decode (.frame fr) = .ok i) ↔ fr.extractLsb' 0 2 = 0

/-- 46_event_dispatcher.md R220, 60_exceptions.md R278. A step runs exactly the decoded instruction: an offered word in `Idle`, the
requested frame on a `WRITEDONE` line, any enabled step on an empty script, and a word placed by `withFetchWord`. Around `exec`
the step only takes the line off the script. Three readings are the model's: the script and the sequencer's turn on an empty one
(log entry 2), the word placed by `withFetchWord` (log entry 12), and the frame a `WRITEDONE` line runs as `DAC_FRAME` (log entry
13). -/
def Obligations.StepRunsDecodedWord : Prop :=
  (∀ (s : State) (ev : EventWord) (i : Instr), s.cfg.wf = true → s.cfg.mode = .event → s.seq = .idle →
    s.offer = some ev → decode (.event ev) = .ok i →
      (s.script = [] → step s = exec i s) ∧
      ∀ rest, s.script = .step :: rest → step s = exec i { s with script := rest }) ∧
  (∀ (s : State) (c : Chan) (fr : Frame) (i : Instr) (rest : List Move), s.cfg.wf = true → s.dacReq = some (c, fr) →
    s.script = .writeDone :: rest → decode (.frame fr) = .ok i → step s = exec i { s with script := rest }) ∧
  (∀ (s : State) (i : Instr), s.cfg.wf = true → s.script = [] → s.enabledStep = some i → step s = exec i s) ∧
  ∀ (s : State) (nbits w : Nat) (i : Instr), (s.withFetchWord nbits w).cfg.wf = true → decodeTableWord nbits w = some i →
    step (s.withFetchWord nbits w) = exec i { s.withFetchWord nbits w with script := s.script }

/-! ## Configuration -/

/-- 00_scope.md R7. A step goes on or faults only where every check holds, and where every check holds no step is refused for its
configuration. The checks are stated over the real values of the fields; the fourth reads a step rounded to zero as a failure,
which is the model's choice (log entry 9). -/
def Obligations.IllFormedConfigurationRefused : Prop :=
  ∀ s : State, ((∀ check, step s ≠ .refused (.configuration check)) ↔
    s.cfg.rangesMet ∧ strictTable (freqTable s.cfg) ∧ strictTable (voltTable s.cfg) ∧ s.cfg.fullscaleMet ∧ s.cfg.ctrlMet)

/-! ## Binary32 -/

/-- 00_scope.md R12. `RNE32` of a rational is the nearest binary32, ties to even, an infinity from the threshold on; each operation
on finite operands is the rounding of the exact result; an integer converts by the same rounding, exactly up to `2^24`. -/
def Obligations.OperationsRoundOnce : Prop :=
  (∀ (n : Int) (d : Nat), 0 < d → Rounds ((n : ℝ) / d) (rne32 n d)) ∧
  (∀ x y : F32, x.isFinite = true → y.isFinite = true →
    Rounds (x.value + y.value) (x.add y) ∧ Rounds (x.value - y.value) (x.sub y) ∧ Rounds (x.value * y.value) (x.mul y) ∧
      (y.value ≠ 0 → Rounds (x.value / y.value) (x.div y))) ∧
  ∀ k : Nat, Rounds (k : ℝ) (F32.ofNat k) ∧ (k ≤ 2 ^ 24 → (F32.ofNat k).value = k)

/-- 00_scope.md R12. Comparisons: false on a NaN, the order of the reals on finite values (so the zeros are equal), infinities
beyond every finite value. -/
def Obligations.ComparisonsAreIeee : Prop :=
  (∀ x y : F32, x.isNaN = true ∨ y.isNaN = true → x.lt y = false ∧ x.le y = false ∧ x.eq y = false) ∧
  (∀ x y : F32, x.isFinite = true → y.isFinite = true →
    (x.lt y = true ↔ x.value < y.value) ∧ (x.le y = true ↔ x.value ≤ y.value) ∧ (x.eq y = true ↔ x.value = y.value)) ∧
  (∀ x : F32, x.isFinite = true → (F32.inf true).lt x = true ∧ x.lt (.inf false) = true ∧ (F32.inf false).le x = false ∧
    x.le (.inf true) = false ∧ x.eq (.inf true) = false ∧ x.eq (.inf false) = false) ∧
  (F32.inf true).lt (.inf false) = true ∧ (F32.inf true).eq (.inf true) = true ∧ (F32.inf false).eq (.inf false) = true

/-! ## TableGenerator -/

/-- 40_table_generator.md R102. `ROUND_DEC3` of an exact real, in thousandths: ties away from zero. -/
def Obligations.RoundDec3RoundsAway : Prop :=
  ∀ (s : State) (t : SemitoneReal), 0 < t.den → ∃ d : Int,
    exec (.roundDec3 t) s = .next { s with result := some (.decimal d) } ∧
      (0 ≤ t.value → d = ⌊|t.value| * 1000 + 1 / 2⌋) ∧ (t.value < 0 → d = -⌊|t.value| * 1000 + 1 / 2⌋)

/-- 40_table_generator.md R101. `GEN_FREQ_TABLE` writes `FT`, of length `N`: each entry is the binary32 rounding of the decimal
rounding of the exact real `value(ROOT_FREQ) * 2^(i/12)`. -/
def Obligations.FrequencyTableGenerated : Prop :=
  ∀ s : State, s.cfg.rangesMet → ∃ t : List F32, exec .genFreqTable s = .next { s with ft := t } ∧ t.length = s.cfg.n ∧
    ∀ i (h : i < t.length),
      Rounds ((⌊s.cfg.rootFreq.value * (2 : ℝ) ^ ((i : ℝ) / 12) * 1000 + 1 / 2⌋ : ℝ) / 1000) t[i]

/-- 40_table_generator.md R103. `GEN_VOLT_TABLE` writes `VT`, of length `N`: one rounding of `value(VPS) * (i + VOLT_OFFSET)`. -/
def Obligations.VoltageTableGenerated : Prop :=
  ∀ s : State, s.cfg.rangesMet → ∃ t : List F32, exec .genVoltTable s = .next { s with vt := t } ∧ t.length = s.cfg.n ∧
    ∀ i (h : i < t.length), Rounds (s.cfg.vps.value * ((i : ℝ) + s.cfg.voltOffset)) t[i] ∧
      (i = 0 → s.cfg.voltOffset = 0 → t[i] = F32.zero) ∧ (i = 0 → s.cfg.voltOffset = 1 → t[i] = s.cfg.vps)

/-- 40_table_generator.md R105. `INDEX_TO_VOLTAGE(j)` gives `VT[j]` for every `j < N` and writes no state. -/
def Obligations.IndexToVoltageReadsTable : Prop :=
  ∀ (s : State) (j : Nat), s.tablesGenerated → j < s.cfg.n → ∃ v, s.vt[j]? = some v ∧
    exec (.indexToVoltage j) s = .next { s with result := some (.vo v) }

/-! ## Quantizer -/

/-- 41_quantizer.md R121. The result law of `QUANTIZE_FLOOR`, over both tables. -/
def Obligations.QuantizeFloorResult : Prop :=
  ∀ (s : State) (x : F32) (T : Table), s.cfg.wf = true → s.tablesGenerated →
    ∃ i, exec (.quantizeFloor x T) s = .next { s with result := some (.qi i) } ∧ i ≤ s.cfg.n - 1 ∧
      (x.isNaN = true → i = 0) ∧
      (x.isNaN = false →
        (∀ lo, (s.table T)[0]? = some lo → x.le lo = true → i = 0) ∧
        (∀ hi, (s.table T)[s.cfg.n - 1]? = some hi → hi.le x = true → i = s.cfg.n - 1) ∧
        (∀ lo hi, (s.table T)[0]? = some lo → (s.table T)[s.cfg.n - 1]? = some hi → lo.lt x = true → x.lt hi = true →
          ∀ k, k = i ↔ ∃ a b, (s.table T)[k]? = some a ∧ (s.table T)[k + 1]? = some b ∧ a.le x = true ∧ x.lt b = true))

/-- 40_table_generator.md R106. The map `f -> VT[QUANTIZE_FLOOR(f, FT)]` never decreases, and is constant between two entries of
`FT`. -/
def Obligations.FrequencyToVoltageMonotone : Prop :=
  ∀ s : State, s.cfg.wf = true → s.tablesGenerated → ∃ volt : F32 → F32,
    (∀ f, f.isNaN = false → ∃ i, exec (.quantizeFloor f .ft) s = .next { s with result := some (.qi i) } ∧
      exec (.indexToVoltage i) s = .next { s with result := some (.vo (volt f)) }) ∧
    (∀ f g, f.isNaN = false → g.isNaN = false → f.le g = true → (volt f).le (volt g) = true) ∧
    ∀ f g i lo hi, s.ft[i]? = some lo → s.ft[i + 1]? = some hi → lo.le f = true → f.lt hi = true → lo.le g = true →
      g.lt hi = true → volt f = volt g

/-! ## ScaleCorrector -/

/-- 42_scale_corrector.md R141. The result law of `CORRECT`. -/
def Obligations.CorrectResult : Prop :=
  ∀ (s : State) (index j : Nat), index < s.cfg.n →
    exec (.correct index) s = .next { s with result := some (.cr (.some j)) } →
      (0 ≤ j ∧ j ≤ index ∧ j < s.cfg.n) ∧ index - j ≤ 11 ∧
        (s.mask.getLsbD (j % 12) = true ∨ (j = 0 ∧ index = 0)) ∧
        ∀ p, j < p → p < index → s.mask.getLsbD (p % 12) = false

/-- 42_scale_corrector.md R142. The closed form of `CORRECT`, with the Euclidean remainder. -/
def Obligations.CorrectClosedForm : Prop :=
  ∀ (s : State) (index : Nat),
    (0 < index → s.mask ≠ 0x000 → ∃ d : Nat, d ≤ 11 ∧ s.mask.getLsbD (((index : Int) - d) % 12).toNat = true ∧
      (∀ e : Nat, e < d → s.mask.getLsbD (((index : Int) - e) % 12).toNat = false) ∧
      exec (.correct index) s =
        .next { s with result := some (.cr (if d ≤ index then .some (index - d) else .noneBelow)) }) ∧
    (0 < index → s.mask = 0x000 → exec (.correct index) s = .next { s with result := some (.cr .noneEmpty) }) ∧
    (index = 0 → exec (.correct index) s = .next { s with result := some (.cr (.some 0)) })

/-- 42_scale_corrector.md R143. The source's testable properties of `CORRECT`. -/
def Obligations.CorrectTestableProperties : Prop :=
  ∀ (s : State) (index : Nat), index < s.cfg.n →
    (s.mask = 0xFFF → exec (.correct index) s = .next { s with result := some (.cr (.some index)) }) ∧
    (s.mask.getLsbD (index % 12) = true ∨ index = 0 →
      exec (.correct index) s = .next { s with result := some (.cr (.some index)) }) ∧
    (s.mask = 0x000 → 0 < index → exec (.correct index) s = .next { s with result := some (.cr .noneEmpty) }) ∧
    (s.mask = 0x001 → index = 7 → exec (.correct index) s = .next { s with result := some (.cr (.some 0)) })

/-! ## SpectralPitchEstimator -/

/-- 43_spectral_estimator.md R160. `MEAN`: the exact mean rounded once, within the range of the codes; exact on a constant buffer,
`+0.0` on zeros. -/
def Obligations.MeanRoundsOnce : Prop :=
  ∀ (s : State) (codes : List Nat), s.cfg.wf = true → s.buf = some codes → wholeBuffer s.cfg codes →
    ∃ m, exec .mean s = .next { s with result := some (.mean m) } ∧ Rounds ((codes.sum : ℝ) / s.cfg.nsamp) m ∧
      m.isFinite = true ∧ 0 ≤ m.value ∧ m.value ≤ 2 ^ s.cfg.sampleBits - 1 ∧
      (∀ v, (∀ d ∈ codes, d = v) → m.value = v) ∧ ((∀ d ∈ codes, d = 0) → m = F32.zero)

/-- 43_spectral_estimator.md R161. `DC_FILTER`: one rounded subtraction of the mean per sample; `+0.0` throughout on a constant
buffer. -/
def Obligations.DcFilterSubtractsMean : Prop :=
  ∀ (s : State) (codes : List Nat), s.cfg.wf = true → s.buf = some codes → wholeBuffer s.cfg codes →
    ∃ m x, exec .mean s = .next { s with result := some (.mean m) } ∧
      exec .dcFilter s = .next { s with result := some (.samples x) } ∧ x.length = s.cfg.nsamp ∧
      (∀ (i d : Nat) (y : F32), codes[i]? = some d → x[i]? = some y →
        Rounds ((d : ℝ) - m.value) y ∧ y.isFinite = true ∧ |y.value| ≤ 2 ^ s.cfg.sampleBits - 1) ∧
      ∀ v, (∀ d ∈ codes, d = v) → ∀ y ∈ x, y = F32.zero

/-- 43_spectral_estimator.md R163. `DFT(x)` holds the bins `0 .. NSAMP/2`, each the exact sum. That `NSAMP` is the block's length is
the model's choice for a block of another length (log entry 19). -/
def Obligations.DftIsExact : Prop :=
  ∀ (s : State) (x : List F32), (Instr.dft x).wf = true →
    ∃ sp, exec (.dft x) s = .next { s with result := some (.spectrum sp) } ∧ sp.bins.length = x.length / 2 + 1 ∧
      ∀ k ≤ x.length / 2, sp.value k = dftValue x k

/-- 43_spectral_estimator.md R163. Under the reference, `BIN_POWER(x)[k]` is the exact squared magnitude of `DFT(x)[k]`, `NSAMP` being
the block's length (log entry 19). -/
def Obligations.ReferencePowerIsSquaredMagnitude : Prop :=
  ∀ (s : State) (x : List F32), (Instr.binPower x).wf = true → s.cfg.fftPower = .reference →
    ∃ p, exec (.binPower x) s = .next { s with result := some (.powers p) } ∧ p.length = x.length / 2 ∧
      ∀ k (h : k < p.length), p[k].wf = true ∧
        p[k].value = (dftValue x k).re ^ 2 + (dftValue x k).im ^ 2

/-- 43_spectral_estimator.md R163. A declared `FFT_POWER` conforms, whatever its free values are (log entry 6), `NSAMP` being the
block's length (log entry 19). -/
def Obligations.DeclaredPowerConforms : Prop :=
  ∀ (s : State) (x : List F32) (id : Nat), (Instr.binPower x).wf = true → s.cfg.fftPower = .declared id →
    ∃ p, exec (.binPower x) s = .next { s with result := some (.powers p) } ∧ p.length = x.length / 2 ∧
      ∀ k (h : k < p.length), p[k].wf = true ∧ 0 ≤ p[k].value ∧ ((∀ y ∈ x, y.value = 0) → p[k].value = 0)

/-- 43_spectral_estimator.md R164. `PEAK_BIN` is the first bin of greatest power, as real numbers. For a list of another length than
`NSAMP/2` this is the model's choice (log entry 19). -/
def Obligations.PeakIsFirstMaximum : Prop :=
  ∀ (s : State) (p : List Power), (Instr.peakBin p).wf = true →
    ∃ k, exec (.peakBin p) s = .next { s with result := some (.bin k) } ∧ ∃ h : k < p.length,
      (∀ j (hj : j < p.length), p[j].value ≤ p[k].value) ∧ ∀ j (hj : j < k), p[j].value < p[k].value

/-- 43_spectral_estimator.md R165. `BIN_TO_HZ`: a rounded product, then a rounded quotient; an overflow gives an infinity; never
NaN. -/
def Obligations.BinToHzRoundsTwice : Prop :=
  ∀ (s : State) (k : Nat), s.cfg.rangesMet → 2 * k < s.cfg.nsamp →
    ∃ g f, Rounds ((k : ℝ) * s.cfg.sampleRateHz.value) g ∧
      exec (.binToHz k) s = .next { s with result := some (.hz f) } ∧ f.isNaN = false ∧
      (g.isFinite = true → Rounds (g.value / s.cfg.nsamp) f) ∧ (g = .inf false → f = .inf false) ∧ (k = 0 → f = F32.zero)

/-- 43_spectral_estimator.md R166. `ESTIMATE` is the composition of the four operations. -/
def Obligations.EstimateComposes : Prop :=
  ∀ (s : State) (codes : List Nat), s.cfg.wf = true → s.buf = some codes → wholeBuffer s.cfg codes →
    ∃ x p k f, exec .dcFilter s = .next { s with result := some (.samples x) } ∧
      exec (.binPower x) s = .next { s with result := some (.powers p) } ∧
      exec (.peakBin p) s = .next { s with result := some (.bin k) } ∧
      exec (.binToHz k) s = .next { s with result := some (.hz f) } ∧
      exec .estimate s = .next { s with result := some (.xv f) } ∧ f.isNaN = false

/-- 43_spectral_estimator.md R167. A constant buffer gives `+0.0` Hz under every `FFT_POWER`, which quantizes to index 0; under the
reference so does a buffer that alternates between two codes. -/
def Obligations.DegenerateBuffersGiveZeroHz : Prop :=
  ∀ (s : State) (codes : List Nat), s.cfg.wf = true → s.tablesGenerated → s.buf = some codes → wholeBuffer s.cfg codes →
    ((∃ v, ∀ d ∈ codes, d = v) → exec .estimate s = .next { s with result := some (.xv F32.zero) }) ∧
    (s.cfg.fftPower = .reference → (∃ u w, ∀ (i d : Nat), codes[i]? = some d → d = if i % 2 = 0 then u else w) →
      exec .estimate s = .next { s with result := some (.xv F32.zero) }) ∧
    exec (.quantizeFloor F32.zero .ft) s = .next { s with result := some (.qi 0) }

/-! ## SampleAverager -/

/-- 44_sample_averager.md R180. `AVERAGE_VOLTAGE`: mean, quotient, scale and product, each rounded once in the written order. -/
def Obligations.AverageVoltageRoundsInOrder : Prop :=
  ∀ (s : State) (codes : List Nat), s.cfg.wf = true → s.buf = some codes → wholeBuffer s.cfg codes →
    ∃ mean t0 scale v, exec .mean s = .next { s with result := some (.mean mean) } ∧
      Rounds (mean.value / s.cfg.inputDivider.value) t0 ∧ Rounds (s.cfg.adcVref.value / 2 ^ s.cfg.adcCodeBits) scale ∧
      exec .averageVoltage s = .next { s with result := some (.xv v) } ∧ v = t0.mul scale ∧
      (t0.isFinite = true → Rounds (t0.value * scale.value) v)

/-- 44_sample_averager.md R181. Corner cases of `AVERAGE_VOLTAGE`: never negative, NaN only from an infinite quotient and a zero
scale, `+0.0` on zeros, a constant code's own voltage. -/
def Obligations.AverageVoltageCorners : Prop :=
  ∀ (s : State) (codes : List Nat), s.cfg.wf = true → s.buf = some codes → wholeBuffer s.cfg codes →
    ∃ v, exec .averageVoltage s = .next { s with result := some (.xv v) } ∧
      (v.isNaN = false → F32.zero.le v = true) ∧
      (v.isNaN = true → s.cfg.inputDivider.value < (2 : ℝ) ^ (-112 : ℤ) ∧
        s.cfg.adcVref.value ≤ (2 : ℝ) ^ ((s.cfg.adcCodeBits : ℤ) - 150)) ∧
      ((∀ d ∈ codes, d = 0) → v = F32.zero) ∧
      ∀ d, (∀ e ∈ codes, e = d) →
        v = ((F32.ofNat d).div s.cfg.inputDivider).mul (s.cfg.adcVref.div (F32.ofNat (2 ^ s.cfg.adcCodeBits)))

/-! ## DacCodec -/

/-- 45_dac_codec.md R200. `CLAMP`: to `[0, DAC_VMAX]`; a NaN is the fault `NUMERIC` with `LAST = FAULTED`, and no result. -/
def Obligations.ClampLimits : Prop :=
  ∀ (s : State) (v : F32), s.cfg.rangesMet →
    (v.le F32.zero = true → exec (.clamp v) s = .next { s with result := some (.clamped F32.zero) }) ∧
    (s.cfg.dacVmax.le v = true → exec (.clamp v) s = .next { s with result := some (.clamped s.cfg.dacVmax) }) ∧
    (F32.zero.lt v = true → v.lt s.cfg.dacVmax = true → exec (.clamp v) s = .next { s with result := some (.clamped v) }) ∧
    (v.isNaN = true → exec (.clamp v) s = .next { s with
      status := s.statusWith true (statusIllegalEvent s.status) 0b100 (statusCh s.status) (statusState s.status)
      result := none })

/-- 45_dac_codec.md R201. `V2CODE`: the floor of the rounded quotient by the rounded step, at most 1023. -/
def Obligations.VoltageToCodeFloors : Prop :=
  ∀ (s : State) (vc : F32), s.cfg.wf = true → vc.isFinite = true → vc.isNeg = false → vc.le s.cfg.dacVmax = true →
    ∃ stepV q d, Rounds (s.cfg.dacVmax.value / 1023) stepV ∧ 0 < stepV.value ∧ Rounds (vc.value / stepV.value) q ∧
      q.isFinite = true ∧ exec (.v2code vc) s = .next { s with result := some (.code d) } ∧
      (d.toNat : Int) = min ⌊q.value⌋ 1023 ∧ (vc = F32.zero → d = 0) ∧ (vc = s.cfg.dacVmax → d = 1023)

/-- 45_dac_codec.md R202, R203. The codec's range and order: a higher voltage never has a lower code, none at or below zero has any
code but 0, and every voltage from `DAC_VMAX` on, infinity included, has the code 1023. -/
def Obligations.CodecIsMonotone : Prop :=
  ∀ (s : State) (v w : F32), s.cfg.wf = true → v.le w = true →
    ∃ vc wc d e, exec (.clamp v) s = .next { s with result := some (.clamped vc) } ∧
      exec (.clamp w) s = .next { s with result := some (.clamped wc) } ∧ vc.le wc = true ∧
      exec (.v2code vc) s = .next { s with result := some (.code d) } ∧
      exec (.v2code wc) s = .next { s with result := some (.code e) } ∧ d.toNat ≤ e.toNat ∧ e.toNat ≤ 1023 ∧
      (v.le F32.zero = true → d = 0) ∧ (s.cfg.dacVmax.le v = true → d = 1023)

/-- 45_dac_codec.md R204. The round trip through the code is within one step and its roundings. Two premises are the model's: the
step is a normal binary32 and the decoded value is finite; without them the rule's bound fails. -/
def Obligations.CodecRoundTrips : Prop :=
  ∀ (s : State) (v stepV : F32), s.cfg.wf = true → v.isFinite = true → 0 ≤ v.value → v.value ≤ s.cfg.dacVmax.value →
    stepV = s.cfg.dacVmax.div (F32.ofNat 1023) → (2 : ℝ) ^ (-126 : ℤ) ≤ stepV.value →
    ∃ vc d, exec (.clamp v) s = .next { s with result := some (.clamped vc) } ∧
      exec (.v2code vc) s = .next { s with result := some (.code d) } ∧
      Rounds ((d.toNat : ℝ) * stepV.value) (decodeCode s.cfg d) ∧
      ((decodeCode s.cfg d).isFinite = true →
        |(decodeCode s.cfg d).value - v.value| < stepV.value * (1 + (2 : ℝ) ^ (-13 : ℤ)))

/-- 45_dac_codec.md R205. `PACK_FRAME`: control nibble, code, pad. -/
def Obligations.PackFrameFields : Prop :=
  ∀ (s : State) (c : Chan) (code : DacCode), s.cfg.wf = true → s.cfg.hasChannel c = true →
    ∃ fr : Frame, exec (.packFrame c code) s = .next { s with result := some (.fr fr) } ∧
      (fr.extractLsb' 12 4).toNat = s.cfg.dacCtrl.get c ∧ fr.extractLsb' 2 10 = code ∧ fr.extractLsb' 0 2 = 0

/-- 45_dac_codec.md R207. `ENCODE` is the composition of the three operations; on a NaN it ends as `CLAMP` does. -/
def Obligations.EncodeComposes : Prop :=
  ∀ (s : State) (c : Chan) (v : F32), s.cfg.wf = true → s.cfg.hasChannel c = true →
    (v.isNaN = false → ∃ vc d fr, exec (.clamp v) s = .next { s with result := some (.clamped vc) } ∧
      exec (.v2code vc) s = .next { s with result := some (.code d) } ∧
      exec (.packFrame c d) s = .next { s with result := some (.fr fr) } ∧
      exec (.encodeVoltage c v) s = .next { s with result := some (.fr fr) }) ∧
    (v.isNaN = true → exec (.encodeVoltage c v) s = exec (.clamp v) s)

/-- 20_memory.md R61, 10_state.md R30, 00_scope.md R6, 60_exceptions.md R281. Where a unit operation stops by name: an index outside
the table, a buffer without a value, a channel that does not exist, a frame that is not the one requested. The last two refusals are the
model's (log entries 14 and 13). -/
def Obligations.StopsOutsideDomain : Prop :=
  (∀ (s : State) (j : Nat), s.vt.length ≤ j → exec (.indexToVoltage j) s = .fault .tableRange) ∧
  (∀ s : State, s.buf = none → exec .mean s = .fault .bufferNoValue ∧ exec .dcFilter s = .fault .bufferNoValue ∧
    exec .estimate s = .fault .bufferNoValue ∧ exec .averageVoltage s = .fault .bufferNoValue) ∧
  (∀ (s : State) (code : DacCode) (v : F32), s.cfg.mode = .spectral →
    exec (.packFrame .b code) s = .refused .noSuchChannel ∧ exec (.encodeVoltage .b v) s = .refused .noSuchChannel) ∧
  ∀ (s : State) (ctrl : BitVec 4) (code : DacCode), (∀ c, s.dacReq ≠ some (c, packBits ctrl code)) →
    exec (.dacFrame ctrl code) s = .refused .frameNotRequested

/-! ## EventDispatcher -/

/-- 46_event_dispatcher.md R221. `ACCEPT_GATE`. -/
def Obligations.GateAccepted : Prop :=
  ∀ (s : State) (ev : EventWord) (c : Chan), s.cfg.mode = .event → s.seq = .idle → s.offer = some ev →
    ev &&& 0b110 = 0b010 → c = Chan.ofBit (ev.getLsbD 0) →
      exec (.gate c) s = .next { s with
        offer := none
        seq := .sampling c
        adcReq := some (s.cfg.adcInput.get c)
        status := s.statusWith (statusNumeric s.status) (statusIllegalEvent s.status) (statusLast s.status) c.bit 0b01 }

/-- 46_event_dispatcher.md R222, 30_encoding.md R82. `ACCEPT_SCALE`: bit `i` of the mask is set exactly when line `i` is low now. -/
def Obligations.ScaleAccepted : Prop :=
  ∀ s : State, s.cfg.mode = .event → s.seq = .idle → s.offer = some 0b100 →
    ∃ m : Degrees, exec .scale s = .next { s with offer := none, mask := m } ∧
      ∀ i < 12, m.getLsbD i = !s.pins.getLsbD i

/-- 46_event_dispatcher.md R223. `ACCEPT_RESERVED`, for each of the five reserved words. -/
def Obligations.ReservedWordFaults : Prop :=
  ∀ (s t : State) (x : Bool), s.cfg.mode = .event → s.seq = .idle →
    t = { s with
      offer := none
      status := s.statusWith (statusNumeric s.status) true (statusLast s.status) (statusCh s.status) (statusState s.status) } →
    (s.offer = some ((0b00 : BitVec 2) ++ BitVec.ofBool x) → exec (.reserved00x x) s = .next t) ∧
    (s.offer = some 0b101 → exec .reserved101 s = .next t) ∧
    (s.offer = some ((0b11 : BitVec 2) ++ BitVec.ofBool x) → exec (.reserved11x x) s = .next t)

/-- 46_event_dispatcher.md R224. `FREE_RUN_TRIGGER`. -/
def Obligations.FreeRunTriggers : Prop :=
  ∀ s : State, s.cfg.mode = .spectral → s.seq = .idle →
    exec .freeRunTrigger s = .next { s with
      seq := .sampling .a
      adcReq := some s.cfg.adcInput.a
      status := s.statusWith (statusNumeric s.status) (statusIllegalEvent s.status) (statusLast s.status) false 0b01 }

/-- 46_event_dispatcher.md R225. `VOLTAGE_PATH` runs averager, quantizer, corrector, table and codec, each as the operation on its
own does, and commits the outcome. -/
def Obligations.VoltagePathCommits : Prop :=
  ∀ (s : State) (c : Chan), s.cfg.wf = true → s.Inv → s.cfg.mode = .event → s.seq = .sampling c → s.adcDone = true →
    ∃ xv, exec .averageVoltage s = .next { s with result := some (.xv xv) } ∧
      (xv.isNaN = true → exec .voltagePath s = .next { s with
        adcDone := false
        seq := .emitting c none
        status := s.statusWith true (statusIllegalEvent s.status) 0b100 (statusCh s.status) 0b10 }) ∧
      (xv.isNaN = false → ∃ qi cr, exec (.quantizeFloor xv .vt) s = .next { s with result := some (.qi qi) } ∧
        exec (.correct qi) s = .next { s with result := some (.cr cr) } ∧
        (∀ j, cr = .some j → ∃ vo fr, exec (.indexToVoltage j) s = .next { s with result := some (.vo vo) } ∧
          exec (.encodeVoltage c vo) s = .next { s with result := some (.fr fr) } ∧
          exec .voltagePath s = .next { s with
            adcDone := false
            dacReq := some (c, fr)
            seq := .emitting c (some vo)
            status := s.statusWith (statusNumeric s.status) (statusIllegalEvent s.status) (statusLast s.status)
              (statusCh s.status) 0b10 }) ∧
        (cr = .noneEmpty → exec .voltagePath s = .next { s with
          adcDone := false
          seq := .emitting c none
          status := s.statusWith (statusNumeric s.status) (statusIllegalEvent s.status) 0b010 (statusCh s.status) 0b10 }) ∧
        (cr = .noneBelow → exec .voltagePath s = .next { s with
          adcDone := false
          seq := .emitting c none
          status := s.statusWith (statusNumeric s.status) (statusIllegalEvent s.status) 0b011 (statusCh s.status) 0b10 }))

/-- 46_event_dispatcher.md R226. `SPECTRAL_PATH` runs estimator, quantizer, table and codec, each as the operation on its own does,
and requests the write. -/
def Obligations.SpectralPathCommits : Prop :=
  ∀ s : State, s.cfg.wf = true → s.Inv → s.cfg.mode = .spectral → s.seq = .sampling .a → s.adcDone = true →
    ∃ xv qi vo fr, exec .estimate s = .next { s with result := some (.xv xv) } ∧ xv.isNaN = false ∧
      exec (.quantizeFloor xv .ft) s = .next { s with result := some (.qi qi) } ∧
      exec (.indexToVoltage qi) s = .next { s with result := some (.vo vo) } ∧
      exec (.encodeVoltage .a vo) s = .next { s with result := some (.fr fr) } ∧
      exec .spectralPath s = .next { s with
        adcDone := false
        dacReq := some (.a, fr)
        seq := .emitting .a (some vo)
        status := s.statusWith (statusNumeric s.status) (statusIllegalEvent s.status) (statusLast s.status)
          (statusCh s.status) 0b10 }

/-- 46_event_dispatcher.md R227. `WRITE_DONE`. -/
def Obligations.WriteDoneRecords : Prop :=
  ∀ (s : State) (c : Chan) (v : F32), s.seq = .emitting c (some v) → s.dacDone = true →
    exec .writeDone s = .next { s with
      dacDone := false
      chan := s.chan.set c ⟨true, some v⟩
      seq := .idle
      status := s.statusWith (statusNumeric s.status) (statusIllegalEvent s.status) 0b001 (statusCh s.status) 0b00 }

/-- 46_event_dispatcher.md R228. `HOLD_DONE`. -/
def Obligations.HoldDoneReturns : Prop :=
  ∀ (s : State) (c : Chan), s.seq = .emitting c none →
    exec .holdDone s = .next { s with
      seq := .idle
      status := s.statusWith (statusNumeric s.status) (statusIllegalEvent s.status) (statusLast s.status)
        (statusCh s.status) 0b00 }

/-- 46_event_dispatcher.md R230, 60_exceptions.md R272. At most one sequencer step has any effect in a state: every other keeps the
state whole (the wait of a step that is not enabled is the model's choice, log entry 10). -/
def Obligations.AtMostOneStepEnabled : Prop :=
  (∀ (s : State) (i : Instr), i.isSeqStep = true → s.enabledStep ≠ some i → exec i s = .next s) ∧
  ∀ (s : State) (i j : Instr), i.isSeqStep = true → j.isSeqStep = true → exec i s ≠ .next s → exec j s ≠ .next s → i = j

/-- 46_event_dispatcher.md R220. The transitions of the sequencer, with the step that takes each; with none enabled it waits, and
its turn never stops the machine. The waits (60_exceptions.md R272) and the turn that never stops are the model's reading (log entry
10). -/
def Obligations.SequencerTransitions : Prop :=
  ∀ s : State, s.cfg.wf = true → s.Inv → ∃ t, seqTurn s = .next t ∧
    (s.seq = .idle → s.cfg.mode = .spectral → s.enabledStep = some .freeRunTrigger ∧ t.seq = .sampling .a) ∧
    (s.seq = .idle → s.cfg.mode = .event → s.offer = none → s.enabledStep = none ∧ t = s) ∧
    (s.seq = .idle → s.cfg.mode = .event → ∀ c, s.offer = some ((0b01 : BitVec 2) ++ BitVec.ofBool c.bit) →
      s.enabledStep = some (.gate c) ∧ t.seq = .sampling c) ∧
    (s.seq = .idle → s.cfg.mode = .event → s.offer = some 0b100 → s.enabledStep = some .scale ∧ t.seq = .idle) ∧
    (s.seq = .idle → s.cfg.mode = .event → ∀ ev, s.offer = some ev → ev &&& 0b110 ≠ 0b010 → ev ≠ 0b100 →
      s.enabledStep = some (decodeEvent ev) ∧ t.seq = .idle ∧ statusIllegalEvent t.status = true) ∧
    (∀ c, s.seq = .sampling c → s.adcDone = false → s.enabledStep = none ∧ t = s) ∧
    (∀ c, s.seq = .sampling c → s.adcDone = true → s.cfg.mode = .event →
      s.enabledStep = some .voltagePath ∧ ∃ pend, t.seq = .emitting c pend) ∧
    (∀ c, s.seq = .sampling c → s.adcDone = true → s.cfg.mode = .spectral →
      s.enabledStep = some .spectralPath ∧ c = .a ∧ ∃ vo, t.seq = .emitting .a (some vo)) ∧
    (∀ c v, s.seq = .emitting c (some v) → s.dacDone = false → s.enabledStep = none ∧ t = s) ∧
    (∀ c v, s.seq = .emitting c (some v) → s.dacDone = true → s.enabledStep = some .writeDone ∧ t.seq = .idle) ∧
    (∀ c, s.seq = .emitting c none → s.enabledStep = some .holdDone ∧ t.seq = .idle)

/-! ## Reset and collaborators -/

/-- 70_reset_and_hazards.md R290. `RESET`, in every state, and the first step it enables. Of the model's own field `result` it says
nothing. -/
def Obligations.ResetSetsEverything : Prop :=
  ∀ s : State, ∃ (ch : PerChan ChanState) (r : Option UnitResult), ch.a = ⟨false, none⟩ ∧
    (s.cfg.mode = .event → ch.b = ⟨false, none⟩) ∧ ∃ t, t = { s with
      seq := .idle
      mask := if s.cfg.initScaleRead then ~~~s.pins else 0x000
      chan := ch
      adcReq := none
      adcDone := false
      dacReq := none
      dacDone := false
      status := 0x0000
      buf := none
      result := r } ∧
    exec .reset s = .next t ∧ (s.cfg.mode = .spectral → t.enabledStep = some .freeRunTrigger) ∧
    (s.cfg.mode = .event → ∀ ev, s.offer = some ev → t.enabledStep = some (decodeEvent ev)) ∧
    (s.cfg.mode = .event → s.offer = none → t.enabledStep = none)

/-- 60_exceptions.md R277. `ADC_COMPLETE`: the whole buffer and the handshake in one step. -/
def Obligations.AdcCompletes : Prop :=
  ∀ (s : State) (inp : InputId) (codes : List Nat), s.adcReq = some inp → codes.length = s.cfg.nsamp →
    (∀ d ∈ codes, d < 2 ^ s.cfg.sampleBits) →
    exec (.adcComplete codes) s = .next { s with buf := some codes, adcReq := none, adcDone := true }

/-- 60_exceptions.md R278. `DAC_COMPLETE`: the requested frame is latched on its channel and appended to the trace. -/
def Obligations.DacCompletes : Prop :=
  ∀ (s : State) (c : Chan) (fr : Frame), s.dacReq = some (c, fr) →
    exec .dacComplete s = .next { s with
      dacOut := s.dacOut.set c (some fr)
      trace := s.trace ++ [(c, fr)]
      dacReq := none
      dacDone := true }

/-- 30_encoding.md R85, 45_dac_codec.md R205, 60_exceptions.md R278. `DAC_FRAME`: the DAC takes a frame of these fields, when it is
the one requested, exactly as `DAC_COMPLETE` does. That the row means this is the model's reading (log entry 13). -/
def Obligations.DacFrameLatchesRequestedFrame : Prop :=
  ∀ (s : State) (c : Chan) (fr : Frame) (ctrl : BitVec 4) (code : DacCode), s.dacReq = some (c, fr) →
    fr.extractLsb' 12 4 = ctrl → fr.extractLsb' 2 10 = code → fr.extractLsb' 0 2 = 0 →
    exec (.dacFrame ctrl code) s = .next { s with
      dacOut := s.dacOut.set c (some fr)
      trace := s.trace ++ [(c, fr)]
      dacReq := none
      dacDone := true }

/-- 60_exceptions.md R279, R280, R281, 30_encoding.md R90. The moves of the GATE and SCALE agents, and the moves that are refused, a
`SPECTRAL_ROUND` outside `MODE = SPECTRAL` among them (log entry 16). -/
def Obligations.EnvironmentMovesOrRefuses : Prop :=
  ∀ s : State,
    (∀ p, runMove (.pins p) s = .next { s with pins := p }) ∧
    (∀ ev, s.cfg.mode = .event → s.offer = none → runMove (.offer ev) s = .next { s with offer := some ev }) ∧
    (∀ ev, ¬(s.cfg.mode = .event ∧ s.offer = none) → ∃ r, runMove (.offer ev) s = .refused r) ∧
    (s.cfg.mode = .event → s.offer ≠ none → s.seq ≠ .idle → runMove .lose s = .next { s with offer := none }) ∧
    (¬(s.cfg.mode = .event ∧ s.offer ≠ none ∧ s.seq ≠ .idle) → ∃ r, runMove .lose s = .refused r) ∧
    (∀ codes, s.adcReq = none ∨ codes.length ≠ s.cfg.nsamp ∨ (∃ d ∈ codes, 2 ^ s.cfg.sampleBits ≤ d) →
      ∃ r, runMove (.capture codes) s = .refused r) ∧
    (∀ v, s.adcReq = none ∨ (0 < s.cfg.nsamp ∧ 2 ^ s.cfg.sampleBits ≤ v) → ∃ r, runMove (.captureFill v) s = .refused r) ∧
    (s.dacReq = none → ∃ r, runMove .writeDone s = .refused r) ∧
    (∀ codes, s.cfg.mode = .spectral →
      runMove (.spectralRound codes) s = .next { s with script := linesSpectralRound codes ++ s.script }) ∧
    (∀ codes, s.cfg.mode = .event → ∃ r, runMove (.spectralRound codes) s = .refused r)

/-- 70_reset_and_hazards.md R304. While a request is outstanding no sequencer step is enabled, and no line but the completion it
waits for, and `RESET`, leaves the state it waits in. -/
def Obligations.OutstandingRequestBlocks : Prop :=
  ∀ s : State, s.Inv → s.blocked → s.enabledStep = none ∧ seqTurn s = .next s ∧
    (∃ t, runMove .reset s = .next t ∧ t.seq = .idle) ∧
    ∀ (m : Move) (t : State), runMove m s = .next t → m ≠ .reset →
      (s.adcReq.isSome = true → m.isCapture = false) → (s.dacReq.isSome = true → m ≠ .writeDone) →
      t.blocked ∧ t.seq = s.seq ∧ t.adcReq = s.adcReq ∧ t.dacReq = s.dacReq ∧ t.trace = s.trace

/-- 70_reset_and_hazards.md R294, R295. Boot: an ill-formed configuration is refused by name; a well-formed one reaches a state of
the invariant with both tables generated, in either order of generation. `State.reset` is the boot of `CFG_T` with all lines
high (log entries 1 and 3). -/
def Obligations.BootReachesReset : Prop :=
  ∀ (cfg : Cfg) (pins : Degrees),
    (cfg.wf = false → ∃ check, boot cfg pins = .refused (.configuration check)) ∧
    (cfg.wf = true → ∃ t, boot cfg pins = .next t ∧
      execAll [.genVoltTable, .genFreqTable, .reset] (powerUp cfg pins) = .next t ∧ t.Inv ∧ t.cfg = cfg ∧ t.seq = .idle ∧
      t.status = 0x0000 ∧ t.mask = (if cfg.initScaleRead then ~~~pins else 0x000) ∧ t.trace = []) ∧
    (cfg = cfgT → pins = 0xFFF → boot cfg pins = .next State.reset)

/-! ## The whole machine -/

/-- 10_state.md R24, R27, R29, R31, 20_memory.md R62. The invariant holds at reset, and the configuration there is well formed. -/
def Obligations.InvariantAtReset : Prop := State.reset.Inv ∧ State.reset.cfg.wf = true

/-- 10_state.md R24, R27, R29, R31, 20_memory.md R62. Every step keeps the invariant, from every state that meets it. -/
def Obligations.InvariantKeptByStep : Prop := ∀ s t : State, s.Inv → step s = .next t → t.Inv

/-- 10_state.md R30, 20_memory.md R61, R62. From a state of the invariant a step faults only where the script's first line is
`EXPECT`. -/
def Obligations.OnlyExpectLinesFault : Prop :=
  ∀ (s : State) (f : Fault), s.Inv → step s = .fault f → ∃ o, s.script.head? = some (.expect o)

/-- 10_state.md R21, 60_exceptions.md R262, R263, 20_memory.md R70. Who writes the mask, and who sets and clears the fault bits. -/
def Obligations.MaskAndFaultBitWriters : Prop :=
  ∀ s t : State, s.Inv → step s = .next t →
    (t.mask = s.mask ∨
      (s.seqHasTurn ∧ s.cfg.mode = .event ∧ s.seq = .idle ∧ s.offer = some 0b100 ∧ t.mask = ~~~s.pins) ∨
      (s.script.head? = some .reset ∧ t.mask = if s.cfg.initScaleRead then ~~~s.pins else 0x000)) ∧
    (s.script.head? ≠ some .reset →
      (statusIllegalEvent s.status = true → statusIllegalEvent t.status = true) ∧
      (statusNumeric s.status = true → statusNumeric t.status = true)) ∧
    (statusIllegalEvent t.status = true → statusIllegalEvent s.status = true ∨
      (s.seqHasTurn ∧ s.cfg.mode = .event ∧ s.seq = .idle ∧ ∃ ev, s.offer = some ev ∧ ev &&& 0b110 ≠ 0b010 ∧ ev ≠ 0b100)) ∧
    (statusNumeric t.status = true → statusNumeric s.status = true ∨
      (s.seqHasTurn ∧ s.cfg.mode = .event ∧ ∃ c, s.seq = .sampling c ∧ t.seq = .emitting c none ∧
        statusLast t.status = 0b100))

/-- 20_memory.md R68, 10_state.md R28, R29. Each location has one writer; the configuration and the tables have none. -/
def Obligations.SingleWriters : Prop :=
  ∀ s t : State, step s = .next t →
    t.cfg = s.cfg ∧ t.ft = s.ft ∧ t.vt = s.vt ∧
    (t.buf = s.buf ∨ s.script.head? = some .reset ∨ ∃ m, s.script.head? = some m ∧ m.isCapture = true) ∧
    ((t.dacOut = s.dacOut ∧ t.trace = s.trace) ∨ s.script.head? = some .writeDone) ∧
    (t.pins = s.pins ∨ ∃ p, s.script.head? = some (.pins p)) ∧
    (t.offer = s.offer ∨ s.script.head? = some .lose ∨ (∃ ev, s.script.head? = some (.offer ev)) ∨
      (s.seqHasTurn ∧ s.cfg.mode = .event ∧ s.seq = .idle ∧ t.offer = none)) ∧
    ((t.seq = s.seq ∧ t.mask = s.mask ∧ t.chan = s.chan ∧ t.status = s.status) ∨ s.seqHasTurn ∨
      s.script.head? = some .reset) ∧
    ((t.adcReq = s.adcReq ∧ t.adcDone = s.adcDone) ∨ s.seqHasTurn ∨ s.script.head? = some .reset ∨
      ∃ m, s.script.head? = some m ∧ m.isCapture = true) ∧
    ((t.dacReq = s.dacReq ∧ t.dacDone = s.dacDone) ∨ s.seqHasTurn ∨ s.script.head? = some .reset ∨
      s.script.head? = some .writeDone)

/-- 46_event_dispatcher.md R234. A held or faulted event requests no write, and from its acceptance of the outcome to the return to
`Idle` the DAC's outputs, the trace and the channels keep their values. -/
def Obligations.HeldEventKeepsOutput : Prop :=
  ∀ (s t : State) (c : Chan), s.Inv → s.seq = .sampling c → exec .voltagePath s = .next t → t.seq = .emitting c none →
    t.dacReq = none ∧ t.dacOut = s.dacOut ∧ t.trace = s.trace ∧ t.chan = s.chan ∧
    (statusLast t.status = 0b010 ∨ statusLast t.status = 0b011 ∨ statusLast t.status = 0b100) ∧
    ∃ u, exec .holdDone t = .next u ∧ u.seq = .idle ∧ u.dacReq = none ∧ u.dacOut = s.dacOut ∧ u.trace = s.trace ∧
      u.chan = s.chan ∧ statusLast u.status = statusLast t.status

/-- 46_event_dispatcher.md R232, 30_encoding.md R90. In the spectral mode one round, from `Idle`, ends in `Idle` after five steps and
has appended exactly one frame, on channel A. -/
def Obligations.SpectralRoundEmitsOnce : Prop :=
  ∀ (s : State) (codes : List Nat) (rest : List Move), s.cfg.wf = true → s.Inv → s.cfg.mode = .spectral → s.seq = .idle →
    wholeBuffer s.cfg codes → s.script = linesSpectralRound codes ++ rest →
    ∃ (t : State) (fr : Frame) (v : F32), runSteps 5 s = .next t ∧ t.seq = .idle ∧ t.script = rest ∧
      t.trace = s.trace ++ [(.a, fr)] ∧ t.dacOut.a = some fr ∧ t.chan.a = ⟨true, some v⟩ ∧
      statusLast t.status = 0b001 ∧ t.mask = s.mask

/-- 46_event_dispatcher.md R230, R232, 30_encoding.md R90. In the event mode an offered and served gate event, from `Idle`, ends in
`Idle` within seven steps, either with exactly one frame on its channel or held with every output as it was. The count of seven is the model's: the end of
`TRIGGER` is a line of its own (log entry 16). -/
def Obligations.GateEventServedOnce : Prop :=
  ∀ (s : State) (c : Chan) (codes : List Nat) (rest : List Move), s.cfg.wf = true → s.Inv → s.cfg.mode = .event →
    s.seq = .idle → s.offer = none → wholeBuffer s.cfg codes → s.script = linesTrigger c codes ++ rest →
    ∃ (k : Nat) (t : State), k ≤ 7 ∧ runSteps k s = .next t ∧ t.seq = .idle ∧ t.script = rest ∧ t.offer = none ∧
      t.mask = s.mask ∧
      ((∃ fr v, t.trace = s.trace ++ [(c, fr)] ∧ t.dacOut.get c = some fr ∧ t.chan.get c = ⟨true, some v⟩ ∧
          statusLast t.status = 0b001) ∨
        (t.trace = s.trace ∧ t.dacOut = s.dacOut ∧ t.chan = s.chan ∧
          (statusLast t.status = 0b010 ∨ statusLast t.status = 0b011 ∨ statusLast t.status = 0b100)))
end

