-- ==== Sys2Proof/Laws/Cosine.lean ====
section
/-!
SUPPORT. The order of exact powers is the order of the real numbers they stand for (43_spectral_estimator.md R163, R164): the
enclosures of pi and of the cosines, the vanishing test, the separation of a nonzero sum from zero by its norm, and
`powerGt_iff`.
-/

namespace Sys2Proof.Machine

open Real Finset

/-! ## The enclosure of pi -/

theorem arctan_series_bound {y : ℝ} (h0 : 0 ≤ y) (h1 : y < 1) (k : ℕ) :
    |arctan y - ∑ i ∈ range k, (-1) ^ i * (y ^ (2 * i + 1) / (2 * i + 1 : ℕ))| ≤ y ^ (2 * k + 1) := by
  have hs : HasSum (fun n : ℕ => (-1) ^ n * (y ^ (2 * n + 1) / (2 * n + 1 : ℕ))) (arctan y) := by
    have := Real.hasSum_arctan (x := y) (by rwa [norm_eq_abs, abs_of_nonneg h0])
    simpa [mul_div_assoc] using this
  have ht := hs.tendsto_sum_nat
  have ha : Antitone fun n : ℕ => y ^ (2 * n + 1) / (2 * n + 1 : ℕ) := by
    refine antitone_nat_of_succ_le fun n => ?_
    have hp : y ^ (2 * (n + 1) + 1) ≤ y ^ (2 * n + 1) := pow_le_pow_of_le_one h0 h1.le (by omega)
    have : (0:ℝ) < (2 * n + 1 : ℕ) := by positivity
    have h2 : ((2 * n + 1 : ℕ) : ℝ) ≤ (2 * (n + 1) + 1 : ℕ) := by exact_mod_cast (by omega)
    exact div_le_div₀ (by positivity) hp this h2
  have hle : y ^ (2 * k + 1) / (2 * k + 1 : ℕ) ≤ y ^ (2 * k + 1) :=
    div_le_self (by positivity) (by exact_mod_cast (by omega))
  rcases Nat.even_or_odd' k with ⟨m, rfl | rfl⟩
  · have lo := ha.alternating_series_le_tendsto ht m
    have hi := ha.tendsto_le_alternating_series ht m
    rw [sum_range_succ] at hi
    simp only [pow_mul, neg_one_sq, one_pow, one_mul] at hi lo hle ⊢
    rw [abs_of_nonneg (by linarith)]
    linarith
  · have lo := ha.alternating_series_le_tendsto ht (m + 1)
    have hi := ha.tendsto_le_alternating_series ht m
    rw [show 2 * (m + 1) = 2 * m + 1 + 1 from by ring, sum_range_succ] at lo
    have hneg : ((-1 : ℝ)) ^ (2 * m + 1) = -1 := by simp [pow_succ, pow_mul]
    rw [hneg] at lo
    rw [abs_of_nonpos (by linarith)]
    linarith

/-- The value of a fraction. -/
noncomputable def fractionValue (r : Int × Nat) : ℝ := r.1 / r.2

theorem arctanTail_den (xx : ℕ) (hx : 0 < xx) (k j : ℕ) : 0 < (arctanTail xx k j).2 := by
  induction k generalizing j with
  | zero => simp [arctanTail]
  | succ k ih =>
    have := ih (j + 1)
    simp only [arctanTail]
    rcases h : arctanTail xx k (j + 1) with ⟨p, q⟩
    rw [h] at this
    simp only [arctanLevel]
    positivity

theorem arctanTail_value (xx : ℕ) (hx : 0 < xx) (k j : ℕ) :
    fractionValue (arctanTail xx k j) = ∑ i ∈ range k, (-1) ^ i * ((1 / (xx:ℝ)) ^ i / (2 * (j + i) + 1 : ℕ)) := by
  induction k generalizing j with
  | zero => simp [arctanTail, fractionValue]
  | succ k ih =>
    have hd := arctanTail_den xx hx k (j + 1)
    have hv := ih (j + 1)
    simp only [arctanTail]
    rcases h : arctanTail xx k (j + 1) with ⟨p, q⟩
    rw [h] at hd hv
    simp only [fractionValue] at hv
    rw [sum_range_succ']
    have e : ∑ i ∈ range k, (-1 : ℝ) ^ (i + 1) * ((1 / (xx:ℝ)) ^ (i + 1) / (2 * (j + (i + 1)) + 1 : ℕ)) = - (1 / xx) * (p / q) := by
      rw [hv, mul_sum]
      refine sum_congr rfl fun i _ => ?_
      rw [show j + (i + 1) = j + 1 + i from by ring]
      ring
    rw [e]
    simp only [fractionValue, arctanLevel]
    have : (q:ℝ) ≠ 0 := by exact_mod_cast hd.ne'
    have : (xx:ℝ) ≠ 0 := by exact_mod_cast hx.ne'
    push_cast
    field_simp
    simp
    ring

theorem arctan_inv_bound (x : ℕ) (hx : 2 ≤ x) (k : ℕ) :
    |arctan (1 / (x:ℝ)) - fractionValue (arctanTail (x * x) k 0) / x| ≤ (1 / (x:ℝ)) ^ (2 * k + 1) := by
  have hx0 : (0:ℝ) < x := by exact_mod_cast (by omega)
  have := arctan_series_bound (y := 1 / (x:ℝ)) (by positivity) (by
    rw [div_lt_one hx0]; exact_mod_cast (by omega)) k
  have e : fractionValue (arctanTail (x * x) k 0) / x
      = ∑ i ∈ range k, (-1) ^ i * ((1 / (x:ℝ)) ^ (2 * i + 1) / (2 * i + 1 : ℕ)) := by
    rw [arctanTail_value _ (by positivity), sum_div]
    refine sum_congr rfl fun i _ => ?_
    rw [zero_add, Nat.cast_mul, pow_succ (1 / (x:ℝ)), pow_mul, div_pow, one_pow, sq]
    ring
  rw [e]
  exact this

theorem piScaled_bound (q : ℕ) : |π * 2 ^ q - piScaled q| ≤ 2 := by
  have h5 := arctan_inv_bound 5 (by norm_num) (q / 2 + 2)
  have h239 := arctan_inv_bound 239 (by norm_num) (q / 2 + 2)
  have d5 := arctanTail_den 25 (by norm_num) (q / 2 + 2) 0
  have d239 := arctanTail_den 57121 (by norm_num) (q / 2 + 2) 0
  have machin : π = 16 * arctan (1 / 5) - 4 * arctan (1 / 239) := by
    have := four_mul_arctan_inv_5_sub_arctan_inv_239
    rw [one_div, one_div]; linarith
  norm_num only [] at h5 h239
  have small : (1 / 5 : ℝ) ^ (2 * (q / 2 + 2) + 1) * 2 ^ q ≤ 1 / 625 := by
    have h1 : (1 / 5 : ℝ) ^ (2 * (q / 2 + 2) + 1) ≤ (1 / 5) ^ (q + 4) :=
      pow_le_pow_of_le_one (by norm_num) (by norm_num) (by omega)
    calc (1 / 5 : ℝ) ^ (2 * (q / 2 + 2) + 1) * 2 ^ q ≤ (1 / 5) ^ (q + 4) * 2 ^ q := by gcongr
      _ = (2 / 5) ^ q * (1 / 625) := by
        rw [pow_add, show (2 / 5 : ℝ) = 1 / 5 * 2 from by norm_num, mul_pow]; ring
      _ ≤ 1 * (1 / 625) := by
        gcongr
        exact pow_le_one₀ (by norm_num) (by norm_num)
      _ = 1 / 625 := one_mul _
  have small2 : (1 / 239 : ℝ) ^ (2 * (q / 2 + 2) + 1) ≤ (1 / 5) ^ (2 * (q / 2 + 2) + 1) := by
    gcongr; norm_num
  unfold piScaled
  simp only []
  generalize hA : arctanTail 25 (q / 2 + 2) 0 = A at *
  generalize hB : arctanTail 57121 (q / 2 + 2) 0 = B at *
  generalize (1 / 5 : ℝ) ^ (2 * (q / 2 + 2) + 1) = e5 at *
  generalize (1 / 239 : ℝ) ^ (2 * (q / 2 + 2) + 1) = e239 at *
  obtain ⟨a, d⟩ := A
  obtain ⟨b, e⟩ := B
  simp only [fractionValue] at h5 h239 d5 d239 ⊢
  have hd : (0:ℝ) < d := by exact_mod_cast d5
  have he : (0:ℝ) < e := by exact_mod_cast d239
  set num : ℤ := (16 * a * ((239 * e : ℕ) : ℤ) - 4 * b * ((5 * d : ℕ) : ℤ)) * 2 ^ q with hnum
  set den : ℕ := 5 * d * (239 * e) with hden
  have hden0 : (0:ℤ) < (den : ℤ) := by rw [hden]; positivity
  have lo := Int.ediv_mul_le num hden0.ne'
  have hi := Int.lt_ediv_add_one_mul_self num hden0
  have val : (num : ℝ) / (den : ℝ) = (16 * (a / d / 5) - 4 * (b / e / 239)) * 2 ^ q := by
    rw [hnum, hden]; push_cast; field_simp
  have hdenR : (0:ℝ) < (den : ℝ) := by exact_mod_cast hden0
  have lo' : ((num / den : ℤ) : ℝ) ≤ (num : ℝ) / den := by
    rw [le_div_iff₀ hdenR]; exact_mod_cast lo
  have hi' : (num : ℝ) / den < ((num / den : ℤ) : ℝ) + 1 := by
    rw [div_lt_iff₀ hdenR]; exact_mod_cast hi
  rw [val] at lo' hi'
  have h2q : (0:ℝ) < 2 ^ q := by positivity
  rw [abs_le] at h5 h239 ⊢
  rw [machin]
  set X := arctan (1 / 5) - a / d / 5 with hX
  set Y := arctan (1 / 239) - b / e / 239 with hY
  have eq : (16 * arctan (1 / 5) - 4 * arctan (1 / 239)) * 2 ^ q
      = (16 * (a / d / 5) - 4 * (b / e / 239)) * 2 ^ q + 16 * (X * 2 ^ q) - 4 * (Y * 2 ^ q) := by
    rw [hX, hY]; ring
  have x1 : X * 2 ^ q ≤ e5 * 2 ^ q := by gcongr; exact h5.2
  have x2 : -(e5 * 2 ^ q) ≤ X * 2 ^ q := by rw [← neg_mul]; gcongr; exact h5.1
  have y1 : Y * 2 ^ q ≤ e5 * 2 ^ q := by gcongr; exact h239.2.trans small2
  have y2 : -(e5 * 2 ^ q) ≤ Y * 2 ^ q := by
    rw [← neg_mul]; gcongr; exact (neg_le_neg small2).trans h239.1
  constructor <;> linarith

/-! ## The enclosure of a cosine -/

theorem cosTail_den (num den : ℕ) (hd : 0 < den) (k j : ℕ) : 0 < (cosTail num den k j).2 := by
  induction k generalizing j with
  | zero => simp [cosTail]
  | succ k ih =>
    have := ih (j + 1)
    simp only [cosTail]
    rcases h : cosTail num den k (j + 1) with ⟨p, q⟩
    rw [h] at this
    simp only [cosLevel]
    positivity

theorem cosTail_value (num den : ℕ) (hd : 0 < den) (k j : ℕ) :
    fractionValue (cosTail num den k j) / (2 * j).factorial
      = ∑ i ∈ range k, (-1) ^ i * ((num / den : ℝ) ^ i / (2 * (j + i)).factorial) := by
  induction k generalizing j with
  | zero => simp [cosTail, fractionValue]
  | succ k ih =>
    have hq := cosTail_den num den hd k (j + 1)
    have hv := ih (j + 1)
    simp only [cosTail]
    rcases h : cosTail num den k (j + 1) with ⟨p, q⟩
    rw [h] at hq hv
    simp only [fractionValue] at hv
    rw [sum_range_succ']
    have e : ∑ i ∈ range k, (-1 : ℝ) ^ (i + 1) * ((num / den : ℝ) ^ (i + 1) / (2 * (j + (i + 1))).factorial)
        = - (num / den) * (p / q / (2 * (j + 1)).factorial) := by
      rw [hv, mul_sum]
      refine sum_congr rfl fun i _ => ?_
      rw [show j + (i + 1) = j + 1 + i from by ring]
      ring
    rw [e]
    simp only [fractionValue, cosLevel]
    have f : ((2 * (j + 1)).factorial : ℝ) = (2 * j + 2) * ((2 * j + 1) * (2 * j).factorial) := by
      rw [show 2 * (j + 1) = 2 * j + 1 + 1 from by ring, Nat.factorial_succ, Nat.factorial_succ]
      push_cast; ring
    have : (q:ℝ) ≠ 0 := by exact_mod_cast hq.ne'
    have : (den:ℝ) ≠ 0 := by exact_mod_cast hd.ne'
    have : ((2 * j).factorial : ℝ) ≠ 0 := by exact_mod_cast (Nat.factorial_pos _).ne'
    have : (2 * (j:ℝ) + 2) ≠ 0 := by positivity
    have : (2 * (j:ℝ) + 1) ≠ 0 := by positivity
    rw [f]
    push_cast
    field_simp
    simp
    ring

theorem exp_series_re (t : ℝ) (k : ℕ) :
    (∑ m ∈ range (2 * k), ((t : ℂ) * Complex.I) ^ m / (m.factorial : ℂ)).re
      = ∑ i ∈ range k, (-1) ^ i * ((t ^ 2) ^ i / (2 * i).factorial) := by
  induction k with
  | zero => simp
  | succ k ih =>
    rw [show 2 * (k + 1) = 2 * k + 1 + 1 from by ring, sum_range_succ, sum_range_succ, sum_range_succ,
      Complex.add_re, Complex.add_re, ih]
    have e : ((t : ℂ) * Complex.I) ^ (2 * k) = (((-1) ^ k * (t ^ 2) ^ k : ℝ) : ℂ) := by
      rw [pow_mul, mul_pow, Complex.I_sq]
      push_cast
      rw [mul_pow]; ring
    have z : (((t : ℂ) * Complex.I) ^ (2 * k + 1) / ((2 * k + 1).factorial : ℂ)).re = 0 := by
      rw [pow_succ, e]
      have : ((((-1) ^ k * (t ^ 2) ^ k : ℝ) : ℂ) * ((t : ℂ) * Complex.I) / ((2 * k + 1).factorial : ℂ))
          = (((-1) ^ k * (t ^ 2) ^ k * t / (2 * k + 1).factorial : ℝ) : ℂ) * Complex.I := by
        push_cast; ring
      rw [this, Complex.re_ofReal_mul, Complex.I_re, mul_zero]
    rw [z, e]
    have : ((((-1) ^ k * (t ^ 2) ^ k : ℝ) : ℂ) / ((2 * k).factorial : ℂ)).re = (-1) ^ k * (t ^ 2) ^ k / (2 * k).factorial := by
      rw [show ((2 * k).factorial : ℂ) = (((2 * k).factorial : ℝ) : ℂ) by push_cast; rfl, ← Complex.ofReal_div, Complex.ofReal_re]
    rw [this]; ring

theorem cos_series_bound (t : ℝ) (k : ℕ) (h : |t| / (2 * k + 1 : ℕ) ≤ 1 / 2) :
    |cos t - ∑ i ∈ range k, (-1) ^ i * ((t ^ 2) ^ i / (2 * i).factorial)| ≤ |t| ^ (2 * k) / (2 * k).factorial * 2 := by
  have hn : ‖(t : ℂ) * Complex.I‖ = |t| := by simp
  have := Complex.exp_bound' (x := (t : ℂ) * Complex.I) (n := 2 * k) (by rw [hn]; exact h)
  rw [hn] at this
  rw [← exp_series_re, ← Complex.exp_ofReal_mul_I_re, ← Complex.sub_re]
  exact (Complex.abs_re_le_norm _).trans this

theorem factorial_growth (k : ℕ) : 7 ^ (k + 20) * 2 ^ (k + 2) ≤ (k + 20).factorial := by
  induction k with
  | zero => decide
  | succ k ih =>
    rw [show k + 1 + 20 = (k + 20) + 1 from by ring, Nat.factorial_succ]
    calc 7 ^ (k + 20 + 1) * 2 ^ (k + 1 + 2) = 14 * (7 ^ (k + 20) * 2 ^ (k + 2)) := by ring
      _ ≤ (k + 20 + 1) * (k + 20).factorial := Nat.mul_le_mul (by omega) ih

theorem cos_remainder_small (p : ℕ) {t : ℝ} (h : |t| ≤ 7) :
    |t| ^ (2 * (p / 2 + 10)) / (2 * (p / 2 + 10)).factorial * 2 * 2 ^ p ≤ 1 := by
  have g := factorial_growth (2 * (p / 2))
  rw [show 2 * (p / 2) + 20 = 2 * (p / 2 + 10) from by ring] at g
  have gR : (7 : ℝ) ^ (2 * (p / 2 + 10)) * 2 ^ (2 * (p / 2) + 2) ≤ ((2 * (p / 2 + 10)).factorial : ℝ) := by exact_mod_cast g
  have hf : (0:ℝ) < ((2 * (p / 2 + 10)).factorial : ℝ) := by exact_mod_cast Nat.factorial_pos _
  have hp : (2:ℝ) ^ (p + 1) ≤ 2 ^ (2 * (p / 2) + 2) := pow_le_pow_right₀ (by norm_num) (by omega)
  have ht : |t| ^ (2 * (p / 2 + 10)) ≤ 7 ^ (2 * (p / 2 + 10)) := by gcongr
  rw [div_mul_eq_mul_div, div_mul_eq_mul_div, div_le_one hf]
  calc |t| ^ (2 * (p / 2 + 10)) * 2 * 2 ^ p = |t| ^ (2 * (p / 2 + 10)) * 2 ^ (p + 1) := by ring
    _ ≤ 7 ^ (2 * (p / 2 + 10)) * 2 ^ (2 * (p / 2) + 2) := by gcongr
    _ ≤ _ := gR

theorem floor_bound (num : ℤ) (den : ℕ) (h : 0 < den) : |(num : ℝ) / den - ((num / (den : ℤ) : ℤ) : ℝ)| ≤ 1 := by
  have h' : (0:ℤ) < den := by exact_mod_cast h
  have hR : (0:ℝ) < (den : ℝ) := by exact_mod_cast h
  have lo : ((num / (den : ℤ) : ℤ) : ℝ) ≤ (num : ℝ) / den := by
    rw [le_div_iff₀ hR]; exact_mod_cast Int.ediv_mul_le num h'.ne'
  have hi : (num : ℝ) / den < ((num / (den : ℤ) : ℤ) : ℝ) + 1 := by
    rw [div_lt_iff₀ hR]; exact_mod_cast Int.lt_ediv_add_one_mul_self num h'
  rw [abs_le]; constructor <;> linarith

theorem piScaled_nonneg (q : ℕ) : 0 ≤ piScaled q := by
  have h := piScaled_bound q
  have h2 : (1:ℝ) ≤ 2 ^ q := one_le_pow₀ (by norm_num)
  have h3 := Real.pi_gt_three
  rw [abs_le] at h
  have : (0:ℝ) < piScaled q := by nlinarith
  exact_mod_cast this.le

theorem cosScaled_bound (n p m : ℕ) (hm : m < n) :
    |Real.cos (2 * π * m / n) * 2 ^ p - cosScaled (piScaled (p + 3)).natAbs n p m| ≤ 3 := by
  have hn : 0 < n := by omega
  have hnR : (0:ℝ) < n := by exact_mod_cast hn
  have hmR : (m:ℝ) ≤ n := by exact_mod_cast hm.le
  set P := (piScaled (p + 3)).natAbs with hP
  have hPR : (P : ℝ) = piScaled (p + 3) := by
    have : ((P : ℤ)) = piScaled (p + 3) := by rw [hP]; exact Int.natAbs_of_nonneg (piScaled_nonneg _)
    exact_mod_cast this
  have hb := piScaled_bound (p + 3)
  rw [← hPR] at hb
  set Q : ℝ := 2 ^ (p + 3) with hQ
  have hQ0 : 0 < Q := by positivity
  have hQ8 : Q = 8 * 2 ^ p := by rw [hQ, pow_add]; ring
  have h1p : (1:ℝ) ≤ 2 ^ p := one_le_pow₀ (by norm_num)
  set t : ℝ := 2 * P * m / (Q * n) with ht
  set θ : ℝ := 2 * π * m / n with hθ
  have dist : |θ - t| * 2 ^ p ≤ 1 / 2 := by
    have e : θ - t = (π * Q - P) * (2 * m / (Q * n)) := by rw [hθ, ht]; field_simp
    rw [e, abs_mul, abs_of_nonneg (by positivity : 0 ≤ 2 * (m:ℝ) / (Q * n))]
    have : 2 * (m:ℝ) / (Q * n) ≤ 2 / Q := by
      rw [div_le_div_iff₀ (by positivity) hQ0]
      nlinarith
    calc |π * Q - P| * (2 * m / (Q * n)) * 2 ^ p ≤ 2 * (2 / Q) * 2 ^ p := by gcongr
      _ = 1 / 2 := by rw [hQ8]; field_simp; norm_num
  have ht0 : 0 ≤ t := by positivity
  have ht7 : |t| ≤ 7 := by
    have h1 : θ ≤ 2 * π := by
      rw [hθ, div_le_iff₀ hnR]; nlinarith [Real.pi_pos]
    have h2 : |θ - t| ≤ 1 / 2 := by nlinarith [abs_nonneg (θ - t)]
    have h3 := Real.pi_lt_d2
    rw [abs_of_nonneg ht0]
    have := (abs_le.mp h2).1
    linarith
  have hcos : |cos θ - cos t| ≤ |θ - t| := by
    have := Real.abs_cos_sub_cos_le θ t
    exact this
  have hser := cos_series_bound t (p / 2 + 10) (by
    rw [div_le_iff₀ (by positivity)]
    have : (21:ℝ) ≤ (2 * (p / 2 + 10) + 1 : ℕ) := by exact_mod_cast (by omega)
    linarith)
  have hrem := cos_remainder_small p ht7
  unfold cosScaled
  have hden : 0 < (2 ^ (p + 3) * n) ^ 2 := by positivity
  have hd := cosTail_den ((2 * P * m) ^ 2) ((2 ^ (p + 3) * n) ^ 2) hden (p / 2 + 10) 0
  have hv := cosTail_value ((2 * P * m) ^ 2) ((2 ^ (p + 3) * n) ^ 2) hden (p / 2 + 10) 0
  have hsq : (((2 * P * m) ^ 2 : ℕ) : ℝ) / ((2 ^ (p + 3) * n) ^ 2 : ℕ) = t ^ 2 := by
    rw [ht, hQ]; push_cast; rw [div_pow]
  rw [hsq] at hv
  rcases hc : cosTail ((2 * P * m) ^ 2) ((2 ^ (p + 3) * n) ^ 2) (p / 2 + 10) 0 with ⟨c, d⟩
  rw [hc] at hd hv
  simp only [fractionValue, mul_zero, Nat.factorial_zero, Nat.cast_one, div_one, zero_add] at hv
  rw [← hv] at hser
  have hfl := floor_bound (c * 2 ^ p) d hd
  have e : ((c * 2 ^ p : ℤ) : ℝ) / d = c / d * 2 ^ p := by push_cast; ring
  rw [e] at hfl
  simp only []
  have s1 : |cos θ * 2 ^ p - cos t * 2 ^ p| ≤ 1 / 2 := by
    rw [← sub_mul, abs_mul, abs_of_nonneg (by positivity : (0:ℝ) ≤ 2 ^ p)]
    exact (mul_le_mul_of_nonneg_right hcos (by positivity)).trans dist
  have s2 : |cos t * 2 ^ p - c / d * 2 ^ p| ≤ 1 := by
    rw [← sub_mul, abs_mul, abs_of_nonneg (by positivity : (0:ℝ) ≤ 2 ^ p)]
    exact (mul_le_mul_of_nonneg_right hser (by positivity)).trans hrem
  rw [abs_le] at *
  constructor <;> linarith [s1.1, s1.2, s2.1, s2.2, hfl.1, hfl.2]

/-! ## The enclosure of a sum -/

@[simp] theorem angleCos_nil (n : ℕ) : angleCos n [] = 0 := rfl

@[simp] theorem angleCos_cons (n : ℕ) (t : ℤ × ℕ) (ts : AngleSum) :
    angleCos n (t :: ts) = (t.1 : ℝ) * Real.cos (2 * π * t.2 / n) + angleCos n ts := rfl

theorem angleCos_append (n : ℕ) (s t : AngleSum) : angleCos n (s ++ t) = angleCos n s + angleCos n t := by
  simp [angleCos]

theorem cos_mod (n m : ℕ) (hn : 0 < n) : Real.cos (2 * π * (m % n : ℕ) / n) = Real.cos (2 * π * m / n) := by
  have hnR : (n:ℝ) ≠ 0 := by exact_mod_cast hn.ne'
  have e : 2 * π * m / n = 2 * π * (m % n : ℕ) / n + (m / n : ℕ) * (2 * π) := by
    have := Nat.div_add_mod m n
    have h : (m:ℝ) = n * (m / n : ℕ) + (m % n : ℕ) := by exact_mod_cast this.symm
    rw [h]; field_simp; ring_nf
  rw [e, Real.cos_add_nat_mul_two_pi]

theorem cosTable_getD (n p m : ℕ) (hm : m < n) :
    (cosTable n p).getD m 0 = cosScaled (piScaled (p + 3)).natAbs n p m := by
  simp [cosTable, List.getD, hm]

theorem weighted_bound (n p : ℕ) (hn : 0 < n) (ts : AngleSum) :
    |angleCos n ts * 2 ^ p - weighted (cosTable n p) n ts| ≤ 3 * weight ts := by
  induction ts with
  | nil => simp [weighted, weight]
  | cons t ts ih =>
    obtain ⟨a, m⟩ := t
    have h := cosScaled_bound n p (m % n) (Nat.mod_lt m hn)
    rw [cos_mod n m hn, ← cosTable_getD n p _ (Nat.mod_lt m hn)] at h
    simp only [angleCos_cons, weighted, weight]
    push_cast
    have e : ((a:ℝ) * cos (2 * π * m / n) + angleCos n ts) * 2 ^ p -
        (a * ((cosTable n p).getD (m % n) 0 : ℤ) + (weighted (cosTable n p) n ts : ℤ)) =
        a * (cos (2 * π * m / n) * 2 ^ p - ((cosTable n p).getD (m % n) 0 : ℤ)) +
        (angleCos n ts * 2 ^ p - (weighted (cosTable n p) n ts : ℤ)) := by ring
    rw [e]
    refine (abs_add_le _ _).trans ?_
    rw [abs_mul]
    have ha : |(a:ℝ)| = (a.natAbs : ℝ) := by rw [Nat.cast_natAbs]; simp
    rw [ha]
    have : (a.natAbs : ℝ) * |cos (2 * π * m / n) * 2 ^ p - ((cosTable n p).getD (m % n) 0 : ℤ)| ≤ a.natAbs * 3 := by gcongr
    linarith

/-- The ordering that says the sign of a real number. -/
noncomputable def signOf (x : ℝ) : Ordering := if x < 0 then .lt else if 0 < x then .gt else .eq

theorem signAt_eq_or (n p : ℕ) (hn : 0 < n) (ts : AngleSum) :
    signAt n ts p = signOf (angleCos n ts) ∨
      (signAt n ts p = .eq ∧ |angleCos n ts| * 2 ^ p ≤ 6 * weight ts) := by
  have h := weighted_bound n p hn ts
  have h2 : (0:ℝ) < 2 ^ p := by positivity
  unfold signAt
  simp only []
  generalize weighted (cosTable n p) n ts = v at *
  rw [abs_le] at h
  split_ifs with g l
  · left
    have gR : (3 * weight ts : ℝ) < v := by exact_mod_cast g
    have : 0 < angleCos n ts := by nlinarith [h.1, h.2]
    rw [signOf, if_neg (by linarith), if_pos this]
  · left
    have lR : (v : ℝ) < -(3 * weight ts : ℝ) := by exact_mod_cast l
    have : angleCos n ts < 0 := by nlinarith [h.1, h.2]
    rw [signOf, if_pos this]
  · right
    have gR : (v : ℝ) ≤ (3 * weight ts : ℝ) := by exact_mod_cast (not_lt.mp g)
    have lR : -(3 * weight ts : ℝ) ≤ v := by exact_mod_cast (not_lt.mp l)
    refine ⟨rfl, ?_⟩
    rcases abs_cases (angleCos n ts) with ⟨e, _⟩ | ⟨e, _⟩ <;> rw [e] <;> nlinarith [h.1, h.2]

theorem signFrom_eq (n : ℕ) (hn : 0 < n) (ts : AngleSum) (fuel p : ℕ)
    (h : 6 * (weight ts : ℝ) < |angleCos n ts| * 2 ^ (p * 2 ^ fuel)) :
    signFrom n ts (fuel + 1) p = signOf (angleCos n ts) := by
  induction fuel generalizing p with
  | zero =>
    rcases signAt_eq_or n p hn ts with e | ⟨_, b⟩
    · simp only [signFrom, e]
      cases signOf (angleCos n ts) <;> rfl
    · simp only [pow_zero, mul_one] at h
      linarith
  | succ k ih =>
    have next := ih (2 * p) (by rwa [show 2 * p * 2 ^ k = p * 2 ^ (k + 1) from by ring])
    rw [signFrom]
    rcases signAt_eq_or n p hn ts with e | ⟨e, _⟩
    · rw [e]
      cases hs : signOf (angleCos n ts)
      · rfl
      · rw [next, hs]
      · rfl
    · rw [e]; exact next

/-! ## The vanishing test -/

/-- The primitive root `exp(2 pi i / n)`. -/
noncomputable def rootOfUnity (n : ℕ) : ℂ := Complex.exp (2 * π * Complex.I / n)

theorem rootOfUnity_primitive (n : ℕ) (hn : 0 < n) : IsPrimitiveRoot (rootOfUnity n) n :=
  Complex.isPrimitiveRoot_exp n hn.ne'

theorem root_pow_add (n m : ℕ) (hn : 0 < n) :
    rootOfUnity n ^ (m % n) + rootOfUnity n ^ ((n - m % n) % n) = ((2 * Real.cos (2 * π * m / n) : ℝ) : ℂ) := by
  have hp := (rootOfUnity_primitive n hn).pow_eq_one
  have hnC : (n:ℂ) ≠ 0 := by exact_mod_cast hn.ne'
  have hlt := Nat.mod_lt m hn
  rw [← cos_mod n m hn]
  set r := m % n with hr
  have e1 : rootOfUnity n ^ r = Complex.exp ((2 * π * r / n : ℝ) * Complex.I) := by
    rw [rootOfUnity, ← Complex.exp_nat_mul]; congr 1; push_cast; ring
  have e2 : rootOfUnity n ^ ((n - r) % n) = Complex.exp (-((2 * π * r / n : ℝ) * Complex.I)) := by
    have : rootOfUnity n ^ ((n - r) % n) * rootOfUnity n ^ r = 1 := by
      have h1 : rootOfUnity n ^ ((n - r) % n) = rootOfUnity n ^ (n - r) := by
        conv_rhs => rw [← Nat.mod_add_div (n - r) n, pow_add, pow_mul, hp, one_pow, mul_one]
      rw [h1, ← pow_add, Nat.sub_add_cancel hlt.le, hp]
    rw [Complex.exp_neg, ← e1]
    exact eq_inv_of_mul_eq_one_left this
  rw [e1, e2]
  have := Complex.two_cos (x := ((2 * π * r / n : ℝ) : ℂ))
  push_cast at this ⊢
  rw [this, neg_mul]

/-- A list of coefficients as a polynomial, evaluated at `z`. -/
noncomputable def polyEval (z : ℂ) (c : List ℤ) : ℂ := ∑ i ∈ range c.length, (c.getD i 0 : ℤ) * z ^ i

theorem polyEval_residues (n : ℕ) (hn : 0 < n) (ts : AngleSum) :
    polyEval (rootOfUnity n) ((List.range n).map fun r => residueSum n r ts) = ((2 * angleCos n ts : ℝ) : ℂ) := by
  have h0 : ∀ ts, polyEval (rootOfUnity n) ((List.range n).map fun r => residueSum n r ts)
      = ∑ r ∈ range n, (residueSum n r ts : ℤ) * rootOfUnity n ^ r := by
    intro ts
    simp only [polyEval, List.length_map, List.length_range]
    refine sum_congr rfl fun r hr => ?_
    simp [List.getD, List.getElem?_range (mem_range.mp hr)]
  rw [h0]
  induction ts with
  | nil => simp [residueSum]
  | cons t ts ih =>
    obtain ⟨a, m⟩ := t
    have ha := root_pow_add n m hn
    have l1 : m % n ∈ range n := mem_range.mpr (Nat.mod_lt m hn)
    have l2 : (n - m % n) % n ∈ range n := mem_range.mpr (Nat.mod_lt _ hn)
    simp only [residueSum, angleCos_cons]
    push_cast
    simp only [add_mul, sum_add_distrib]
    rw [ih, show ∑ r ∈ range n, ((if m % n = r then (a : ℂ) else 0)) * rootOfUnity n ^ r = a * rootOfUnity n ^ (m % n) by
        simp [ite_mul, sum_ite_eq, l1],
      show ∑ r ∈ range n, ((if (n - m % n) % n = r then (a : ℂ) else 0)) * rootOfUnity n ^ r
          = a * rootOfUnity n ^ ((n - m % n) % n) by
        simp [ite_mul, sum_ite_eq, Nat.mod_lt _ hn],
      ← mul_add, ha]
    push_cast; ring

theorem shiftDifference_length (c : List ℤ) (d : ℕ) : (shiftDifference c d).length = c.length := by
  simp [shiftDifference]

theorem polyEval_shiftDifference (z : ℂ) (c : List ℤ) (d : ℕ) (hd : d < c.length) (hz : z ^ c.length = 1) :
    polyEval z (shiftDifference c d) = (z ^ d - 1) * polyEval z c := by
  set n := c.length with hn
  have hlen := shiftDifference_length c d
  have key : ∀ i ∈ range n, (((shiftDifference c d).getD i 0 : ℤ) : ℂ) * z ^ i
      = ((c.getD ((i + (n - d)) % n) 0 : ℤ) : ℂ) * z ^ i - ((c.getD i 0 : ℤ) : ℂ) * z ^ i := by
    intro i hi
    have hi := mem_range.mp hi
    rw [← sub_mul]
    congr 1
    have g : (shiftDifference c d).getD i 0 = c.getD ((i + (n - d)) % n) 0 - c.getD i 0 := by
      have hrot : (c.drop (n - d) ++ c.take (n - d))[i]? = getElem? c ((i + (n - d)) % n) := by
        rw [List.getElem?_append]
        simp only [List.length_drop, ← hn]
        split_ifs with h
        · rw [List.getElem?_drop, Nat.mod_eq_of_lt (by omega), Nat.add_comm]
        · rw [List.getElem?_take_of_lt (by omega), Nat.mod_eq_sub_mod (by omega), Nat.mod_eq_of_lt (by omega)]
          congr 1; omega
      simp only [shiftDifference, List.getD, List.getElem?_zipWith, ← hn, hrot]
      have h1 : (i + (n - d)) % n < n := Nat.mod_lt _ (by omega)
      rw [List.getElem?_eq_getElem (by omega), List.getElem?_eq_getElem (by omega)]
      rfl
    rw [g]; push_cast; rfl
  unfold polyEval
  rw [hlen, ← hn, sum_congr rfl key, sum_sub_distrib, sub_mul, one_mul, mul_sum]
  congr 1
  have hmod : ∀ k, z ^ (k % n) = z ^ k := by
    intro k
    conv_rhs => rw [← Nat.mod_add_div k n, pow_add, pow_mul, hz, one_pow, mul_one]
  refine sum_nbij' (fun i => (i + (n - d)) % n) (fun j => (j + d) % n) ?_ ?_ ?_ ?_ ?_
  · intro i _; exact mem_range.mpr (Nat.mod_lt _ (by omega))
  · intro i _; exact mem_range.mpr (Nat.mod_lt _ (by omega))
  · intro i hi
    have hi := mem_range.mp hi
    show ((i + (n - d)) % n + d) % n = i
    rw [Nat.mod_add_mod, show i + (n - d) + d = i + n from by omega, Nat.add_mod_right, Nat.mod_eq_of_lt hi]
  · intro i hi
    have hi := mem_range.mp hi
    show ((i + d) % n + (n - d)) % n = i
    rw [Nat.mod_add_mod, show i + d + (n - d) = i + n from by omega, Nat.add_mod_right, Nat.mod_eq_of_lt hi]
  · intro i hi
    have hi := mem_range.mp hi
    have : z ^ d * z ^ ((i + (n - d)) % n) = z ^ i := by
      rw [hmod, ← pow_add, show d + (i + (n - d)) = i + n from by omega, pow_add, hz, mul_one]
    rw [← this]; ring

theorem polyEval_fold (n : ℕ) (hn : 0 < n) (ds : List ℕ) (hds : ∀ d ∈ ds, 0 < d ∧ d < n) (c : List ℤ) (hc : c.length = n)
    (h : polyEval (rootOfUnity n) (ds.foldl shiftDifference c) = 0) : polyEval (rootOfUnity n) c = 0 := by
  induction ds generalizing c with
  | nil => exact h
  | cons d ds ih =>
    obtain ⟨h0, h1⟩ := hds d (by simp)
    have prim := rootOfUnity_primitive n hn
    have step := ih (fun e he => hds e (by simp [he])) (shiftDifference c d) (by rw [shiftDifference_length, hc]) h
    rw [polyEval_shiftDifference _ _ _ (by rw [hc]; exact h1) (by rw [hc]; exact prim.pow_eq_one)] at step
    refine (mul_eq_zero.mp step).resolve_left (sub_ne_zero.mpr ?_)
    exact prim.pow_ne_one_of_pos_of_lt h0.ne' h1

theorem vanishes_sound (n : ℕ) (hn : 0 < n) (ts : AngleSum) (h : vanishes n ts = true) : angleCos n ts = 0 := by
  unfold vanishes at h
  have z : polyEval (rootOfUnity n) ((properDivisors n).foldl shiftDifference ((List.range n).map fun r => residueSum n r ts)) = 0 := by
    refine sum_eq_zero fun i hi => ?_
    have hi := mem_range.mp hi
    have := List.all_eq_true.mp h _ (List.getElem_mem hi)
    rw [List.getD_eq_getElem _ _ hi, beq_iff_eq.mp this]; simp
  have := polyEval_fold n hn _ (fun d hd => by
    simp only [properDivisors, List.mem_filter, List.mem_range, Bool.and_eq_true, decide_eq_true_eq] at hd
    exact ⟨hd.2.1, hd.1⟩) _ (by simp) z
  rw [polyEval_residues n hn] at this
  have h2 : (2 * angleCos n ts : ℝ) = 0 := by exact_mod_cast this
  linarith

theorem content_dvd (ts : AngleSum) : ∀ t ∈ ts, (content ts : ℤ) ∣ t.1 := by
  induction ts with
  | nil => simp
  | cons t ts ih =>
    obtain ⟨a, m⟩ := t
    intro u hu
    rcases List.mem_cons.mp hu with rfl | hu
    · exact Int.natCast_dvd.mpr (Nat.gcd_dvd_left _ _)
    · exact (Int.natCast_dvd_natCast.mpr (Nat.gcd_dvd_right a.natAbs (content ts))).trans (ih u hu)

theorem content_pos (ts : AngleSum) (h : weight ts ≠ 0) : 0 < content ts := by
  induction ts with
  | nil => simp [weight] at h
  | cons t ts ih =>
    obtain ⟨a, m⟩ := t
    simp only [weight] at h
    rcases Nat.eq_zero_or_pos a.natAbs with e | e
    · exact Nat.gcd_pos_of_pos_right _ (ih (by omega))
    · exact Nat.gcd_pos_of_pos_left _ e

theorem angleCos_divideTerms (n g : ℕ) (hg : 0 < g) (ts : AngleSum) (h : ∀ t ∈ ts, (g : ℤ) ∣ t.1) :
    angleCos n ts = g * angleCos n (divideTerms g ts) := by
  induction ts with
  | nil => simp [divideTerms]
  | cons t ts ih =>
    have hgR : (g:ℝ) ≠ 0 := by exact_mod_cast hg.ne'
    have e : ((t.1 / (g:ℤ) : ℤ) : ℝ) = t.1 / g := by
      rw [Int.cast_div (h t (by simp)) (by exact_mod_cast hg.ne')]; simp
    have := ih fun u hu => h u (by simp [hu])
    simp only [divideTerms, List.map_cons, angleCos_cons] at *
    rw [e, this]; field_simp

theorem weight_zero (n : ℕ) (ts : AngleSum) (h : weight ts = 0) : angleCos n ts = 0 := by
  induction ts with
  | nil => rfl
  | cons t ts ih =>
    obtain ⟨a, m⟩ := t
    simp only [weight, Nat.add_eq_zero_iff, Int.natAbs_eq_zero] at h
    simp [h.1, ih h.2]

/-! ## Separation from zero -/

/-- Twice a sum of cosines, as an element of any commutative ring with a root `z` of order `n`. -/
def rootSum {R : Type*} [CommRing R] (z : R) (n : ℕ) (ts : AngleSum) : R :=
  (ts.map fun t => (t.1 : R) * (z ^ (t.2 % n) + z ^ ((n - t.2 % n) % n))).sum

theorem rootSum_complex (n : ℕ) (hn : 0 < n) (ts : AngleSum) :
    rootSum (rootOfUnity n) n ts = ((2 * angleCos n ts : ℝ) : ℂ) := by
  induction ts with
  | nil => simp [rootSum]
  | cons t ts ih =>
    simp only [rootSum, List.map_cons, List.sum_cons, angleCos_cons] at ih ⊢
    rw [ih, root_pow_add n t.2 hn]; push_cast; ring

theorem map_rootSum {R S : Type*} [CommRing R] [CommRing S] (f : R →+* S) (z : R) (n : ℕ) (ts : AngleSum) :
    f (rootSum z n ts) = rootSum (f z) n ts := by
  induction ts with
  | nil => simp [rootSum]
  | cons t ts ih =>
    simp only [rootSum, List.map_cons, List.sum_cons] at ih ⊢
    rw [map_add, ih]; simp

theorem rootSum_norm_le (z : ℂ) (hz : ‖z‖ = 1) (n : ℕ) (ts : AngleSum) : ‖rootSum z n ts‖ ≤ 2 * weight ts := by
  induction ts with
  | nil => simp [rootSum, weight]
  | cons t ts ih =>
    obtain ⟨a, m⟩ := t
    simp only [rootSum, List.map_cons, List.sum_cons, weight] at ih ⊢
    have h1 : ‖(a : ℂ) * (z ^ (m % n) + z ^ ((n - m % n) % n))‖ ≤ a.natAbs * 2 := by
      rw [norm_mul]
      have : ‖(a : ℂ)‖ = (a.natAbs : ℝ) := by
        rw [Complex.norm_intCast, Nat.cast_natAbs]; simp
      rw [this]
      gcongr
      refine (norm_add_le _ _).trans ?_
      rw [norm_pow, norm_pow, hz]; norm_num
    have := (norm_add_le _ _).trans (add_le_add h1 ih)
    push_cast
    linarith

theorem rootSum_integral {R : Type*} [CommRing R] (z : R) (hz : IsIntegral ℤ z) (n : ℕ) (ts : AngleSum) :
    IsIntegral ℤ (rootSum z n ts) := by
  induction ts with
  | nil => exact isIntegral_zero
  | cons t ts ih =>
    simp only [rootSum, List.map_cons, List.sum_cons] at ih ⊢
    refine IsIntegral.add (IsIntegral.mul ?_ ((hz.pow _).add (hz.pow _))) ih
    exact isIntegral_algebraMap (R := ℤ) (x := t.1)

/-- A nonzero sum is separated from zero: the norm of twice the sum is a nonzero integer, and none of its conjugates exceeds
twice the weight. -/
theorem angleCos_separated_in (n : ℕ) (K : Type) [Field K] [Algebra ℚ K] [IsCyclotomicExtension {n} ℚ K] (hn : 0 < n)
    (ts : AngleSum) (h : angleCos n ts ≠ 0) :
    1 ≤ |2 * angleCos n ts| * (2 * (weight ts : ℝ)) ^ (n - 1) := by
  have : NeZero n := ⟨hn.ne'⟩
  classical
  have hz : IsPrimitiveRoot (IsCyclotomicExtension.zeta n ℚ K) n := IsCyclotomicExtension.zeta_spec n ℚ K
  set z := IsCyclotomicExtension.zeta n ℚ K with hzd
  have irr : Irreducible (Polynomial.cyclotomic n ℚ) := Polynomial.cyclotomic.irreducible_rat hn
  have : FiniteDimensional ℚ K := IsCyclotomicExtension.finiteDimensional {n} ℚ K
  obtain ⟨σ0, hσ0⟩ : ∃ σ : K →ₐ[ℚ] ℂ, σ z = rootOfUnity n := by
    let e := hz.embeddingsEquivPrimitiveRoots ℂ irr
    have hm : rootOfUnity n ∈ primitiveRoots n ℂ := (mem_primitiveRoots hn).mpr (rootOfUnity_primitive n hn)
    refine ⟨e.symm ⟨_, hm⟩, ?_⟩
    have := congrArg Subtype.val (e.apply_symm_apply ⟨_, hm⟩)
    rwa [IsPrimitiveRoot.embeddingsEquivPrimitiveRoots_apply_coe] at this
  set β : K := rootSum z n ts with hβ
  have hσ : ∀ σ : K →ₐ[ℚ] ℂ, ‖σ β‖ ≤ 2 * weight ts := by
    intro σ
    have e : σ β = rootSum (σ z) n ts := map_rootSum σ.toRingHom z n ts
    rw [e]
    refine rootSum_norm_le _ ?_ n ts
    have : (σ z) ^ n = 1 := by rw [← map_pow, hz.pow_eq_one, map_one]
    exact Complex.norm_eq_one_of_pow_eq_one this hn.ne'
  have h0 : σ0 β = ((2 * angleCos n ts : ℝ) : ℂ) := by
    have e : σ0 β = rootSum (σ0 z) n ts := map_rootSum σ0.toRingHom z n ts
    rw [e, hσ0, rootSum_complex n hn]
  have hb0 : β ≠ 0 := by
    intro hb
    rw [hb, map_zero] at h0
    have : (2 * angleCos n ts : ℝ) = 0 := by exact_mod_cast h0.symm
    exact h (by linarith)
  have hint : IsIntegral ℤ β := rootSum_integral z (hz.isIntegral hn) n ts
  have hN0 : Algebra.norm ℚ β ≠ 0 := Algebra.norm_ne_zero_iff.mpr hb0
  obtain ⟨N, hN⟩ : ∃ N : ℤ, (N : ℚ) = Algebra.norm ℚ β := by
    have := Algebra.isIntegral_norm ℚ hint
    obtain ⟨N, hN⟩ := IsIntegrallyClosed.isIntegral_iff.mp this
    exact ⟨N, hN⟩
  have hN1 : (1:ℝ) ≤ |(N:ℝ)| := by
    have : N ≠ 0 := by rintro rfl; exact hN0 (by rw [← hN]; simp)
    exact_mod_cast Int.one_le_abs this
  have hprod := Algebra.norm_eq_prod_embeddings ℚ ℂ β
  rw [← hN] at hprod
  have hprod' : (N : ℂ) = ∏ σ : K →ₐ[ℚ] ℂ, σ β := by simpa using hprod
  have hnorm : |(N:ℝ)| = ∏ σ : K →ₐ[ℚ] ℂ, ‖σ β‖ := by
    rw [← norm_prod, ← hprod', Complex.norm_intCast]
  have hcard : Fintype.card (K →ₐ[ℚ] ℂ) ≤ n := by
    rw [AlgHom.card, IsCyclotomicExtension.finrank K irr]
    exact Nat.totient_le n
  rw [hnorm, ← mul_prod_erase univ _ (mem_univ σ0), h0] at hN1
  have hW : (1:ℝ) ≤ 2 * weight ts := by
    have : weight ts ≠ 0 := by
      intro hw
      have := hσ σ0
      rw [h0, hw, Complex.norm_real] at this
      simp only [Nat.cast_zero, mul_zero, norm_le_zero_iff] at this
      exact h (by linarith)
    have : (1:ℝ) ≤ weight ts := by exact_mod_cast Nat.one_le_iff_ne_zero.mpr this
    linarith
  refine hN1.trans ?_
  rw [Complex.norm_real, Real.norm_eq_abs]
  gcongr
  calc ∏ σ ∈ univ.erase σ0, ‖σ β‖ ≤ ∏ _σ ∈ univ.erase σ0, (2 * (weight ts : ℝ)) :=
        prod_le_prod (fun _ _ => norm_nonneg _) (fun σ _ => hσ σ)
    _ = (2 * (weight ts : ℝ)) ^ (univ.erase σ0).card := by rw [prod_const]
    _ ≤ _ := by
        refine pow_le_pow_right₀ hW ?_
        rw [card_erase_of_mem (mem_univ _), card_univ]
        omega

theorem angleCos_separated (n : ℕ) (hn : 0 < n) (ts : AngleSum) (h : angleCos n ts ≠ 0) :
    1 ≤ |2 * angleCos n ts| * (2 * (weight ts : ℝ)) ^ (n - 1) :=
  have : NeZero n := ⟨hn.ne'⟩
  @angleCos_separated_in n (CyclotomicField n ℚ) _ (CyclotomicField.algebra n ℚ)
    (CyclotomicField.isCyclotomicExtension n ℚ) hn ts h

/-! ## The sign, and the order of powers -/

@[simp] theorem signOf_zero : signOf 0 = .eq := by simp [signOf]

theorem signAt_zero (n p : ℕ) (hn : 0 < n) (ts : AngleSum) (h : angleCos n ts = 0) : signAt n ts p = .eq := by
  rcases signAt_eq_or n p hn ts with e | ⟨e, _⟩
  · rw [e, h, signOf_zero]
  · exact e

theorem signFrom_zero (n : ℕ) (hn : 0 < n) (ts : AngleSum) (h : angleCos n ts = 0) (fuel p : ℕ) :
    signFrom n ts fuel p = .eq := by
  induction fuel generalizing p with
  | zero => rfl
  | succ k ih => rw [signFrom, signAt_zero n p hn ts h]; exact ih (2 * p)

/-- After the doublings the precision separates a nonzero sum from zero. -/
theorem doublings_suffice (n : ℕ) (hn : 0 < n) (ts : AngleSum) (h : angleCos n ts ≠ 0) :
    6 * (weight ts : ℝ) < |angleCos n ts| * 2 ^ (64 * 2 ^ (doublings n ts - 1)) := by
  have hW : weight ts ≠ 0 := fun e => h (weight_zero n ts e)
  set W := weight ts with hWd
  have hW1 : (0:ℝ) < 2 * W := by
    have : (0:ℝ) < W := by exact_mod_cast Nat.pos_of_ne_zero hW
    linarith
  set L := Nat.log2 W + 2 with hL
  have hprec : n * L + 4 ≤ 64 * 2 ^ (doublings n ts - 1) := by
    have e : doublings n ts - 1 = Nat.log2 ((n * L + 4) / 64) + 1 := by simp [doublings, hL, hWd]
    rw [e]
    have := @Nat.lt_log2_self ((n * L + 4) / 64)
    omega
  have hWL : (2 * W : ℝ) ≤ 2 ^ L := by
    have := @Nat.lt_log2_self W
    have h2 : 2 * W ≤ 2 ^ L := by rw [hL, pow_succ]; omega
    exact_mod_cast h2
  have hsep := angleCos_separated n hn ts h
  rw [abs_mul, abs_of_pos (by norm_num : (0:ℝ) < 2)] at hsep
  have hpow : (2:ℝ) ^ (n * L + 4) ≤ 2 ^ (64 * 2 ^ (doublings n ts - 1)) := pow_le_pow_right₀ (by norm_num) hprec
  have hn1 : (2 * (W:ℝ)) ^ n = (2 * W) ^ (n - 1) * (2 * W) := by
    rw [← pow_succ]; congr 1; omega
  have hle : (2 * (W:ℝ)) ^ n ≤ 2 ^ (n * L) := by
    rw [mul_comm n L, pow_mul]; exact pow_le_pow_left₀ hW1.le hWL n
  set A := |angleCos n ts| with hA
  have hA0 : 0 ≤ A := abs_nonneg _
  have hP : (0:ℝ) < (2 * W) ^ (n - 1) := pow_pos hW1 _
  have key : 6 * (W:ℝ) * (2 * W) ^ (n - 1) < A * 2 ^ (n * L + 4) * (2 * W) ^ (n - 1) := by
    have : A * 2 ^ (n * L + 4) * (2 * W) ^ (n - 1) = (2 * A * (2 * W) ^ (n - 1)) * (8 * 2 ^ (n * L)) := by ring
    rw [this]
    have h8 : 8 * (2:ℝ) ^ (n * L) ≤ (2 * A * (2 * W) ^ (n - 1)) * (8 * 2 ^ (n * L)) :=
      le_mul_of_one_le_left (by positivity) hsep
    have : 6 * (W:ℝ) * (2 * W) ^ (n - 1) = 3 * (2 * W) ^ n := by rw [hn1]; ring
    rw [this]
    have : (0:ℝ) < 2 ^ (n * L) := by positivity
    linarith
  have := lt_of_mul_lt_mul_right key hP.le
  calc 6 * (W:ℝ) < A * 2 ^ (n * L + 4) := this
    _ ≤ _ := by gcongr

theorem primitiveSign_eq (n : ℕ) (hn : 0 < n) (ts : AngleSum) : primitiveSign n ts = signOf (angleCos n ts) := by
  have rest : (if vanishes n ts then Ordering.eq else signFrom n ts (doublings n ts) 64) = signOf (angleCos n ts) := by
    split_ifs with v
    · rw [vanishes_sound n hn ts v, signOf_zero]
    · by_cases h : angleCos n ts = 0
      · rw [signFrom_zero n hn ts h, h, signOf_zero]
      · have := signFrom_eq n hn ts (doublings n ts - 1) 64 (doublings_suffice n hn ts h)
        rwa [Nat.sub_add_cancel (by simp [doublings])] at this
  unfold primitiveSign
  rcases signAt_eq_or n 64 hn ts with e | ⟨e, _⟩
  · rw [e]
    cases hs : signOf (angleCos n ts)
    · rfl
    · rw [hs] at rest; exact rest
    · rfl
  · rw [e]; exact rest

theorem signOf_mul_pos (g x : ℝ) (hg : 0 < g) : signOf (g * x) = signOf x := by
  simp only [signOf, mul_pos_iff_of_pos_left hg, mul_neg_iff, hg, hg.not_gt, true_and, false_and, or_false]

/-- `cosSign` is the sign of the real number. -/
theorem cosSign_eq (n : ℕ) (hn : 0 < n) (ts : AngleSum) : cosSign n ts = signOf (angleCos n ts) := by
  unfold cosSign
  split_ifs with h
  · rw [weight_zero n ts h, signOf_zero]
  · have hg := content_pos ts h
    rw [primitiveSign_eq n hn, angleCos_divideTerms n (content ts) hg ts (content_dvd ts),
      signOf_mul_pos _ _ (by exact_mod_cast hg)]
    rfl

theorem signOf_eq_gt (x : ℝ) : signOf x = .gt ↔ 0 < x := by
  unfold signOf
  split_ifs with a b
  · simp; exact a.le
  · simp [b]
  · simp [b]

theorem angleCos_scaleTerms (n : ℕ) (k : ℤ) (ts : AngleSum) : angleCos n (scaleTerms k ts) = k * angleCos n ts := by
  induction ts with
  | nil => simp [scaleTerms]
  | cons t ts ih =>
    simp only [scaleTerms, List.map_cons, angleCos_cons] at ih ⊢
    rw [ih]; push_cast; ring

theorem angleCos_refineTerms (n k : ℕ) (hk : 0 < k) (ts : AngleSum) :
    angleCos (n * k) (refineTerms k ts) = angleCos n ts := by
  induction ts with
  | nil => rfl
  | cons t ts ih =>
    simp only [refineTerms, List.map_cons, angleCos_cons] at ih ⊢
    rw [ih]
    congr 3
    have : (k:ℝ) ≠ 0 := by exact_mod_cast hk.ne'
    push_cast
    rw [show 2 * π * ((k:ℝ) * t.2) = (2 * π * t.2) * k by ring, mul_div_mul_right _ _ this]

/-- `powerGt` is the order of the real numbers (43_spectral_estimator.md R164). -/
theorem powerGt_iff (p q : Power) (hp : p.wf = true) (hq : q.wf = true) : powerGt p q = true ↔ q.value < p.value := by
  simp only [Power.wf, Bool.and_eq_true, decide_eq_true_eq] at hp hq
  have hpd : (0:ℝ) < p.den := by exact_mod_cast hp.1
  have hqd : (0:ℝ) < q.den := by exact_mod_cast hq.1
  have hco : 0 < commonOrder p q := by
    unfold commonOrder; split_ifs
    · exact hp.2
    · exact Nat.mul_pos hp.2 hq.2
  have e : angleCos (commonOrder p q) (powerDifference p q)
      = q.den * angleCos p.order p.terms - p.den * angleCos q.order q.terms := by
    unfold commonOrder powerDifference
    split_ifs with h
    · rw [angleCos_append, angleCos_scaleTerms, angleCos_scaleTerms, h]; push_cast; ring
    · rw [angleCos_append, angleCos_scaleTerms, angleCos_scaleTerms, angleCos_refineTerms _ _ hq.2,
        Nat.mul_comm p.order, angleCos_refineTerms _ _ hp.2]
      push_cast; ring
  unfold powerGt
  rw [beq_iff_eq, cosSign_eq _ hco, signOf_eq_gt, e, sub_pos, Power.value, Power.value, div_lt_div_iff₀ hqd hpd,
    mul_comm, mul_comm (q.den : ℝ)]

end Sys2Proof.Machine
end

