-- ==== Sys2Proof/Laws/Decode.lean ====
section
/-!
SUPPORT. The bits of a packed frame (45_dac_codec.md R205).
-/

namespace Sys2Proof

/-- Each bit of a packed frame: two pad bits, ten code bits, four control bits. -/
theorem packBits_getLsbD (ctrl : BitVec 4) (code : DacCode) (i : Nat) :
    (packBits ctrl code).getLsbD i
      = if i < 2 then false else if i < 12 then code.getLsbD (i - 2) else ctrl.getLsbD (i - 12) := by
  refine (BitVec.getLsbD_append (x := ctrl ++ code) (y := (0 : BitVec 2)) (i := i)).trans ?_
  rw [BitVec.getLsbD_append]
  by_cases h : i < 2
  · simp [h]
  · by_cases g : i < 12
    · simp [h, g, show i - 2 < 10 by omega]
    · simp [h, g, show ¬ i - 2 < 10 by omega, Nat.sub_sub]

/-- The control field of a packed frame. -/
@[simp] theorem packBits_ctrl (ctrl : BitVec 4) (code : DacCode) : (packBits ctrl code).extractLsb' 12 4 = ctrl := by
  apply BitVec.eq_of_getLsbD_eq
  intro k hk
  simp only [BitVec.getLsbD_extractLsb', packBits_getLsbD]
  interval_cases k <;> simp

/-- The code field of a packed frame. -/
@[simp] theorem packBits_code (ctrl : BitVec 4) (code : DacCode) : (packBits ctrl code).extractLsb' 2 10 = code := by
  apply BitVec.eq_of_getLsbD_eq
  intro k hk
  simp only [BitVec.getLsbD_extractLsb', packBits_getLsbD]
  interval_cases k <;> simp

/-- The pad field of a packed frame. -/
@[simp] theorem packBits_pad (ctrl : BitVec 4) (code : DacCode) : (packBits ctrl code).extractLsb' 0 2 = 0 := by
  apply BitVec.eq_of_getLsbD_eq
  intro k hk
  simp only [BitVec.getLsbD_extractLsb', packBits_getLsbD]
  interval_cases k <;> simp

end Sys2Proof
end

