-- ==== Sys2Proof/Laws/Operands.lean ====
section
/-!
SUPPORT. What the operand reads and the enabling conditions can answer, each said once.
-/

namespace Sys2Proof.Machine

/-- A table read gives the entry, and nothing else gives one (20_memory.md R61). -/
theorem readTable_eq_ok {t : List F32} {i : Nat} {v : F32} : readTable t i = .ok v ↔ t[i]? = some v := by
  unfold readTable
  cases t[i]? <;> simp

/-- A table read inside the table never faults (20_memory.md R61). -/
theorem readTable_of_lt {t : List F32} {i : Nat} (h : i < t.length) : readTable t i = .ok t[i] :=
  readTable_eq_ok.mpr (List.getElem?_eq_getElem h)

/-- A table read faults exactly outside the table (20_memory.md R61). -/
theorem readTable_eq_error {t : List F32} {i : Nat} {f : Fault} :
    readTable t i = .error f ↔ t.length ≤ i ∧ f = .tableRange := by
  unfold readTable
  rcases h : t[i]? with _ | v
  · simpa [List.getElem?_eq_none_iff.mp h] using eq_comm
  · simpa using fun g => absurd (List.getElem?_eq_some_iff.mp h).1 (by omega)

/-- Reading the buffer gives the codes of a whole capture (20_memory.md R62, R65). -/
theorem readBuffer_eq_ok {s : State} {codes : List Nat} :
    s.readBuffer = .ok codes ↔ s.buf = some codes ∧ codes.length = s.cfg.nsamp := by
  unfold State.readBuffer
  rcases s.buf with _ | d
  · simp
  · by_cases h : d.length = s.cfg.nsamp
    · simpa [h] using fun e => e ▸ h
    · simpa [h] using fun e => e ▸ h

/-- An operand read that leads to a next state gave a value. -/
theorem orFault_eq_next {α : Type} {e : Except Fault α} {k : α → Answer} {t : State} :
    orFault e k = .next t ↔ ∃ x, e = .ok x ∧ k x = .next t := by
  cases e <;> simp [orFault]

/-- An operand read that leads to a fault faulted, or what follows did. -/
theorem orFault_eq_fault {α : Type} {e : Except Fault α} {k : α → Answer} {f : Fault} :
    orFault e k = .fault f ↔ e = .error f ∨ ∃ x, e = .ok x ∧ k x = .fault f := by
  cases e <;> simp [orFault]

@[simp] theorem orFault_ok {α : Type} (x : α) (k : α → Answer) : orFault (.ok x) k = k x := rfl

@[simp] theorem orFault_error {α : Type} (f : Fault) (k : α → Answer) : orFault (.error f) k = .fault f := rfl

/-- When the event port accepts a word (46_event_dispatcher.md R229). -/
theorem accepts_iff {s : State} {i : Instr} :
    s.accepts i = true ↔ s.cfg.mode = .event ∧ s.seq = .idle ∧ ∃ ev, s.offer = some ev ∧ decodeEvent ev = i := by
  unfold State.accepts
  rcases s.offer with _ | ev
  · simp
  · simp [and_assoc]

/-- The enabled step in `Idle` (46_event_dispatcher.md R220). -/
theorem enabledStep_idle {s : State} (h : s.seq = .idle) :
    s.enabledStep = match s.cfg.mode with | .spectral => some .freeRunTrigger | .event => s.offer.map decodeEvent := by
  cases s
  cases h
  rfl

/-- The enabled step in `Sampling` (46_event_dispatcher.md R220). -/
theorem enabledStep_sampling {s : State} {c : Chan} (h : s.seq = .sampling c) :
    s.enabledStep = if s.adcDone then
      (match s.cfg.mode, c with
        | .event, _ => some .voltagePath
        | .spectral, .a => some .spectralPath
        | .spectral, .b => none) else none := by
  cases s
  cases h
  rfl

/-- The enabled step with a write outstanding (46_event_dispatcher.md R220). -/
theorem enabledStep_writing {s : State} {c : Chan} {v : F32} (h : s.seq = .emitting c (some v)) :
    s.enabledStep = if s.dacDone then some .writeDone else none := by
  simp only [State.enabledStep, h]

/-- The enabled step in a hold (46_event_dispatcher.md R220). -/
theorem enabledStep_holding {s : State} {c : Chan} (h : s.seq = .emitting c none) :
    s.enabledStep = some .holdDone := by
  simp only [State.enabledStep, h]

end Sys2Proof.Machine
end

