-- ==== Sys2Proof/Laws/Dispatcher.lean ====
section
/-!
SUPPORT. What the sequencer's steps and the collaborators' steps can do, each said once, for later proofs to cite in place of
unfolding the meanings.
-/

namespace Sys2Proof.Machine

/-! ## The quantizer and the corrector stay in the table -/

/-- The search inside a table gives an index of the table (41_quantizer.md R121). -/
theorem quantizeLoop_ok (x : F32) (t : List F32) (fuel l u : Nat) (hl : l < t.length) (hu : u < t.length) :
    ∃ i, quantizeLoop x t fuel l u = .ok i ∧ i < t.length := by
  induction fuel generalizing l u with
  | zero => exact ⟨l, rfl, hl⟩
  | succ fuel ih =>
    unfold quantizeLoop
    split_ifs with h
    · have hm : (l + u) / 2 < t.length := by omega
      rw [readTable_of_lt hm]
      dsimp only
      split_ifs
      · exact ⟨_, rfl, hm⟩
      · exact ih _ _ hm hu
      · exact ih _ _ hl hm
    · exact ⟨l, rfl, hl⟩

/-- `QUANTIZE_FLOOR` on a table that is not empty gives an index of it (41_quantizer.md R121). -/
theorem quantizeFloor_ok (x : F32) (t : List F32) (h : 0 < t.length) : ∃ i, quantizeFloor x t = .ok i ∧ i < t.length := by
  unfold quantizeFloor
  rw [readTable_of_lt h, readTable_of_lt (show t.length - 1 < t.length by omega)]
  dsimp only
  split_ifs
  · exact ⟨0, rfl, h⟩
  · exact ⟨_, rfl, by omega⟩
  · exact quantizeLoop_ok x t _ _ _ h (by omega)

/-- The scan never answers a position above where it starts (42_scale_corrector.md R141). -/
theorem correctScan_le (mask : Degrees) (k : Nat) (p : Int) (j : Nat) (h : correctScan mask k p = .some j) : (j : Int) ≤ p := by
  induction k generalizing p with
  | zero => simp [correctScan] at h
  | succ k ih =>
    unfold correctScan at h
    split_ifs at h with a b
    · cases h
      omega
    · have := ih _ h
      omega

/-- A corrected index is an index of the table (42_scale_corrector.md R141). -/
theorem correct_le (index : Nat) (mask : Degrees) (n j : Nat) (h : correct index mask n = .some j) : j ≤ index := by
  unfold correct at h
  split_ifs at h
  · cases h
    exact le_rfl
  · exact_mod_cast correctScan_le mask 13 index j h

/-! ## How a pipeline ends -/

/-- A frame a pipeline emits is the codec's frame of its voltage (45_dac_codec.md R207). -/
theorem emitVoltage_emit {cfg : Cfg} {c : Chan} {v vo : F32} {fr : Frame} (h : emitVoltage cfg c v = .emit vo fr) :
    encodeVoltage cfg c vo = some fr ∧ vo = v := by
  unfold emitVoltage at h
  split at h
  · cases h
    exact ⟨by assumption, rfl⟩
  · cases h

/-- The codec holds nothing (45_dac_codec.md R207). -/
theorem emitVoltage_ne_hold {cfg : Cfg} {c : Chan} {v : F32} {l : LastOutcome} : emitVoltage cfg c v ≠ .hold l := by
  unfold emitVoltage
  split <;> simp

/-- What an outcome of the voltage path can be: a frame of the codec, one of the two holds, or the numeric fault. -/
abbrev PathEnd.legal (cfg : Cfg) (c : Chan) (e : PathEnd) : Prop :=
  (∃ vo fr, e = .emit vo fr ∧ encodeVoltage cfg c vo = some fr) ∨ (e = .hold .heldEmpty ∨ e = .hold .heldBelow) ∨
    e = .numericFault

/-- A voltage handed to the codec ends legally, and not in a hold. -/
theorem emitVoltage_legal (cfg : Cfg) (c : Chan) (v : F32) :
    (∃ vo fr, emitVoltage cfg c v = .emit vo fr ∧ encodeVoltage cfg c vo = some fr) ∨ emitVoltage cfg c v = .numericFault := by
  rcases h : emitVoltage cfg c v with ⟨vo, fr⟩ | l | _
  · exact .inl ⟨vo, fr, rfl, (emitVoltage_emit h).1⟩
  · exact absurd h emitVoltage_ne_hold
  · exact .inr rfl

/-- A correction ends legally (46_event_dispatcher.md R225). -/
theorem afterCorrection_legal {cfg : Cfg} {vt : List F32} {c : Chan} {r : Correction} {e : PathEnd}
    (h : afterCorrection cfg vt c r = .ok e) : e.legal cfg c := by
  unfold afterCorrection at h
  split at h
  · rename_i j
    rcases hr : readTable vt j with f | v <;> rw [hr] at h
    · cases h
    · simp only [Except.map, Except.ok.injEq] at h
      subst h
      rcases emitVoltage_legal cfg c v with h | h
      · exact .inl h
      · exact .inr (.inr h)
  · cases h
    exact .inr (.inl (.inl rfl))
  · cases h
    exact .inr (.inl (.inr rfl))

/-- The voltage pipeline ends legally (46_event_dispatcher.md R225). -/
theorem voltagePipeline_legal {cfg : Cfg} {vt : List F32} {mask : Degrees} {c : Chan} {buf : List Nat} {e : PathEnd}
    (h : voltagePipeline cfg vt mask c buf = .ok e) : e.legal cfg c := by
  unfold voltagePipeline at h
  split at h
  · cases h
    exact .inr (.inr rfl)
  · split at h
    · exact afterCorrection_legal h
    · cases h

/-- The spectral pipeline ends legally, and not in a hold (46_event_dispatcher.md R226). -/
theorem spectralPipeline_legal {cfg : Cfg} {ft vt : List F32} {buf : List Nat} {e : PathEnd}
    (h : spectralPipeline cfg ft vt buf = .ok e) :
    (∃ vo fr, e = .emit vo fr ∧ encodeVoltage cfg .a vo = some fr) ∨ e = .numericFault := by
  unfold spectralPipeline at h
  split at h
  · rename_i qi _
    rcases hr : readTable vt qi with f | v <;> rw [hr] at h
    · cases h
    · simp only [Except.map, Except.ok.injEq] at h
      subst h
      exact emitVoltage_legal cfg .a v
  · cases h

/-- Every frame of the codec has clear pad bits (30_encoding.md R86). -/
theorem encodeVoltage_pad {cfg : Cfg} {c : Chan} {v : F32} {fr : Frame} (h : encodeVoltage cfg c v = some fr) :
    framePadClear fr := by
  unfold encodeVoltage at h
  obtain ⟨vc, _, rfl⟩ := Option.map_eq_some_iff.mp h
  exact packBits_pad _ _

/-- The codec gives a frame for every voltage but a NaN (45_dac_codec.md R200, R207). -/
theorem encodeVoltage_isSome {cfg : Cfg} {c : Chan} {v : F32} (h : v.isNaN = false) : (encodeVoltage cfg c v).isSome = true := by
  unfold encodeVoltage clampVoltage
  simp only [h, Bool.false_eq_true, if_false]
  split_ifs <;> rfl

/-! ## The two pipelines -/

/-- What `VOLTAGE_PATH` can do: wait, or commit the legal end of the pipeline over the captured codes. -/
theorem execVoltagePath_next {s t : State} (h : execVoltagePath s = .next t) :
    t = s ∨ ∃ c buf e, s.cfg.mode = .event ∧ s.seq = .sampling c ∧ s.adcDone = true ∧ s.buf = some buf ∧
      buf.length = s.cfg.nsamp ∧ voltagePipeline s.cfg s.vt s.mask c buf = .ok e ∧ t = s.consumeCapture.endPath c e := by
  unfold execVoltagePath at h
  split at h
  · rename_i c hm hs ha
    obtain ⟨buf, hb, h⟩ := orFault_eq_next.mp h
    obtain ⟨e, he, h⟩ := orFault_eq_next.mp h
    obtain ⟨h1, h2⟩ := readBuffer_eq_ok.mp hb
    cases h
    exact .inr ⟨c, buf, e, hm, hs, ha, h1, h2, he, rfl⟩
  · cases h
    exact .inl rfl

/-- What `SPECTRAL_PATH` can do: wait, or commit the end of the pipeline over the captured codes. -/
theorem execSpectralPath_next {s t : State} (h : execSpectralPath s = .next t) :
    t = s ∨ ∃ buf e, s.cfg.mode = .spectral ∧ s.seq = .sampling .a ∧ s.adcDone = true ∧ s.buf = some buf ∧
      buf.length = s.cfg.nsamp ∧ spectralPipeline s.cfg s.ft s.vt buf = .ok e ∧ t = s.consumeCapture.endPath .a e := by
  unfold execSpectralPath at h
  split at h
  · rename_i hm hs ha
    obtain ⟨buf, hb, h⟩ := orFault_eq_next.mp h
    obtain ⟨e, he, h⟩ := orFault_eq_next.mp h
    obtain ⟨h1, h2⟩ := readBuffer_eq_ok.mp hb
    cases h
    exact .inr ⟨buf, e, hm, hs, ha, h1, h2, he, rfl⟩
  · cases h
    exact .inl rfl

/-! ## The collaborators -/

/-- What `ADC_COMPLETE` can do: deliver a whole buffer for an outstanding request (60_exceptions.md R277, R281). -/
theorem execAdcComplete_next {s t : State} {codes : List Nat} (h : execAdcComplete codes s = .next t) :
    s.adcReq.isSome = true ∧ wholeBuffer s.cfg codes ∧ t = s.deliverCapture codes := by
  unfold execAdcComplete at h
  split at h
  · cases h
  · rename_i hr
    split_ifs at h with h1 h2
    cases h
    exact ⟨by simp [hr], ⟨h1, h2⟩, rfl⟩

/-- What the DAC's turn can do: latch the requested frame (60_exceptions.md R278, R281). -/
theorem execDac_next {s t : State} {i : Instr} (hi : i = .dacComplete ∨ ∃ ctrl code, i = .dacFrame ctrl code)
    (h : exec i s = .next t) : ∃ c fr, s.dacReq = some (c, fr) ∧ t = s.latchFrame c fr := by
  rcases hi with rfl | ⟨ctrl, code, rfl⟩
  · simp only [exec, execDacComplete] at h
    split at h
    · cases h
    · rename_i c fr hr
      cases h
      exact ⟨c, fr, hr, rfl⟩
  · simp only [exec, execDacFrame] at h
    split at h
    · cases h
    · rename_i c fr hr
      split_ifs at h
      cases h
      exact ⟨c, fr, hr, rfl⟩

/-- A latched frame is the last of its channel and changes no other's (60_exceptions.md R278). -/
theorem lastFrame_append (t : List (Chan × Frame)) (c d : Chan) (fr : Frame) :
    lastFrame (t ++ [(d, fr)]) c = if d = c then some fr else lastFrame t c := by
  unfold lastFrame
  rw [List.filter_append]
  by_cases h : d = c <;> simp [h]

end Sys2Proof.Machine
end

