-- ==== Sys2Proof/Laws/Flags.lean ====
section
/-!
SUPPORT. The fields of the status register: each write gives its field and leaves the others (10_state.md R27).
-/

namespace Sys2Proof

@[simp] theorem statusState_withStatusState (st : BitVec 16) (v : BitVec 2) :
    statusState (withStatusState st v) = v := by
  apply BitVec.eq_of_getLsbD_eq
  intro i hi
  interval_cases i <;> simp [statusState, withStatusState]

@[simp] theorem statusCh_withStatusState (st : BitVec 16) (v : BitVec 2) :
    statusCh (withStatusState st v) = statusCh st := by
  simp [statusCh, withStatusState]

@[simp] theorem statusLast_withStatusState (st : BitVec 16) (v : BitVec 2) :
    statusLast (withStatusState st v) = statusLast st := by
  apply BitVec.eq_of_getLsbD_eq
  intro i hi
  interval_cases i <;> simp [statusLast, withStatusState]

@[simp] theorem statusIllegalEvent_withStatusState (st : BitVec 16) (v : BitVec 2) :
    statusIllegalEvent (withStatusState st v) = statusIllegalEvent st := by
  simp [statusIllegalEvent, withStatusState]

@[simp] theorem statusNumeric_withStatusState (st : BitVec 16) (v : BitVec 2) :
    statusNumeric (withStatusState st v) = statusNumeric st := by
  simp [statusNumeric, withStatusState]

@[simp] theorem statusReserved_withStatusState (st : BitVec 16) (v : BitVec 2) :
    statusReserved (withStatusState st v) = statusReserved st := by
  apply BitVec.eq_of_getLsbD_eq
  intro i hi
  interval_cases i <;> simp [statusReserved, withStatusState]

@[simp] theorem statusState_withStatusCh (st : BitVec 16) (v : Bool) :
    statusState (withStatusCh st v) = statusState st := by
  apply BitVec.eq_of_getLsbD_eq
  intro i hi
  cases v <;> interval_cases i <;> simp [statusState, withStatusCh]

@[simp] theorem statusCh_withStatusCh (st : BitVec 16) (v : Bool) :
    statusCh (withStatusCh st v) = v := by
  cases v <;> simp [statusCh, withStatusCh]

@[simp] theorem statusLast_withStatusCh (st : BitVec 16) (v : Bool) :
    statusLast (withStatusCh st v) = statusLast st := by
  apply BitVec.eq_of_getLsbD_eq
  intro i hi
  cases v <;> interval_cases i <;> simp [statusLast, withStatusCh]

@[simp] theorem statusIllegalEvent_withStatusCh (st : BitVec 16) (v : Bool) :
    statusIllegalEvent (withStatusCh st v) = statusIllegalEvent st := by
  cases v <;> simp [statusIllegalEvent, withStatusCh]

@[simp] theorem statusNumeric_withStatusCh (st : BitVec 16) (v : Bool) :
    statusNumeric (withStatusCh st v) = statusNumeric st := by
  cases v <;> simp [statusNumeric, withStatusCh]

@[simp] theorem statusReserved_withStatusCh (st : BitVec 16) (v : Bool) :
    statusReserved (withStatusCh st v) = statusReserved st := by
  apply BitVec.eq_of_getLsbD_eq
  intro i hi
  cases v <;> interval_cases i <;> simp [statusReserved, withStatusCh]

@[simp] theorem statusState_withStatusLast (st : BitVec 16) (v : LastOutcome) :
    statusState (withStatusLast st v) = statusState st := by
  apply BitVec.eq_of_getLsbD_eq
  intro i hi
  interval_cases i <;> simp [statusState, withStatusLast]

@[simp] theorem statusCh_withStatusLast (st : BitVec 16) (v : LastOutcome) :
    statusCh (withStatusLast st v) = statusCh st := by
  simp [statusCh, withStatusLast]

@[simp] theorem statusLast_withStatusLast (st : BitVec 16) (v : LastOutcome) :
    statusLast (withStatusLast st v) = v.code := by
  apply BitVec.eq_of_getLsbD_eq
  intro i hi
  interval_cases i <;> simp [statusLast, withStatusLast]

@[simp] theorem statusIllegalEvent_withStatusLast (st : BitVec 16) (v : LastOutcome) :
    statusIllegalEvent (withStatusLast st v) = statusIllegalEvent st := by
  simp [statusIllegalEvent, withStatusLast]

@[simp] theorem statusNumeric_withStatusLast (st : BitVec 16) (v : LastOutcome) :
    statusNumeric (withStatusLast st v) = statusNumeric st := by
  simp [statusNumeric, withStatusLast]

@[simp] theorem statusReserved_withStatusLast (st : BitVec 16) (v : LastOutcome) :
    statusReserved (withStatusLast st v) = statusReserved st := by
  apply BitVec.eq_of_getLsbD_eq
  intro i hi
  interval_cases i <;> simp [statusReserved, withStatusLast]

@[simp] theorem statusState_withStatusFault (st : BitVec 16) (v : FaultCause) :
    statusState (withStatusFault st v) = statusState st := by
  apply BitVec.eq_of_getLsbD_eq
  intro i hi
  cases v <;> interval_cases i <;> simp [statusState, withStatusFault, FaultCause.bit]

@[simp] theorem statusCh_withStatusFault (st : BitVec 16) (v : FaultCause) :
    statusCh (withStatusFault st v) = statusCh st := by
  cases v <;> simp [statusCh, withStatusFault, FaultCause.bit]

@[simp] theorem statusLast_withStatusFault (st : BitVec 16) (v : FaultCause) :
    statusLast (withStatusFault st v) = statusLast st := by
  apply BitVec.eq_of_getLsbD_eq
  intro i hi
  cases v <;> interval_cases i <;> simp [statusLast, withStatusFault, FaultCause.bit]

@[simp] theorem statusIllegalEvent_withStatusFault (st : BitVec 16) (v : FaultCause) :
    statusIllegalEvent (withStatusFault st v) = (statusIllegalEvent st || decide (v = .illegalEvent)) := by
  cases v <;> simp [statusIllegalEvent, withStatusFault, FaultCause.bit]

@[simp] theorem statusNumeric_withStatusFault (st : BitVec 16) (v : FaultCause) :
    statusNumeric (withStatusFault st v) = (statusNumeric st || decide (v = .numeric)) := by
  cases v <;> simp [statusNumeric, withStatusFault, FaultCause.bit]

@[simp] theorem statusReserved_withStatusFault (st : BitVec 16) (v : FaultCause) :
    statusReserved (withStatusFault st v) = statusReserved st := by
  apply BitVec.eq_of_getLsbD_eq
  intro i hi
  cases v <;> interval_cases i <;> simp [statusReserved, withStatusFault, FaultCause.bit]

/-- The outcomes' codes are at most 4 (30_encoding.md R86). -/
theorem LastOutcome.code_le (l : LastOutcome) : l.code.toNat ≤ 4 := by
  cases l <;> decide

/-- A fault's bit once set stays set by any further fault (60_exceptions.md R262). -/
theorem withStatusFault_idem (st : BitVec 16) (v : FaultCause) :
    withStatusFault (withStatusFault st v) v = withStatusFault st v := by
  simp [withStatusFault, BitVec.or_assoc]

/-! ## The word written out from its fields -/

@[simp] theorem statusState_statusWord (r : BitVec 8) (n i : Bool) (l : BitVec 3) (c : Bool) (v : BitVec 2) :
    statusState (statusWord r n i l c v) = v := by
  apply BitVec.eq_of_getLsbD_eq
  intro k hk
  interval_cases k <;> simp [statusState, statusWord]

@[simp] theorem statusCh_statusWord (r : BitVec 8) (n i : Bool) (l : BitVec 3) (c : Bool) (v : BitVec 2) :
    statusCh (statusWord r n i l c v) = c := by
  simp [statusCh, statusWord]

@[simp] theorem statusLast_statusWord (r : BitVec 8) (n i : Bool) (l : BitVec 3) (c : Bool) (v : BitVec 2) :
    statusLast (statusWord r n i l c v) = l := by
  apply BitVec.eq_of_getLsbD_eq
  intro k hk
  interval_cases k <;> simp [statusLast, statusWord]

@[simp] theorem statusIllegalEvent_statusWord (r : BitVec 8) (n i : Bool) (l : BitVec 3) (c : Bool) (v : BitVec 2) :
    statusIllegalEvent (statusWord r n i l c v) = i := by
  simp [statusIllegalEvent, statusWord]

@[simp] theorem statusNumeric_statusWord (r : BitVec 8) (n i : Bool) (l : BitVec 3) (c : Bool) (v : BitVec 2) :
    statusNumeric (statusWord r n i l c v) = n := by
  simp [statusNumeric, statusWord]

@[simp] theorem statusReserved_statusWord (r : BitVec 8) (n i : Bool) (l : BitVec 3) (c : Bool) (v : BitVec 2) :
    statusReserved (statusWord r n i l c v) = r := by
  apply BitVec.eq_of_getLsbD_eq
  intro k hk
  interval_cases k <;> simp [statusReserved, statusWord]

/-- A status word is its fields. -/
theorem statusWord_eta (st : BitVec 16) :
    statusWord (statusReserved st) (statusNumeric st) (statusIllegalEvent st) (statusLast st) (statusCh st) (statusState st)
      = st := by
  apply BitVec.eq_of_getLsbD_eq
  intro k hk
  interval_cases k <;>
    simp [statusWord, statusState, statusCh, statusLast, statusIllegalEvent, statusNumeric, statusReserved]

/-- Two status words with the same fields are the same. -/
theorem status_ext {a b : BitVec 16} (r : statusReserved a = statusReserved b) (n : statusNumeric a = statusNumeric b)
    (i : statusIllegalEvent a = statusIllegalEvent b) (l : statusLast a = statusLast b) (c : statusCh a = statusCh b)
    (v : statusState a = statusState b) : a = b := by
  rw [← statusWord_eta a, ← statusWord_eta b, r, n, i, l, c, v]

end Sys2Proof
end

