-- ==== Sys2Proof/Laws/PerInstr.lean ====
section
/-!
SUPPORT. The family `PadClear`: the word of an instruction, where it is a frame, has clear pad bits (30_encoding.md R86). One
lemma per constructor.
-/

namespace Sys2Proof.Laws.PadClear

/-- Every frame the encoder gives has `FR[1:0] = 00` (30_encoding.md R86). -/
def Statement (i : Instr) : Prop := ∀ fr, encode i = some (.frame fr) → fr.extractLsb' 0 2 = 0

theorem gate (c : Chan) : Statement (.gate c) := fun _ h => nomatch h
theorem scale : Statement .scale := fun _ h => nomatch h
theorem reserved00x (x : Bool) : Statement (.reserved00x x) := fun _ h => nomatch h
theorem reserved101 : Statement .reserved101 := fun _ h => nomatch h
theorem reserved11x (x : Bool) : Statement (.reserved11x x) := fun _ h => nomatch h
theorem genFreqTable : Statement .genFreqTable := fun _ h => nomatch h
theorem roundDec3 (t : SemitoneReal) : Statement (.roundDec3 t) := fun _ h => nomatch h
theorem genVoltTable : Statement .genVoltTable := fun _ h => nomatch h
theorem indexToVoltage (j : Nat) : Statement (.indexToVoltage j) := fun _ h => nomatch h
theorem quantizeFloor (x : F32) (t : Table) : Statement (.quantizeFloor x t) := fun _ h => nomatch h
theorem correct (index : Nat) : Statement (.correct index) := fun _ h => nomatch h
theorem mean : Statement .mean := fun _ h => nomatch h
theorem dcFilter : Statement .dcFilter := fun _ h => nomatch h
theorem dft (x : List F32) : Statement (.dft x) := fun _ h => nomatch h
theorem binPower (x : List F32) : Statement (.binPower x) := fun _ h => nomatch h
theorem peakBin (p : List Power) : Statement (.peakBin p) := fun _ h => nomatch h
theorem binToHz (k : Nat) : Statement (.binToHz k) := fun _ h => nomatch h
theorem estimate : Statement .estimate := fun _ h => nomatch h
theorem averageVoltage : Statement .averageVoltage := fun _ h => nomatch h
theorem clamp (v : F32) : Statement (.clamp v) := fun _ h => nomatch h
theorem v2code (vc : F32) : Statement (.v2code vc) := fun _ h => nomatch h
theorem packFrame (c : Chan) (code : DacCode) : Statement (.packFrame c code) := fun _ h => nomatch h
theorem encodeVoltage (c : Chan) (v : F32) : Statement (.encodeVoltage c v) := fun _ h => nomatch h
theorem freeRunTrigger : Statement .freeRunTrigger := fun _ h => nomatch h
theorem voltagePath : Statement .voltagePath := fun _ h => nomatch h
theorem spectralPath : Statement .spectralPath := fun _ h => nomatch h
theorem writeDone : Statement .writeDone := fun _ h => nomatch h
theorem holdDone : Statement .holdDone := fun _ h => nomatch h
theorem reset : Statement .reset := fun _ h => nomatch h
theorem adcComplete (codes : List Nat) : Statement (.adcComplete codes) := fun _ h => nomatch h
theorem dacComplete : Statement .dacComplete := fun _ h => nomatch h
theorem dacFrame (ctrl : BitVec 4) (code : DacCode) : Statement (.dacFrame ctrl code) := by
  intro fr h
  simp only [encode, Option.some.injEq, Code.frame.injEq] at h
  exact h ▸ packBits_pad ctrl code

end Sys2Proof.Laws.PadClear
end

