-- ==== Sys2Proof/Laws/State.lean ====
section
/-!
SUPPORT. One lemma for each field after each update, so that no later proof unfolds a record update, and the shared operations
made of several updates in terms of them.
-/

namespace Sys2Proof.Machine

/-! ### `setSeq` -/

@[simp] theorem State.setSeq_cfg (s : State) (q : Seq) : (s.setSeq q).cfg = s.cfg := rfl
@[simp] theorem State.setSeq_ft (s : State) (q : Seq) : (s.setSeq q).ft = s.ft := rfl
@[simp] theorem State.setSeq_vt (s : State) (q : Seq) : (s.setSeq q).vt = s.vt := rfl
@[simp] theorem State.setSeq_buf (s : State) (q : Seq) : (s.setSeq q).buf = s.buf := rfl
@[simp] theorem State.setSeq_seq (s : State) (q : Seq) : (s.setSeq q).seq = q := rfl
@[simp] theorem State.setSeq_mask (s : State) (q : Seq) : (s.setSeq q).mask = s.mask := rfl
@[simp] theorem State.setSeq_chan (s : State) (q : Seq) : (s.setSeq q).chan = s.chan := rfl
@[simp] theorem State.setSeq_adcReq (s : State) (q : Seq) : (s.setSeq q).adcReq = s.adcReq := rfl
@[simp] theorem State.setSeq_adcDone (s : State) (q : Seq) : (s.setSeq q).adcDone = s.adcDone := rfl
@[simp] theorem State.setSeq_dacReq (s : State) (q : Seq) : (s.setSeq q).dacReq = s.dacReq := rfl
@[simp] theorem State.setSeq_dacDone (s : State) (q : Seq) : (s.setSeq q).dacDone = s.dacDone := rfl
@[simp] theorem State.setSeq_status (s : State) (q : Seq) : (s.setSeq q).status = withStatusState s.status q.code := rfl
@[simp] theorem State.setSeq_offer (s : State) (q : Seq) : (s.setSeq q).offer = s.offer := rfl
@[simp] theorem State.setSeq_pins (s : State) (q : Seq) : (s.setSeq q).pins = s.pins := rfl
@[simp] theorem State.setSeq_dacOut (s : State) (q : Seq) : (s.setSeq q).dacOut = s.dacOut := rfl
@[simp] theorem State.setSeq_trace (s : State) (q : Seq) : (s.setSeq q).trace = s.trace := rfl
@[simp] theorem State.setSeq_script (s : State) (q : Seq) : (s.setSeq q).script = s.script := rfl
@[simp] theorem State.setSeq_result (s : State) (q : Seq) : (s.setSeq q).result = s.result := rfl

/-! ### `setChannel` -/

@[simp] theorem State.setChannel_cfg (s : State) (c : Chan) : (s.setChannel c).cfg = s.cfg := rfl
@[simp] theorem State.setChannel_ft (s : State) (c : Chan) : (s.setChannel c).ft = s.ft := rfl
@[simp] theorem State.setChannel_vt (s : State) (c : Chan) : (s.setChannel c).vt = s.vt := rfl
@[simp] theorem State.setChannel_buf (s : State) (c : Chan) : (s.setChannel c).buf = s.buf := rfl
@[simp] theorem State.setChannel_seq (s : State) (c : Chan) : (s.setChannel c).seq = s.seq := rfl
@[simp] theorem State.setChannel_mask (s : State) (c : Chan) : (s.setChannel c).mask = s.mask := rfl
@[simp] theorem State.setChannel_chan (s : State) (c : Chan) : (s.setChannel c).chan = s.chan := rfl
@[simp] theorem State.setChannel_adcReq (s : State) (c : Chan) : (s.setChannel c).adcReq = s.adcReq := rfl
@[simp] theorem State.setChannel_adcDone (s : State) (c : Chan) : (s.setChannel c).adcDone = s.adcDone := rfl
@[simp] theorem State.setChannel_dacReq (s : State) (c : Chan) : (s.setChannel c).dacReq = s.dacReq := rfl
@[simp] theorem State.setChannel_dacDone (s : State) (c : Chan) : (s.setChannel c).dacDone = s.dacDone := rfl
@[simp] theorem State.setChannel_status (s : State) (c : Chan) : (s.setChannel c).status = withStatusCh s.status c.bit := rfl
@[simp] theorem State.setChannel_offer (s : State) (c : Chan) : (s.setChannel c).offer = s.offer := rfl
@[simp] theorem State.setChannel_pins (s : State) (c : Chan) : (s.setChannel c).pins = s.pins := rfl
@[simp] theorem State.setChannel_dacOut (s : State) (c : Chan) : (s.setChannel c).dacOut = s.dacOut := rfl
@[simp] theorem State.setChannel_trace (s : State) (c : Chan) : (s.setChannel c).trace = s.trace := rfl
@[simp] theorem State.setChannel_script (s : State) (c : Chan) : (s.setChannel c).script = s.script := rfl
@[simp] theorem State.setChannel_result (s : State) (c : Chan) : (s.setChannel c).result = s.result := rfl

/-! ### `setLast` -/

@[simp] theorem State.setLast_cfg (s : State) (l : LastOutcome) : (s.setLast l).cfg = s.cfg := rfl
@[simp] theorem State.setLast_ft (s : State) (l : LastOutcome) : (s.setLast l).ft = s.ft := rfl
@[simp] theorem State.setLast_vt (s : State) (l : LastOutcome) : (s.setLast l).vt = s.vt := rfl
@[simp] theorem State.setLast_buf (s : State) (l : LastOutcome) : (s.setLast l).buf = s.buf := rfl
@[simp] theorem State.setLast_seq (s : State) (l : LastOutcome) : (s.setLast l).seq = s.seq := rfl
@[simp] theorem State.setLast_mask (s : State) (l : LastOutcome) : (s.setLast l).mask = s.mask := rfl
@[simp] theorem State.setLast_chan (s : State) (l : LastOutcome) : (s.setLast l).chan = s.chan := rfl
@[simp] theorem State.setLast_adcReq (s : State) (l : LastOutcome) : (s.setLast l).adcReq = s.adcReq := rfl
@[simp] theorem State.setLast_adcDone (s : State) (l : LastOutcome) : (s.setLast l).adcDone = s.adcDone := rfl
@[simp] theorem State.setLast_dacReq (s : State) (l : LastOutcome) : (s.setLast l).dacReq = s.dacReq := rfl
@[simp] theorem State.setLast_dacDone (s : State) (l : LastOutcome) : (s.setLast l).dacDone = s.dacDone := rfl
@[simp] theorem State.setLast_status (s : State) (l : LastOutcome) : (s.setLast l).status = withStatusLast s.status l := rfl
@[simp] theorem State.setLast_offer (s : State) (l : LastOutcome) : (s.setLast l).offer = s.offer := rfl
@[simp] theorem State.setLast_pins (s : State) (l : LastOutcome) : (s.setLast l).pins = s.pins := rfl
@[simp] theorem State.setLast_dacOut (s : State) (l : LastOutcome) : (s.setLast l).dacOut = s.dacOut := rfl
@[simp] theorem State.setLast_trace (s : State) (l : LastOutcome) : (s.setLast l).trace = s.trace := rfl
@[simp] theorem State.setLast_script (s : State) (l : LastOutcome) : (s.setLast l).script = s.script := rfl
@[simp] theorem State.setLast_result (s : State) (l : LastOutcome) : (s.setLast l).result = s.result := rfl

/-! ### `raiseFault` -/

@[simp] theorem State.raiseFault_cfg (s : State) (f : FaultCause) : (s.raiseFault f).cfg = s.cfg := rfl
@[simp] theorem State.raiseFault_ft (s : State) (f : FaultCause) : (s.raiseFault f).ft = s.ft := rfl
@[simp] theorem State.raiseFault_vt (s : State) (f : FaultCause) : (s.raiseFault f).vt = s.vt := rfl
@[simp] theorem State.raiseFault_buf (s : State) (f : FaultCause) : (s.raiseFault f).buf = s.buf := rfl
@[simp] theorem State.raiseFault_seq (s : State) (f : FaultCause) : (s.raiseFault f).seq = s.seq := rfl
@[simp] theorem State.raiseFault_mask (s : State) (f : FaultCause) : (s.raiseFault f).mask = s.mask := rfl
@[simp] theorem State.raiseFault_chan (s : State) (f : FaultCause) : (s.raiseFault f).chan = s.chan := rfl
@[simp] theorem State.raiseFault_adcReq (s : State) (f : FaultCause) : (s.raiseFault f).adcReq = s.adcReq := rfl
@[simp] theorem State.raiseFault_adcDone (s : State) (f : FaultCause) : (s.raiseFault f).adcDone = s.adcDone := rfl
@[simp] theorem State.raiseFault_dacReq (s : State) (f : FaultCause) : (s.raiseFault f).dacReq = s.dacReq := rfl
@[simp] theorem State.raiseFault_dacDone (s : State) (f : FaultCause) : (s.raiseFault f).dacDone = s.dacDone := rfl
@[simp] theorem State.raiseFault_status (s : State) (f : FaultCause) : (s.raiseFault f).status = withStatusFault s.status f := rfl
@[simp] theorem State.raiseFault_offer (s : State) (f : FaultCause) : (s.raiseFault f).offer = s.offer := rfl
@[simp] theorem State.raiseFault_pins (s : State) (f : FaultCause) : (s.raiseFault f).pins = s.pins := rfl
@[simp] theorem State.raiseFault_dacOut (s : State) (f : FaultCause) : (s.raiseFault f).dacOut = s.dacOut := rfl
@[simp] theorem State.raiseFault_trace (s : State) (f : FaultCause) : (s.raiseFault f).trace = s.trace := rfl
@[simp] theorem State.raiseFault_script (s : State) (f : FaultCause) : (s.raiseFault f).script = s.script := rfl
@[simp] theorem State.raiseFault_result (s : State) (f : FaultCause) : (s.raiseFault f).result = s.result := rfl

/-! ### `issueCapture` -/

@[simp] theorem State.issueCapture_cfg (s : State) (c : Chan) : (s.issueCapture c).cfg = s.cfg := rfl
@[simp] theorem State.issueCapture_ft (s : State) (c : Chan) : (s.issueCapture c).ft = s.ft := rfl
@[simp] theorem State.issueCapture_vt (s : State) (c : Chan) : (s.issueCapture c).vt = s.vt := rfl
@[simp] theorem State.issueCapture_buf (s : State) (c : Chan) : (s.issueCapture c).buf = s.buf := rfl
@[simp] theorem State.issueCapture_seq (s : State) (c : Chan) : (s.issueCapture c).seq = s.seq := rfl
@[simp] theorem State.issueCapture_mask (s : State) (c : Chan) : (s.issueCapture c).mask = s.mask := rfl
@[simp] theorem State.issueCapture_chan (s : State) (c : Chan) : (s.issueCapture c).chan = s.chan := rfl
@[simp] theorem State.issueCapture_adcReq (s : State) (c : Chan) : (s.issueCapture c).adcReq = some (s.cfg.adcInput.get c) := rfl
@[simp] theorem State.issueCapture_adcDone (s : State) (c : Chan) : (s.issueCapture c).adcDone = s.adcDone := rfl
@[simp] theorem State.issueCapture_dacReq (s : State) (c : Chan) : (s.issueCapture c).dacReq = s.dacReq := rfl
@[simp] theorem State.issueCapture_dacDone (s : State) (c : Chan) : (s.issueCapture c).dacDone = s.dacDone := rfl
@[simp] theorem State.issueCapture_status (s : State) (c : Chan) : (s.issueCapture c).status = s.status := rfl
@[simp] theorem State.issueCapture_offer (s : State) (c : Chan) : (s.issueCapture c).offer = s.offer := rfl
@[simp] theorem State.issueCapture_pins (s : State) (c : Chan) : (s.issueCapture c).pins = s.pins := rfl
@[simp] theorem State.issueCapture_dacOut (s : State) (c : Chan) : (s.issueCapture c).dacOut = s.dacOut := rfl
@[simp] theorem State.issueCapture_trace (s : State) (c : Chan) : (s.issueCapture c).trace = s.trace := rfl
@[simp] theorem State.issueCapture_script (s : State) (c : Chan) : (s.issueCapture c).script = s.script := rfl
@[simp] theorem State.issueCapture_result (s : State) (c : Chan) : (s.issueCapture c).result = s.result := rfl

/-! ### `issueDacWrite` -/

@[simp] theorem State.issueDacWrite_cfg (s : State) (c : Chan) (fr : Frame) : (s.issueDacWrite c fr).cfg = s.cfg := rfl
@[simp] theorem State.issueDacWrite_ft (s : State) (c : Chan) (fr : Frame) : (s.issueDacWrite c fr).ft = s.ft := rfl
@[simp] theorem State.issueDacWrite_vt (s : State) (c : Chan) (fr : Frame) : (s.issueDacWrite c fr).vt = s.vt := rfl
@[simp] theorem State.issueDacWrite_buf (s : State) (c : Chan) (fr : Frame) : (s.issueDacWrite c fr).buf = s.buf := rfl
@[simp] theorem State.issueDacWrite_seq (s : State) (c : Chan) (fr : Frame) : (s.issueDacWrite c fr).seq = s.seq := rfl
@[simp] theorem State.issueDacWrite_mask (s : State) (c : Chan) (fr : Frame) : (s.issueDacWrite c fr).mask = s.mask := rfl
@[simp] theorem State.issueDacWrite_chan (s : State) (c : Chan) (fr : Frame) : (s.issueDacWrite c fr).chan = s.chan := rfl
@[simp] theorem State.issueDacWrite_adcReq (s : State) (c : Chan) (fr : Frame) : (s.issueDacWrite c fr).adcReq = s.adcReq := rfl
@[simp] theorem State.issueDacWrite_adcDone (s : State) (c : Chan) (fr : Frame) : (s.issueDacWrite c fr).adcDone = s.adcDone := rfl
@[simp] theorem State.issueDacWrite_dacReq (s : State) (c : Chan) (fr : Frame) : (s.issueDacWrite c fr).dacReq = some (c, fr) := rfl
@[simp] theorem State.issueDacWrite_dacDone (s : State) (c : Chan) (fr : Frame) : (s.issueDacWrite c fr).dacDone = s.dacDone := rfl
@[simp] theorem State.issueDacWrite_status (s : State) (c : Chan) (fr : Frame) : (s.issueDacWrite c fr).status = s.status := rfl
@[simp] theorem State.issueDacWrite_offer (s : State) (c : Chan) (fr : Frame) : (s.issueDacWrite c fr).offer = s.offer := rfl
@[simp] theorem State.issueDacWrite_pins (s : State) (c : Chan) (fr : Frame) : (s.issueDacWrite c fr).pins = s.pins := rfl
@[simp] theorem State.issueDacWrite_dacOut (s : State) (c : Chan) (fr : Frame) : (s.issueDacWrite c fr).dacOut = s.dacOut := rfl
@[simp] theorem State.issueDacWrite_trace (s : State) (c : Chan) (fr : Frame) : (s.issueDacWrite c fr).trace = s.trace := rfl
@[simp] theorem State.issueDacWrite_script (s : State) (c : Chan) (fr : Frame) : (s.issueDacWrite c fr).script = s.script := rfl
@[simp] theorem State.issueDacWrite_result (s : State) (c : Chan) (fr : Frame) : (s.issueDacWrite c fr).result = s.result := rfl

/-! ### `consumeOffer` -/

@[simp] theorem State.consumeOffer_cfg (s : State) : (s.consumeOffer).cfg = s.cfg := rfl
@[simp] theorem State.consumeOffer_ft (s : State) : (s.consumeOffer).ft = s.ft := rfl
@[simp] theorem State.consumeOffer_vt (s : State) : (s.consumeOffer).vt = s.vt := rfl
@[simp] theorem State.consumeOffer_buf (s : State) : (s.consumeOffer).buf = s.buf := rfl
@[simp] theorem State.consumeOffer_seq (s : State) : (s.consumeOffer).seq = s.seq := rfl
@[simp] theorem State.consumeOffer_mask (s : State) : (s.consumeOffer).mask = s.mask := rfl
@[simp] theorem State.consumeOffer_chan (s : State) : (s.consumeOffer).chan = s.chan := rfl
@[simp] theorem State.consumeOffer_adcReq (s : State) : (s.consumeOffer).adcReq = s.adcReq := rfl
@[simp] theorem State.consumeOffer_adcDone (s : State) : (s.consumeOffer).adcDone = s.adcDone := rfl
@[simp] theorem State.consumeOffer_dacReq (s : State) : (s.consumeOffer).dacReq = s.dacReq := rfl
@[simp] theorem State.consumeOffer_dacDone (s : State) : (s.consumeOffer).dacDone = s.dacDone := rfl
@[simp] theorem State.consumeOffer_status (s : State) : (s.consumeOffer).status = s.status := rfl
@[simp] theorem State.consumeOffer_offer (s : State) : (s.consumeOffer).offer = none := rfl
@[simp] theorem State.consumeOffer_pins (s : State) : (s.consumeOffer).pins = s.pins := rfl
@[simp] theorem State.consumeOffer_dacOut (s : State) : (s.consumeOffer).dacOut = s.dacOut := rfl
@[simp] theorem State.consumeOffer_trace (s : State) : (s.consumeOffer).trace = s.trace := rfl
@[simp] theorem State.consumeOffer_script (s : State) : (s.consumeOffer).script = s.script := rfl
@[simp] theorem State.consumeOffer_result (s : State) : (s.consumeOffer).result = s.result := rfl

/-! ### `recordWrite` -/

@[simp] theorem State.recordWrite_cfg (s : State) (c : Chan) (v : F32) : (s.recordWrite c v).cfg = s.cfg := rfl
@[simp] theorem State.recordWrite_ft (s : State) (c : Chan) (v : F32) : (s.recordWrite c v).ft = s.ft := rfl
@[simp] theorem State.recordWrite_vt (s : State) (c : Chan) (v : F32) : (s.recordWrite c v).vt = s.vt := rfl
@[simp] theorem State.recordWrite_buf (s : State) (c : Chan) (v : F32) : (s.recordWrite c v).buf = s.buf := rfl
@[simp] theorem State.recordWrite_seq (s : State) (c : Chan) (v : F32) : (s.recordWrite c v).seq = s.seq := rfl
@[simp] theorem State.recordWrite_mask (s : State) (c : Chan) (v : F32) : (s.recordWrite c v).mask = s.mask := rfl
@[simp] theorem State.recordWrite_chan (s : State) (c : Chan) (v : F32) : (s.recordWrite c v).chan = s.chan.set c ⟨true, some v⟩ := rfl
@[simp] theorem State.recordWrite_adcReq (s : State) (c : Chan) (v : F32) : (s.recordWrite c v).adcReq = s.adcReq := rfl
@[simp] theorem State.recordWrite_adcDone (s : State) (c : Chan) (v : F32) : (s.recordWrite c v).adcDone = s.adcDone := rfl
@[simp] theorem State.recordWrite_dacReq (s : State) (c : Chan) (v : F32) : (s.recordWrite c v).dacReq = s.dacReq := rfl
@[simp] theorem State.recordWrite_dacDone (s : State) (c : Chan) (v : F32) : (s.recordWrite c v).dacDone = s.dacDone := rfl
@[simp] theorem State.recordWrite_status (s : State) (c : Chan) (v : F32) : (s.recordWrite c v).status = s.status := rfl
@[simp] theorem State.recordWrite_offer (s : State) (c : Chan) (v : F32) : (s.recordWrite c v).offer = s.offer := rfl
@[simp] theorem State.recordWrite_pins (s : State) (c : Chan) (v : F32) : (s.recordWrite c v).pins = s.pins := rfl
@[simp] theorem State.recordWrite_dacOut (s : State) (c : Chan) (v : F32) : (s.recordWrite c v).dacOut = s.dacOut := rfl
@[simp] theorem State.recordWrite_trace (s : State) (c : Chan) (v : F32) : (s.recordWrite c v).trace = s.trace := rfl
@[simp] theorem State.recordWrite_script (s : State) (c : Chan) (v : F32) : (s.recordWrite c v).script = s.script := rfl
@[simp] theorem State.recordWrite_result (s : State) (c : Chan) (v : F32) : (s.recordWrite c v).result = s.result := rfl

/-! ### `latchFrame` -/

@[simp] theorem State.latchFrame_cfg (s : State) (c : Chan) (fr : Frame) : (s.latchFrame c fr).cfg = s.cfg := rfl
@[simp] theorem State.latchFrame_ft (s : State) (c : Chan) (fr : Frame) : (s.latchFrame c fr).ft = s.ft := rfl
@[simp] theorem State.latchFrame_vt (s : State) (c : Chan) (fr : Frame) : (s.latchFrame c fr).vt = s.vt := rfl
@[simp] theorem State.latchFrame_buf (s : State) (c : Chan) (fr : Frame) : (s.latchFrame c fr).buf = s.buf := rfl
@[simp] theorem State.latchFrame_seq (s : State) (c : Chan) (fr : Frame) : (s.latchFrame c fr).seq = s.seq := rfl
@[simp] theorem State.latchFrame_mask (s : State) (c : Chan) (fr : Frame) : (s.latchFrame c fr).mask = s.mask := rfl
@[simp] theorem State.latchFrame_chan (s : State) (c : Chan) (fr : Frame) : (s.latchFrame c fr).chan = s.chan := rfl
@[simp] theorem State.latchFrame_adcReq (s : State) (c : Chan) (fr : Frame) : (s.latchFrame c fr).adcReq = s.adcReq := rfl
@[simp] theorem State.latchFrame_adcDone (s : State) (c : Chan) (fr : Frame) : (s.latchFrame c fr).adcDone = s.adcDone := rfl
@[simp] theorem State.latchFrame_dacReq (s : State) (c : Chan) (fr : Frame) : (s.latchFrame c fr).dacReq = none := rfl
@[simp] theorem State.latchFrame_dacDone (s : State) (c : Chan) (fr : Frame) : (s.latchFrame c fr).dacDone = true := rfl
@[simp] theorem State.latchFrame_status (s : State) (c : Chan) (fr : Frame) : (s.latchFrame c fr).status = s.status := rfl
@[simp] theorem State.latchFrame_offer (s : State) (c : Chan) (fr : Frame) : (s.latchFrame c fr).offer = s.offer := rfl
@[simp] theorem State.latchFrame_pins (s : State) (c : Chan) (fr : Frame) : (s.latchFrame c fr).pins = s.pins := rfl
@[simp] theorem State.latchFrame_dacOut (s : State) (c : Chan) (fr : Frame) : (s.latchFrame c fr).dacOut = s.dacOut.set c (some fr) := rfl
@[simp] theorem State.latchFrame_trace (s : State) (c : Chan) (fr : Frame) : (s.latchFrame c fr).trace = s.trace ++ [(c, fr)] := rfl
@[simp] theorem State.latchFrame_script (s : State) (c : Chan) (fr : Frame) : (s.latchFrame c fr).script = s.script := rfl
@[simp] theorem State.latchFrame_result (s : State) (c : Chan) (fr : Frame) : (s.latchFrame c fr).result = s.result := rfl

/-! ### `deliverCapture` -/

@[simp] theorem State.deliverCapture_cfg (s : State) (codes : List Nat) : (s.deliverCapture codes).cfg = s.cfg := rfl
@[simp] theorem State.deliverCapture_ft (s : State) (codes : List Nat) : (s.deliverCapture codes).ft = s.ft := rfl
@[simp] theorem State.deliverCapture_vt (s : State) (codes : List Nat) : (s.deliverCapture codes).vt = s.vt := rfl
@[simp] theorem State.deliverCapture_buf (s : State) (codes : List Nat) : (s.deliverCapture codes).buf = some codes := rfl
@[simp] theorem State.deliverCapture_seq (s : State) (codes : List Nat) : (s.deliverCapture codes).seq = s.seq := rfl
@[simp] theorem State.deliverCapture_mask (s : State) (codes : List Nat) : (s.deliverCapture codes).mask = s.mask := rfl
@[simp] theorem State.deliverCapture_chan (s : State) (codes : List Nat) : (s.deliverCapture codes).chan = s.chan := rfl
@[simp] theorem State.deliverCapture_adcReq (s : State) (codes : List Nat) : (s.deliverCapture codes).adcReq = none := rfl
@[simp] theorem State.deliverCapture_adcDone (s : State) (codes : List Nat) : (s.deliverCapture codes).adcDone = true := rfl
@[simp] theorem State.deliverCapture_dacReq (s : State) (codes : List Nat) : (s.deliverCapture codes).dacReq = s.dacReq := rfl
@[simp] theorem State.deliverCapture_dacDone (s : State) (codes : List Nat) : (s.deliverCapture codes).dacDone = s.dacDone := rfl
@[simp] theorem State.deliverCapture_status (s : State) (codes : List Nat) : (s.deliverCapture codes).status = s.status := rfl
@[simp] theorem State.deliverCapture_offer (s : State) (codes : List Nat) : (s.deliverCapture codes).offer = s.offer := rfl
@[simp] theorem State.deliverCapture_pins (s : State) (codes : List Nat) : (s.deliverCapture codes).pins = s.pins := rfl
@[simp] theorem State.deliverCapture_dacOut (s : State) (codes : List Nat) : (s.deliverCapture codes).dacOut = s.dacOut := rfl
@[simp] theorem State.deliverCapture_trace (s : State) (codes : List Nat) : (s.deliverCapture codes).trace = s.trace := rfl
@[simp] theorem State.deliverCapture_script (s : State) (codes : List Nat) : (s.deliverCapture codes).script = s.script := rfl
@[simp] theorem State.deliverCapture_result (s : State) (codes : List Nat) : (s.deliverCapture codes).result = s.result := rfl

/-! ### `yieldResult` -/

@[simp] theorem State.yieldResult_cfg (s : State) (r : UnitResult) : (s.yieldResult r).cfg = s.cfg := rfl
@[simp] theorem State.yieldResult_ft (s : State) (r : UnitResult) : (s.yieldResult r).ft = s.ft := rfl
@[simp] theorem State.yieldResult_vt (s : State) (r : UnitResult) : (s.yieldResult r).vt = s.vt := rfl
@[simp] theorem State.yieldResult_buf (s : State) (r : UnitResult) : (s.yieldResult r).buf = s.buf := rfl
@[simp] theorem State.yieldResult_seq (s : State) (r : UnitResult) : (s.yieldResult r).seq = s.seq := rfl
@[simp] theorem State.yieldResult_mask (s : State) (r : UnitResult) : (s.yieldResult r).mask = s.mask := rfl
@[simp] theorem State.yieldResult_chan (s : State) (r : UnitResult) : (s.yieldResult r).chan = s.chan := rfl
@[simp] theorem State.yieldResult_adcReq (s : State) (r : UnitResult) : (s.yieldResult r).adcReq = s.adcReq := rfl
@[simp] theorem State.yieldResult_adcDone (s : State) (r : UnitResult) : (s.yieldResult r).adcDone = s.adcDone := rfl
@[simp] theorem State.yieldResult_dacReq (s : State) (r : UnitResult) : (s.yieldResult r).dacReq = s.dacReq := rfl
@[simp] theorem State.yieldResult_dacDone (s : State) (r : UnitResult) : (s.yieldResult r).dacDone = s.dacDone := rfl
@[simp] theorem State.yieldResult_status (s : State) (r : UnitResult) : (s.yieldResult r).status = s.status := rfl
@[simp] theorem State.yieldResult_offer (s : State) (r : UnitResult) : (s.yieldResult r).offer = s.offer := rfl
@[simp] theorem State.yieldResult_pins (s : State) (r : UnitResult) : (s.yieldResult r).pins = s.pins := rfl
@[simp] theorem State.yieldResult_dacOut (s : State) (r : UnitResult) : (s.yieldResult r).dacOut = s.dacOut := rfl
@[simp] theorem State.yieldResult_trace (s : State) (r : UnitResult) : (s.yieldResult r).trace = s.trace := rfl
@[simp] theorem State.yieldResult_script (s : State) (r : UnitResult) : (s.yieldResult r).script = s.script := rfl
@[simp] theorem State.yieldResult_result (s : State) (r : UnitResult) : (s.yieldResult r).result = some r := rfl

/-! ### `consumeCapture` -/

@[simp] theorem State.consumeCapture_cfg (s : State) : (s.consumeCapture).cfg = s.cfg := rfl
@[simp] theorem State.consumeCapture_ft (s : State) : (s.consumeCapture).ft = s.ft := rfl
@[simp] theorem State.consumeCapture_vt (s : State) : (s.consumeCapture).vt = s.vt := rfl
@[simp] theorem State.consumeCapture_buf (s : State) : (s.consumeCapture).buf = s.buf := rfl
@[simp] theorem State.consumeCapture_seq (s : State) : (s.consumeCapture).seq = s.seq := rfl
@[simp] theorem State.consumeCapture_mask (s : State) : (s.consumeCapture).mask = s.mask := rfl
@[simp] theorem State.consumeCapture_chan (s : State) : (s.consumeCapture).chan = s.chan := rfl
@[simp] theorem State.consumeCapture_adcReq (s : State) : (s.consumeCapture).adcReq = s.adcReq := rfl
@[simp] theorem State.consumeCapture_adcDone (s : State) : (s.consumeCapture).adcDone = false := rfl
@[simp] theorem State.consumeCapture_dacReq (s : State) : (s.consumeCapture).dacReq = s.dacReq := rfl
@[simp] theorem State.consumeCapture_dacDone (s : State) : (s.consumeCapture).dacDone = s.dacDone := rfl
@[simp] theorem State.consumeCapture_status (s : State) : (s.consumeCapture).status = s.status := rfl
@[simp] theorem State.consumeCapture_offer (s : State) : (s.consumeCapture).offer = s.offer := rfl
@[simp] theorem State.consumeCapture_pins (s : State) : (s.consumeCapture).pins = s.pins := rfl
@[simp] theorem State.consumeCapture_dacOut (s : State) : (s.consumeCapture).dacOut = s.dacOut := rfl
@[simp] theorem State.consumeCapture_trace (s : State) : (s.consumeCapture).trace = s.trace := rfl
@[simp] theorem State.consumeCapture_script (s : State) : (s.consumeCapture).script = s.script := rfl
@[simp] theorem State.consumeCapture_result (s : State) : (s.consumeCapture).result = s.result := rfl

/-! ### `consumeWrite` -/

@[simp] theorem State.consumeWrite_cfg (s : State) : (s.consumeWrite).cfg = s.cfg := rfl
@[simp] theorem State.consumeWrite_ft (s : State) : (s.consumeWrite).ft = s.ft := rfl
@[simp] theorem State.consumeWrite_vt (s : State) : (s.consumeWrite).vt = s.vt := rfl
@[simp] theorem State.consumeWrite_buf (s : State) : (s.consumeWrite).buf = s.buf := rfl
@[simp] theorem State.consumeWrite_seq (s : State) : (s.consumeWrite).seq = s.seq := rfl
@[simp] theorem State.consumeWrite_mask (s : State) : (s.consumeWrite).mask = s.mask := rfl
@[simp] theorem State.consumeWrite_chan (s : State) : (s.consumeWrite).chan = s.chan := rfl
@[simp] theorem State.consumeWrite_adcReq (s : State) : (s.consumeWrite).adcReq = s.adcReq := rfl
@[simp] theorem State.consumeWrite_adcDone (s : State) : (s.consumeWrite).adcDone = s.adcDone := rfl
@[simp] theorem State.consumeWrite_dacReq (s : State) : (s.consumeWrite).dacReq = s.dacReq := rfl
@[simp] theorem State.consumeWrite_dacDone (s : State) : (s.consumeWrite).dacDone = false := rfl
@[simp] theorem State.consumeWrite_status (s : State) : (s.consumeWrite).status = s.status := rfl
@[simp] theorem State.consumeWrite_offer (s : State) : (s.consumeWrite).offer = s.offer := rfl
@[simp] theorem State.consumeWrite_pins (s : State) : (s.consumeWrite).pins = s.pins := rfl
@[simp] theorem State.consumeWrite_dacOut (s : State) : (s.consumeWrite).dacOut = s.dacOut := rfl
@[simp] theorem State.consumeWrite_trace (s : State) : (s.consumeWrite).trace = s.trace := rfl
@[simp] theorem State.consumeWrite_script (s : State) : (s.consumeWrite).script = s.script := rfl
@[simp] theorem State.consumeWrite_result (s : State) : (s.consumeWrite).result = s.result := rfl

/-! ### Operations made of several updates -/

@[simp] theorem State.enterEvent_eq (s : State) (c : Chan) :
    s.enterEvent c = ((s.setChannel c).setSeq (.sampling c)).issueCapture c := rfl

@[simp] theorem State.returnToIdle_eq (s : State) : s.returnToIdle = s.setSeq .idle := rfl

@[simp] theorem State.endWithoutWrite_eq (s : State) (c : Chan) (l : LastOutcome) :
    s.endWithoutWrite c l = (s.setLast l).setSeq (.emitting c none) := rfl

@[simp] theorem State.endWithNumericFault_eq (s : State) (c : Chan) :
    s.endWithNumericFault c = ((s.raiseFault .numeric).setLast .faulted).setSeq (.emitting c none) := rfl

@[simp] theorem State.beginWrite_eq (s : State) (c : Chan) (v : F32) (fr : Frame) :
    s.beginWrite c v fr = (s.issueDacWrite c fr).setSeq (.emitting c (some v)) := rfl

/-! ### Channels -/

@[simp] theorem PerChan.get_set_self {α : Type} (p : PerChan α) (c : Chan) (x : α) : (p.set c x).get c = x := by
  cases c <;> rfl

theorem PerChan.get_set_of_ne {α : Type} (p : PerChan α) {c d : Chan} (h : d ≠ c) (x : α) : (p.set c x).get d = p.get d := by
  cases c <;> cases d <;> first | rfl | exact absurd rfl h

@[simp] theorem Chan.ofBit_bit (c : Chan) : Chan.ofBit c.bit = c := by
  cases c <;> rfl

@[simp] theorem Chan.bit_ofBit (b : Bool) : (Chan.ofBit b).bit = b := by
  cases b <;> rfl

end Sys2Proof.Machine
end

