-- ==== Sys2Proof/Laws/Turn.lean ====
section
/-!
SUPPORT. Whose turn a step is, taken apart once.
-/

namespace Sys2Proof.Machine

/-- A step that goes on is a turn of a machine whose configuration passes every check (00_scope.md R7). -/
theorem step_eq_next {s t : State} : step s = .next t ↔ s.cfg.failure = none ∧ turn s = .next t := by
  unfold step
  cases s.cfg.failure <;> simp

/-- A step that faults is a turn that faults. -/
theorem step_eq_fault {s : State} {f : Fault} : step s = .fault f ↔ s.cfg.failure = none ∧ turn s = .fault f := by
  unfold step
  cases s.cfg.failure <;> simp

/-- A step of a well-formed configuration is a turn. -/
theorem step_of_wf {s : State} (h : s.cfg.failure = none) : step s = turn s := by
  unfold step
  rw [h]

/-- With an empty script the turn is the sequencer's. -/
theorem turn_nil {s : State} (h : s.script = []) : turn s = seqTurn s := by
  unfold turn
  rw [h]

/-- Otherwise it is the agent's that the script's first line names. -/
theorem turn_cons {s : State} {m : Move} {rest : List Move} (h : s.script = m :: rest) :
    turn s = runMove m { s with script := rest } := by
  unfold turn
  rw [h]

/-- What the sequencer's turn can do: wait when nothing is enabled, or run the enabled step. -/
theorem seqTurn_eq_next {s t : State} :
    seqTurn s = .next t ↔ (s.enabledStep = none ∧ t = s) ∨ ∃ i, s.enabledStep = some i ∧ exec i s = .next t := by
  unfold seqTurn
  rcases s.enabledStep with _ | i
  · simpa using eq_comm
  · simp

/-- The sequencer's turn faults only where the enabled step does. -/
theorem seqTurn_eq_fault {s : State} {f : Fault} :
    seqTurn s = .fault f ↔ ∃ i, s.enabledStep = some i ∧ exec i s = .fault f := by
  unfold seqTurn
  rcases s.enabledStep with _ | i <;> simp

/-- The DAC runs a completion or a frame (60_exceptions.md R278). -/
theorem dacInstr_cases (s : State) : dacInstr s = .dacComplete ∨ ∃ ctrl code, dacInstr s = .dacFrame ctrl code := by
  unfold dacInstr
  rcases s.dacReq with _ | ⟨c, fr⟩
  · exact .inl rfl
  · simp only [decodeFrame]
    split_ifs
    · exact .inr ⟨_, _, rfl⟩
    · exact .inl rfl

end Sys2Proof.Machine
end

