-- ==== Sys2Proof/Tests/Slice0.lean ====
section
/-!
SUPPORT. The model's own tests: expected values are those of spec/95_test_vectors.md, or the words of spec/30_encoding.md.
-/

namespace Sys2Proof.Tests

set_option Elab.async false

open Sys2Proof.Machine

/-- A field of the state an answer goes on with. -/
def field {α : Type} (a : Answer) (f : State → α) : Option α :=
  match a with
  | .next s => some (f s)
  | _ => none

/-- The refusal an answer stops with. -/
def refusal (a : Answer) : Option Refusal :=
  match a with
  | .refused r => some r
  | _ => none

/-- CFG_T with a short buffer. -/
def cfg8 : Cfg := { cfgT with nsamp := 8 }

/-- After reset, with a short buffer. -/
def base : State := { State.reset with cfg := cfg8 }

/-- A capture of eight copies of `v` is complete on channel `c`. -/
def captured (c : Chan) (v : Nat) (mask : Degrees) : State :=
  { base with seq := .sampling c, adcDone := true, buf := some (List.replicate 8 v), mask := mask }

/-- The voltage a pattern stands for. -/
def volts (w : BitVec 32) : F32 := F32.ofBits w

/-! ## Well-formedness: one ill-formed term for each check -/

theorem test_wf_round_den : Instr.wf (.roundDec3 ⟨1, 0, 0⟩) = false := by decide
theorem test_wf_round_twelfths : Instr.wf (.roundDec3 ⟨1, 1, 65536⟩) = false := by decide
theorem test_wf_index : Instr.wf (.indexToVoltage 65536) = false := by decide
theorem test_wf_correct : Instr.wf (.correct 65536) = false := by decide
theorem test_wf_dft_length : Instr.wf (.dft [F32.zero]) = false := by decide
theorem test_wf_dft_finite : Instr.wf (.dft [F32.zero, .nan]) = false := by decide
theorem test_wf_power_length : Instr.wf (.binPower []) = false := by decide
theorem test_wf_peak_empty : Instr.wf (.peakBin []) = false := by decide
theorem test_wf_peak_order : Instr.wf (.peakBin [⟨1, 0, []⟩]) = false := by decide
theorem test_wf_bin : Instr.wf (.binToHz 32768) = false := by decide
theorem test_wf_v2code : Instr.wf (.v2code .nan) = false := by decide
theorem test_wf_capture_length : Instr.wf (.adcComplete [1, 2, 3]) = false := by decide
theorem test_wf_capture_code : Instr.wf (.adcComplete [1, 65536]) = false := by decide

/-! ## Decoding: words written out from 30_encoding.md R81 and R85 -/

theorem test_decode_gate_a : decode (.event 0b010) = .ok (.gate .a) := by decide
theorem test_decode_gate_b : decode (.event 0b011) = .ok (.gate .b) := by decide
theorem test_decode_scale : decode (.event 0b100) = .ok .scale := by decide
theorem test_decode_000 : decode (.event 0b000) = .ok (.reserved00x false) := by decide
theorem test_decode_001 : decode (.event 0b001) = .ok (.reserved00x true) := by decide
theorem test_decode_101 : decode (.event 0b101) = .ok .reserved101 := by decide
theorem test_decode_110 : decode (.event 0b110) = .ok (.reserved11x false) := by decide
theorem test_decode_111 : decode (.event 0b111) = .ok (.reserved11x true) := by decide
/-- `0x3664` is control 3 and code 409 (45_dac_codec.md R205's example). -/
theorem test_decode_frame : decode (.frame 0b0011011001100100) = .ok (.dacFrame 3 409) := by decide
theorem test_decode_frame_pad : decode (.frame 0b0011011001100101) = .error .framePad := by decide
theorem test_decode_wide_event : decodeEventByte 0b00001010 = .error .eventWidth := by decide
/-- `0x3664` on the wire is `36` then `64` (45_dac_codec.md R206). -/
theorem test_wire : wireBytes 0x3664 = [0x36, 0x64] := by decide
theorem test_decode_wire : decodeWire [0x36, 0x64] = .ok (.dacFrame 3 409) := by decide
theorem test_table_word_event : decodeTableWord 8 0b011 = some (.gate .b) := by decide
theorem test_table_word_frame : decodeTableWord 16 0xB3FC = some (.dacFrame 0xB 255) := by decide

/-! ## Configuration checks (D21, TG4) -/

theorem test_cfgT : cfgT.failure = none := by decide +kernel
theorem test_fullscale_0011 : ({ cfgT with dacVmax := rne32 11 1000 } : Cfg).failure = some .dacFullscale := by decide +kernel
theorem test_small_root : ({ cfgT with rootFreq := rne32 1 1000 } : Cfg).failure = some .ftMono := by decide +kernel
theorem test_ranges : ({ cfgT with nsamp := 7 } : Cfg).failure = some .ranges := by decide
theorem test_ctrl : ({ cfgT with dacCtrl := ⟨3, 16⟩ } : Cfg).failure = some .ctrl := by decide +kernel
theorem test_ctrl_spectral : ({ cfgS with dacCtrl := ⟨3, 16⟩ } : Cfg).failure = none := by decide +kernel
theorem test_vt_mono : ({ cfgT with vps := .fin false 254 0 } : Cfg).failure = some .vtMono := by decide +kernel

/-! ## Units, on their own -/

/-- Table 3.1, entry 15. -/
theorem test_ft : field (exec .genFreqTable base) (fun s => s.ft[15]?) = some (some (volts 0x421B8C4A)) := by decide +kernel
/-- Table 3.1, entry 24, and TG1. -/
theorem test_vt : field (exec .genVoltTable base) (fun s => s.vt[24]?) = some (some (volts 0x40000000)) := by decide +kernel
theorem test_vt_offset :
    field (exec .genVoltTable { base with cfg := { cfgT with voltOffset := 1 } }) (fun s => s.vt[24]?)
      = some (some (volts 0x40055556)) := by decide +kernel
/-- TG2: 17.3222222 rounds to 17.322. -/
theorem test_round : field (exec (.roundDec3 ⟨173222222, 10000000, 0⟩) base) State.result = some (some (.decimal 17322)) := by decide +kernel
/-- TG3: a tie goes away from zero. -/
theorem test_round_tie : field (exec (.roundDec3 ⟨-5, 10000, 0⟩) base) State.result = some (some (.decimal (-1))) := by decide +kernel
/-- TG6. -/
theorem test_voltage : field (exec (.indexToVoltage 24) base) State.result = some (some (.vo (volts 0x40000000))) := by decide +kernel
/-- Q6: 39.0625 Hz is index 15. -/
theorem test_quantize : field (exec (.quantizeFloor (volts 0x421C4000) .ft) base) State.result = some (some (.qi 15)) := by decide +kernel
/-- Q12: 2.0 V is an exact hit at 24. -/
theorem test_quantize_hit : field (exec (.quantizeFloor (volts 0x40000000) .vt) base) State.result = some (some (.qi 24)) := by decide +kernel
/-- K17: an 11-step move. -/
theorem test_correct : field (exec (.correct 24) { base with mask := 0x002 }) State.result = some (some (.cr (.some 13))) := by decide
/-- K7: the first permitted position is -7. -/
theorem test_correct_below : field (exec (.correct 3) { base with mask := 0x020 }) State.result = some (some (.cr .noneBelow)) := by decide
/-- M4. -/
theorem test_mean :
    field (exec .mean { base with buf := some [1, 2, 3, 4, 5, 6, 7, 8] }) State.result = some (some (.mean (volts 0x40900000))) := by
  decide +kernel
/-- M4: the last filtered sample is 3.5. -/
theorem test_dc_filter :
    (dcFilter 8 [1, 2, 3, 4, 5, 6, 7, 8])[7]? = some (volts 0x40600000) := by decide +kernel
/-- The Nyquist bin of `[1, -1]` turns the second sample half way. -/
theorem test_dft :
    dft [rne32 1 1, rne32 (-1) 1] = ⟨2, [[(2 ^ 149, 0), (-2 ^ 149, 0)], [(2 ^ 149, 0), (-2 ^ 149, 1)]]⟩ := by decide +kernel
/-- R164's example: powers 0, 0, 1.6e7, 0, 0, 0, 1.6e7, 0 give 2. -/
theorem test_peak :
    field (exec (.peakBin ([0, 0, 16000000, 0, 0, 0, 16000000, 0].map fun p => ⟨1, 1, [(p, 0)]⟩)) base) State.result
      = some (some (.bin 2)) := by decide +kernel
/-- An exact power: the square of `1 + exp(-2 pi i / 6)` is 3. -/
theorem test_power_order : powerGt ⟨1, 6, [(2, 0), (2, 1)]⟩ ⟨1, 1, [(3, 0)]⟩ = false ∧
    powerGt ⟨1, 1, [(3, 0)]⟩ ⟨1, 6, [(2, 0), (2, 1)]⟩ = false := by decide +kernel
/-- R163: a bin-0 power is the square of the sum. -/
theorem test_bin_power : (binPower .reference [rne32 3 1, rne32 4 1])[0]? =
    some ⟨2 ^ 149 * 2 ^ 149, 2, [(25 * 2 ^ 298, 0), (24 * 2 ^ 298, 0)]⟩ := by decide +kernel
/-- T12: bin 10 of 2048 at 8000 Hz. -/
theorem test_bin_to_hz : field (exec (.binToHz 10) State.reset) State.result = some (some (.hz (volts 0x421C4000))) := by decide +kernel
/-- T6: an exact tie, the lowest bin wins: bins 2 and 6 of 16 at 8000 Hz give 1000 Hz. -/
theorem test_estimate_tie :
    estimate cfgS [3048, 2048, 2048, 2048, 1048, 2048, 2048, 2048, 3048, 2048, 2048, 2048, 1048, 2048, 2048, 2048]
      = volts 0x447A0000 := by decide +kernel
/-- T3: the bin-3 cosine gives 1500 Hz. -/
theorem test_estimate :
    field (exec .estimate { base with cfg := cfgS, buf := some [3048, 2431, 1341, 1124, 2048, 2972, 2755, 1665, 1048, 1665, 2755, 2972, 2048, 1124, 1341, 2431] }) State.result
      = some (some (.xv (volts 0x44BB8000))) := by decide +kernel
/-- AV3. -/
theorem test_average :
    field (exec .averageVoltage { base with buf := some [0, 4095, 0, 4095, 0, 4095, 0, 4095] }) State.result
      = some (some (.xv (volts 0x407FF000))) := by decide +kernel
theorem test_average_no_buffer : exec .averageVoltage base = .fault .bufferNoValue := rfl
/-- D15: the table's last voltage is clamped to 5.0. -/
theorem test_clamp : field (exec (.clamp (volts 0x40BD5556)) base) State.result = some (some (.clamped (volts 0x40A00000))) := by decide +kernel
theorem test_clamp_nan : field (exec (.clamp .nan) base) State.status = some 0x00A0 := by decide
/-- D12: 4.99511242 V is code 1022; D17: one step is code 1. -/
theorem test_v2code : field (exec (.v2code (rne32 499511242 100000000)) base) State.result = some (some (.code 1022)) := by decide +kernel
theorem test_v2code_step : field (exec (.v2code (volts 0x3BA0280A)) base) State.result = some (some (.code 1)) := by decide +kernel
/-- R205's example. -/
theorem test_pack : field (exec (.packFrame .a 409) base) State.result = some (some (.fr 0x3664)) := by decide
theorem test_pack_no_channel : exec (.packFrame .b 409) { base with cfg := cfgS } = .refused .noSuchChannel := rfl
/-- D5 and D14. -/
theorem test_encode : field (exec (.encodeVoltage .b (volts 0x3FA00000)) base) State.result = some (some (.fr 0xB3FC)) := by decide +kernel
theorem test_encode_clamps : field (exec (.encodeVoltage .a (rne32 7 1)) base) State.result = some (some (.fr 0x3FFC)) := by decide +kernel

/-! ## Sequencer steps (section 3.7) -/

/-- E1. -/
theorem test_gate :
    field (exec (.gate .b) { base with offer := some 0b011 }) (fun s => (s.seq, s.adcReq, s.offer, s.status))
      = some (.sampling .b, some 1, none, 0x0005) := by decide
theorem test_gate_waits :
    field (exec (.gate .b) { base with offer := some 0b011, seq := .sampling .a }) (fun s => (s.seq, s.offer))
      = some (.sampling .a, some 0b011) := by decide
/-- E3. -/
theorem test_scale :
    field (exec .scale { base with offer := some 0b100, pins := 0b010101001010 }) (fun s => (s.mask, s.offer))
      = some (0xAB5, none) := by decide
/-- E5 and E6. -/
theorem test_reserved : field (exec .reserved101 { base with offer := some 0b101 }) State.status = some 0x0040 := by decide
theorem test_reserved_sticky :
    field (exec (.reserved00x false) { base with offer := some 0b000, status := 0x0040 }) State.status = some 0x0040 := by decide
theorem test_reserved_11x :
    field (exec (.reserved11x true) { base with offer := some 0b111 }) (fun s => (s.status, s.offer)) = some (0x0040, none) := by decide
/-- E14. -/
theorem test_free_run :
    field (exec .freeRunTrigger { base with cfg := cfgS }) (fun s => (s.seq, s.adcReq, s.status))
      = some (.sampling .a, some 0, 0x0001) := by decide
/-- E8. -/
theorem test_voltage_path :
    field (exec .voltagePath (captured .a 1024 0xAB5)) (fun s => (s.seq, s.dacReq, s.adcDone))
      = some (.emitting .a (some (volts 0x40000000)), some (.a, 0x3664), false) := by decide +kernel
/-- E11: a hold below the table, from STATUS 0x0005. -/
theorem test_voltage_path_hold :
    field (exec .voltagePath { captured .b 128 0x020 with status := 0x0005 }) (fun s => (s.seq, s.dacReq, s.status))
      = some (.emitting .b none, none, 0x001E) := by decide +kernel
/-- P4's third round: 1000 Hz is beyond the table, and its voltage is clamped. -/
theorem test_spectral_path :
    field (exec .spectralPath { base with
      cfg := cfgS, seq := .sampling .a, adcDone := true,
      buf := some [3048, 2755, 2048, 1341, 1048, 1341, 2048, 2755, 3048, 2755, 2048, 1341, 1048, 1341, 2048, 2755] })
      (fun s => (s.seq, s.dacReq)) = some (.emitting .a (some (volts 0x40BD5556)), some (.a, 0x3FFC)) := by decide +kernel
/-- X8: a NaN voltage is the fault NUMERIC. -/
theorem test_voltage_path_nan :
    field (exec .voltagePath { captured .a 4095 0xFFF with
      cfg := { cfg8 with adcVref := .fin false 0 512, inputDivider := .fin false 7 0 }, status := 0x0001 })
      (fun s => (s.seq, s.status)) = some (.emitting .a none, 0x00A2) := by decide +kernel
/-- E13. -/
theorem test_write_done :
    field (exec .writeDone { base with seq := .emitting .a (some (volts 0x40000000)), dacDone := true, status := 0x0002 })
      (fun s => (s.seq, s.chan.a, s.dacDone, s.status)) = some (.idle, ⟨true, some (volts 0x40000000)⟩, false, 0x0008) := by decide
/-- E10. -/
theorem test_hold_done :
    field (exec .holdDone { base with seq := .emitting .b none, status := 0x0016 }) (fun s => (s.seq, s.status))
      = some (.idle, 0x0014) := by decide

/-! ## Reset and collaborators (section 3.8) -/

/-- X1. -/
theorem test_reset :
    field (exec .reset { base with pins := 0b010101001010, seq := .sampling .a, adcReq := some 0, status := 0x00C1 })
      (fun s => (s.seq, s.mask, s.adcReq, s.status)) = some (.idle, 0xAB5, none, 0x0000) := by decide
/-- X3: the abandoned frame is never latched. -/
theorem test_reset_write :
    field (exec .reset { base with dacReq := some (.a, 0x3664), dacOut := ⟨some 0x3000, none⟩ })
      (fun s => (s.dacReq, s.dacOut.a, s.trace)) = some (none, some 0x3000, []) := by decide
theorem test_capture :
    field (exec (.adcComplete [0, 1, 2, 3, 4, 5, 6, 65535]) { base with seq := .sampling .a, adcReq := some 0 })
      (fun s => (s.buf, s.adcReq, s.adcDone)) = some (some [0, 1, 2, 3, 4, 5, 6, 65535], none, true) := by decide
theorem test_capture_short :
    exec (.adcComplete [1, 2]) { base with adcReq := some 0 } = .refused .captureLength := rfl
/-- P1: the frame `0x3664` is latched on A. -/
theorem test_dac_complete :
    field (exec .dacComplete { base with dacReq := some (.a, 0x3664) }) (fun s => (s.dacOut.a, s.trace, s.dacReq, s.dacDone))
      = some (some 0x3664, [(.a, 0x3664)], none, true) := by decide
theorem test_dac_frame :
    field (exec (.dacFrame 0xB 818) { base with dacReq := some (.b, 0xBCC8) }) (fun s => (s.dacOut.b, s.trace))
      = some (some 0xBCC8, [(.b, 0xBCC8)]) := by decide
theorem test_dac_frame_other : exec (.dacFrame 0xB 817) { base with dacReq := some (.b, 0xBCC8) } = .refused .frameNotRequested := rfl

/-! ## Turns -/

/-- E16: nothing is enabled, and the state is kept. -/
theorem test_wait : seqTurn base = .next base := rfl
/-- X6: a waiting SCALE word is lost. -/
theorem test_lose :
    field (runMove .lose { base with seq := .sampling .a, offer := some 0b100 }) (fun s => (s.offer, s.mask)) = some (none, 0x000) := by
  decide
theorem test_lose_idle : runMove .lose { base with offer := some 0b100 } = .refused .loseNotEnabled := rfl
theorem test_expect_no_value : runMove (.expect (.lastVoltage .a F32.zero)) base = .fault .voltageNoValue := rfl
/-- There is no channel B to observe in the spectral mode. -/
theorem test_expect_no_channel :
    runMove (.expect (.dacOut .b none)) { base with cfg := cfgS } = .refused .noSuchChannel ∧
      runMove (.expect (.dacOut .a none)) { base with cfg := cfgS } = .next { base with cfg := cfgS } := ⟨rfl, rfl⟩
theorem test_settle : settleLines { base with seq := .emitting .a (some F32.zero) } .a = [.writeDone, .step] := rfl
/-- R90: SPECTRAL_ROUND is a form of the spectral mode only. -/
theorem test_spectral_round : runMove (.spectralRound [1]) base = .refused .notSpectral ∧
    field (runMove (.spectralRound [1]) { base with cfg := cfgS }) State.script =
      some [.step, .capture [1], .step, .writeDone, .step] := ⟨rfl, rfl⟩
theorem test_setscale : linesSetScale 0x020 = [.pins 0b111111011111, .offer 0b100, .step] := by decide
/-- The first instruction after reset is the word placed for it. -/
theorem test_fetch_event :
    field (step (State.reset.withFetchWord 8 0b010)) (fun s => (s.seq, s.offer)) = some (.sampling .a, none) := by decide +kernel
theorem test_fetch_frame :
    field (step (State.reset.withFetchWord 16 0x3664)) (fun s => s.dacOut.a) = some (some 0x3664) := by decide +kernel
theorem test_step_refuses : refusal (step { base with cfg := { cfg8 with nsamp := 7 } }) = some (.configuration .ranges) := by
  decide +kernel

/-! ## Witnesses: states and operands that meet the hypotheses of the statements, at the boundaries of their clauses -/

theorem cfg8_wf : cfg8.wf = true := by decide +kernel

theorem cfg8_failure : cfg8.failure = none := by simpa [Cfg.wf] using cfg8_wf

theorem cfgS_wf : cfgS.wf = true := by decide +kernel

/-- After reset in the spectral mode, sixteen samples. -/
def spectralBase : State := { State.reset with cfg := cfgS }

/-- The tables do not depend on the mode or on `NSAMP` (40_table_generator.md R101, R103). -/
theorem tables_mode_nsamp (c : Cfg) (m : Mode) (k : Nat) :
    freqTable { c with mode := m, nsamp := k } = freqTable c ∧ voltTable { c with mode := m, nsamp := k } = voltTable c :=
  ⟨rfl, rfl⟩

theorem base_tables : base.tablesGenerated :=
  ⟨(tables_mode_nsamp cfgT .event 8).1.symm, (tables_mode_nsamp cfgT .event 8).2.symm⟩

theorem spectralBase_tables : spectralBase.tablesGenerated :=
  ⟨(tables_mode_nsamp cfgT .spectral 16).1.symm, (tables_mode_nsamp cfgT .spectral 16).2.symm⟩

theorem no_buffer {s : State} (h : s.buf = none) : s.bufferWhole := fun c hc => by rw [h] at hc; cases hc

theorem no_trace {s : State} (t : s.trace = []) (d : s.dacOut = ⟨none, none⟩) : s.outputsAgree :=
  ⟨fun c => by rw [t, d]; cases c <;> rfl, fun x hx => by rw [t] at hx; cases hx⟩

theorem base_inv : base.Inv :=
  ⟨base_tables, no_buffer rfl, ⟨rfl, rfl, rfl, rfl⟩, by decide, by decide, no_trace rfl rfl,
    fun _ => rfl⟩

theorem spectralBase_inv : spectralBase.Inv :=
  ⟨spectralBase_tables, no_buffer rfl, ⟨rfl, rfl, rfl, rfl⟩, by decide, by decide, no_trace rfl rfl,
    fun _ => rfl⟩

/-- A capture of eight copies of 1024 is complete on channel B. -/
def sampled : State := { captured .b 1024 0xAB5 with status := 0x0005 }

theorem sampled_whole : wholeBuffer cfg8 (List.replicate 8 1024) := by decide

theorem sampled_inv : sampled.Inv :=
  ⟨base_tables, fun _ h => by cases h; exact sampled_whole, ⟨rfl, rfl, rfl, .inr ⟨rfl, rfl, rfl⟩⟩, by decide, by decide,
    no_trace rfl rfl, fun _ => rfl⟩

/-- A capture is requested on channel A. -/
def requested : State := { base with seq := .sampling .a, adcReq := some 0, status := 0x0001 }

theorem requested_inv : requested.Inv :=
  ⟨base_tables, no_buffer rfl, ⟨rfl, rfl, rfl, .inl ⟨rfl, rfl⟩⟩, by decide, by decide,
    no_trace rfl rfl, fun _ => rfl⟩

/-- A finite value is positive where its number is. -/
theorem positive_of_scaled {x : F32} (f : x.isFinite = true) (h : 0 < x.scaled) : x.positive :=
  ⟨f, div_pos (by exact_mod_cast h) (by positivity)⟩

theorem cfg8_ranges : cfg8.rangesMet :=
  ⟨by decide, positive_of_scaled (by decide) (by decide +kernel), positive_of_scaled (by decide) (by decide +kernel), by decide, by decide,
    positive_of_scaled (by decide) (by decide +kernel), by decide, by decide, positive_of_scaled (by decide) (by decide +kernel),
    positive_of_scaled (by decide) (by decide +kernel), positive_of_scaled (by decide) (by decide +kernel)⟩

theorem witness_OpcodeMapDecodes :
    ¬(requested.cfg.mode = .event ∧ requested.seq = .idle) ∧ ¬(spectralBase.cfg.mode = .event ∧ spectralBase.seq = .idle) ∧
      decode (.event 0b010) = .ok (.gate .a) ∧ decode (.event 0b111) = .ok (.reserved11x true) := by decide

theorem witness_EncodedWordsDecodeBack :
    ((Instr.gate .b).wf = true ∧ encode (.gate .b) = some (.event 0b011)) ∧
      (Instr.dacFrame 15 1023).wf = true ∧ encode (.dacFrame 15 1023) = some (.frame 0xFFFC) := by decide

theorem witness_DecodedWordsEncodeBack :
    decode (.event 0b000) = .ok (.reserved00x false) ∧ decode (.frame 0xFFFC) = .ok (.dacFrame 15 1023) ∧
      decode (.frame 0xFFFD) = .error .framePad := by decide

theorem witness_StepRunsDecodedWord :
    ((cfg8.wf = true ∧ { base with offer := some 0b010 }.cfg.mode = .event ∧ base.seq = .idle ∧ base.script = []) ∧
      { base with offer := some 0b010 }.enabledStep = some (.gate .a)) ∧
    ({ base with dacReq := some (.a, 0x3664), script := [.writeDone] }.dacReq = some (.a, 0x3664) ∧
      decode (.frame 0x3664) = .ok (.dacFrame 3 409)) ∧
    (base.withFetchWord 8 2).cfg = cfg8 ∧ decodeTableWord 8 2 = some (.gate .a) ∧
    (base.withFetchWord 16 0x3664).cfg = cfg8 ∧ decodeTableWord 16 0x3664 = some (.dacFrame 3 409) :=
  ⟨⟨⟨cfg8_wf, rfl, rfl, rfl⟩, by decide⟩, ⟨rfl, by decide⟩, rfl, by decide, rfl, by decide⟩

theorem witness_OperationsRoundOnce :
    F32.zero.isFinite = true ∧ (F32.ofNat 3).isFinite = true ∧ (F32.fin true 254 (BitVec.allOnes 23)).isFinite = true ∧
      (F32.ofNat 3).value ≠ 0 :=
  ⟨rfl, by decide +kernel, rfl, (positive_of_scaled (x := F32.ofNat 3) (by decide +kernel) (by decide +kernel)).2.ne'⟩

theorem witness_RoundDec3RoundsAway : 0 < (⟨-5, 10000, 0⟩ : SemitoneReal).den ∧ 0 < (⟨0, 1, 13⟩ : SemitoneReal).den := by decide

theorem witness_rangesMet : base.cfg.rangesMet := cfg8_ranges

theorem witness_IndexToVoltageReadsTable : base.tablesGenerated ∧ 0 < base.cfg.n ∧ 71 < base.cfg.n :=
  ⟨base_tables, by decide, by decide⟩

/-- Below, on and above the table, between two entries, and a NaN. -/
theorem witness_QuantizeFloorResult : base.cfg.wf = true ∧ base.tablesGenerated ∧ F32.nan.isNaN = true ∧
    (base.vt[0]? = some F32.zero ∧ F32.zero.le F32.zero = true) ∧
    (base.ft[0]?.map fun lo => lo.lt (volts 0x421C4000)) = some true ∧
    (base.ft[71]?.map fun hi => ((volts 0x421C4000).lt hi, hi.le (.inf false))) = some (true, true) :=
  ⟨cfg8_wf, base_tables, rfl, ⟨by decide +kernel, by decide +kernel⟩, by decide +kernel, by decide +kernel⟩

/-- 39.0625 Hz and 40 Hz stand between entries 15 and 16. -/
theorem witness_FrequencyToVoltageMonotone : base.cfg.wf = true ∧ base.tablesGenerated ∧
    (volts 0x421C4000).le (F32.ofNat 40) = true ∧ (base.ft[15]?.map fun lo => lo.le (volts 0x421C4000)) = some true ∧
    (base.ft[16]?.map fun hi => (F32.ofNat 40).lt hi) = some true :=
  ⟨cfg8_wf, base_tables, by decide +kernel, by decide +kernel, by decide +kernel⟩

theorem witness_CorrectResult : 24 < base.cfg.n ∧
    exec (.correct 24) { base with mask := 0x002 } = .next { base with mask := 0x002, result := some (.cr (.some 13)) } :=
  ⟨by decide, rfl⟩

/-- The farthest permitted degree, the nearest above and below index 0, and the three clauses' boundaries. -/
theorem witness_CorrectClosedForm :
    correct 11 0x001 72 = .some 0 ∧ correct 10 0x800 72 = .noneBelow ∧ correct 1 0x000 72 = .noneEmpty ∧ correct 0 0x000 72 = .some 0 := by
  decide

/-- A whole buffer of one value. -/
theorem witness_wholeBuffer : sampled.cfg.wf = true ∧ sampled.tablesGenerated ∧ sampled.buf = some (List.replicate 8 1024) ∧
    wholeBuffer sampled.cfg (List.replicate 8 1024) ∧ (∀ d ∈ List.replicate 8 1024, d = 1024) :=
  ⟨cfg8_wf, base_tables, rfl, sampled_whole, by decide⟩

/-- A whole buffer of zeros, and one that alternates. -/
theorem witness_DegenerateBuffersGiveZeroHz : wholeBuffer cfg8 [0, 0, 0, 0, 0, 0, 0, 0] ∧
    wholeBuffer cfg8 [3, 65535, 3, 65535, 3, 65535, 3, 65535] ∧ cfg8.fftPower = .reference ∧
    (∀ i < 8, [3, 65535, 3, 65535, 3, 65535, 3, 65535][i]? = some (if i % 2 = 0 then 3 else 65535)) := by decide

theorem witness_DftIsExact : (Instr.dft [F32.zero, F32.zero]).wf = true ∧ (Instr.binPower [F32.zero, F32.zero]).wf = true ∧
    base.cfg.fftPower = .reference ∧ ({ cfg8 with fftPower := .declared 1 } : Cfg).fftPower = .declared 1 := by decide

theorem witness_PeakIsFirstMaximum : (Instr.peakBin [⟨1, 1, [(2, 0)]⟩, ⟨1, 1, [(2, 0)]⟩]).wf = true ∧
    (Instr.peakBin [⟨1, 1, []⟩]).wf = true := by decide

theorem witness_BinToHzRoundsTwice : base.cfg.rangesMet ∧ 2 * 0 < base.cfg.nsamp ∧ 2 * 3 < base.cfg.nsamp :=
  ⟨cfg8_ranges, by decide, by decide⟩

/-- At and below zero, between the bounds, at and above `DAC_VMAX`, and a NaN. -/
theorem witness_ClampLimits : (F32.fin true 0 0).le F32.zero = true ∧ (F32.inf true).le F32.zero = true ∧
    (F32.zero.lt (F32.ofNat 2) = true ∧ (F32.ofNat 2).lt cfg8.dacVmax = true) ∧ cfg8.dacVmax.le cfg8.dacVmax = true ∧
    cfg8.dacVmax.le (.inf false) = true ∧ F32.nan.isNaN = true := by decide +kernel

theorem witness_VoltageToCodeFloors : cfg8.wf = true ∧
    (F32.zero.isFinite = true ∧ F32.zero.isNeg = false ∧ F32.zero.le cfg8.dacVmax = true) ∧
    cfg8.dacVmax.isFinite = true ∧ cfg8.dacVmax.isNeg = false ∧ cfg8.dacVmax.le cfg8.dacVmax = true :=
  ⟨cfg8_wf, by decide +kernel, by decide, by decide, by decide +kernel⟩

theorem witness_CodecIsMonotone : cfg8.wf = true ∧ (F32.inf true).le (F32.ofNat 2) = true ∧ (F32.ofNat 2).le (.inf false) = true :=
  ⟨cfg8_wf, by decide +kernel, by decide +kernel⟩

theorem witness_CodecRoundTrips : cfg8.wf = true ∧ (F32.ofNat 2).isFinite = true ∧ 0 ≤ (F32.ofNat 2).value ∧
    (F32.ofNat 2).value ≤ cfg8.dacVmax.value ∧ (2 : ℝ) ^ (-126 : ℤ) ≤ cfg8.dacStep.value ∧
    (decodeCode cfg8 1023).isFinite = true := by
  refine ⟨cfg8_wf, by decide +kernel, (positive_of_scaled (x := F32.ofNat 2) (by decide +kernel) (by decide +kernel)).2.le, ?_, ?_, by decide +kernel⟩
  · unfold F32.value
    gcongr
    exact_mod_cast (by decide +kernel : (F32.ofNat 2).scaled ≤ cfg8.dacVmax.scaled)
  · unfold F32.value
    rw [le_div_iff₀ (by positivity)]
    have h : (2 ^ 23 : ℤ) ≤ cfg8.dacStep.scaled := by decide +kernel
    have hR : ((2 ^ 23 : ℤ) : ℝ) ≤ (cfg8.dacStep.scaled : ℝ) := by exact_mod_cast h
    refine le_trans (le_of_eq ?_) hR
    norm_num

theorem witness_PackFrameFields : cfg8.wf = true ∧ cfg8.hasChannel .a = true ∧ cfg8.hasChannel .b = true ∧
    (F32.ofNat 2).isNaN = false ∧ F32.nan.isNaN = true :=
  ⟨cfg8_wf, by decide, by decide, by decide +kernel, rfl⟩

theorem witness_StopsOutsideDomain : base.vt.length ≤ 72 ∧ base.buf = none ∧ spectralBase.cfg.mode = .spectral ∧
    (∀ c, ({ base with dacReq := some (.b, 0xBCC8) } : State).dacReq ≠ some (c, packBits 0xB 817)) := by
  refine ⟨by decide +kernel, rfl, rfl, ?_⟩
  intro c
  cases c <;> decide

theorem witness_GateAccepted : ({ base with offer := some 0b011 } : State).cfg.mode = .event ∧ base.seq = .idle ∧
    (0b011 : EventWord) &&& 0b110 = 0b010 ∧ Chan.b = Chan.ofBit ((0b011 : EventWord).getLsbD 0) ∧
    Chan.a = Chan.ofBit ((0b010 : EventWord).getLsbD 0) := by decide

theorem witness_accepts_words : ({ base with offer := some 0b100 } : State).accepts .scale = true ∧
    ({ base with offer := some ((0b00 : BitVec 2) ++ BitVec.ofBool true) } : State).accepts (.reserved00x true) = true ∧
    ({ base with offer := some 0b101 } : State).accepts .reserved101 = true ∧
    ({ base with offer := some ((0b11 : BitVec 2) ++ BitVec.ofBool false) } : State).accepts (.reserved11x false) = true := by decide

theorem witness_FreeRunTriggers : spectralBase.cfg.mode = .spectral ∧ spectralBase.seq = .idle := by decide

theorem witness_VoltagePathCommits : sampled.cfg.wf = true ∧ sampled.Inv ∧ sampled.cfg.mode = .event ∧ sampled.seq = .sampling .b ∧
    sampled.adcDone = true :=
  ⟨cfg8_wf, sampled_inv, rfl, rfl, rfl⟩

/-- A spectral capture is complete. -/
def spectralSampled : State :=
  { spectralBase with seq := .sampling .a, adcDone := true, buf := some (List.replicate 16 7), status := 0x0001 }

theorem witness_SpectralPathCommits : spectralSampled.cfg.wf = true ∧ spectralSampled.Inv ∧ spectralSampled.cfg.mode = .spectral ∧
    spectralSampled.seq = .sampling .a ∧ spectralSampled.adcDone = true :=
  ⟨cfgS_wf,
    ⟨spectralBase_tables, fun _ h => by cases h; exact ⟨by decide, by decide⟩, ⟨rfl, rfl, rfl, .inr ⟨rfl, rfl, rfl⟩⟩, by decide, by decide,
      no_trace rfl rfl, fun _ => rfl⟩,
    rfl, rfl, rfl⟩

theorem witness_WriteDoneRecords :
    ({ base with seq := .emitting .a (some F32.zero), dacDone := true } : State).enabledStep = some .writeDone := by decide

theorem witness_HoldDoneReturns : ({ base with seq := .emitting .b none } : State).enabledStep = some .holdDone := by decide

/-- A write of 2.0 V is outstanding on channel A. -/
def writing : State :=
  { base with seq := .emitting .a (some (volts 0x40000000)), dacReq := some (.a, 0x3664), status := 0x0002 }

theorem writing_inv : writing.Inv :=
  ⟨base_tables, no_buffer rfl, ⟨rfl, rfl, rfl, .inl ⟨0x3664, by decide +kernel, rfl, rfl⟩⟩, by decide, by decide, no_trace rfl rfl,
    fun _ => rfl⟩

/-- A hold on channel B. -/
def holding : State := { base with seq := .emitting .b none, status := 0x0016 }

theorem holding_inv : holding.Inv :=
  ⟨base_tables, no_buffer rfl, ⟨rfl, rfl, rfl, rfl, rfl⟩, by decide, by decide, no_trace rfl rfl, fun _ => rfl⟩

/-- States of the invariant for the rows of the table: both modes in `Idle`, a request outstanding, a write outstanding, a hold; the
offered words; the completed captures are those of `VOLTAGE_PATH` and `SPECTRAL_PATH`. -/
theorem witness_SequencerTransitions : cfg8.wf = true ∧ cfgS.wf = true ∧
    (spectralBase.Inv ∧ spectralBase.seq = .idle ∧ spectralBase.cfg.mode = .spectral) ∧
    (base.Inv ∧ base.seq = .idle ∧ base.cfg.mode = .event ∧ base.offer = none) ∧
    (∀ ev, { base with offer := some ev }.Inv) ∧
    ((0b100 : EventWord) &&& 0b110 ≠ 0b010 ∧ (0b101 : EventWord) &&& 0b110 ≠ 0b010 ∧ (0b101 : EventWord) ≠ 0b100) ∧
    (requested.Inv ∧ requested.adcDone = false) ∧ (sampled.Inv ∧ sampled.adcDone = true) ∧
    (writing.Inv ∧ writing.dacDone = false) ∧ { writing with dacReq := none, dacDone := true }.Inv ∧ holding.Inv :=
  ⟨cfg8_wf, cfgS_wf, ⟨spectralBase_inv, rfl, rfl⟩, ⟨base_inv, rfl, rfl, rfl⟩,
    fun _ => ⟨base_tables, no_buffer rfl, ⟨rfl, rfl, rfl, rfl⟩, base_inv.2.2.2.1, base_inv.2.2.2.2.1, no_trace rfl rfl, fun h => by cases h⟩,
    by decide, ⟨requested_inv, rfl⟩, ⟨sampled_inv, rfl⟩, ⟨writing_inv, rfl⟩,
    ⟨base_tables, no_buffer rfl, ⟨rfl, rfl, rfl, .inr ⟨rfl, rfl⟩⟩, by decide, by decide, no_trace rfl rfl, fun _ => rfl⟩,
    holding_inv⟩

theorem witness_AtMostOneStepEnabled : Instr.isSeqStep .holdDone = true ∧ base.enabledStep ≠ some .holdDone ∧
    Instr.isSeqStep (.gate .a) = true ∧
    field (exec (.gate .a) { base with offer := some 0b010 }) State.seq = some (.sampling .a) := by decide

theorem witness_AdcCompletes : requested.adcReq = some 0 ∧ (List.replicate 8 65535).length = requested.cfg.nsamp ∧
    (∀ d ∈ List.replicate 8 65535, d < 2 ^ requested.cfg.sampleBits) := by decide

theorem witness_DacFrameLatchesRequestedFrame : ({ base with dacReq := some (.b, 0xBCC8) } : State).dacReq = some (.b, 0xBCC8) ∧
    (0xBCC8 : Frame).extractLsb' 12 4 = 0xB ∧ (0xBCC8 : Frame).extractLsb' 2 10 = 818 ∧ (0xBCC8 : Frame).extractLsb' 0 2 = 0 := by decide

theorem witness_EnvironmentMovesOrRefuses : (base.cfg.mode = .event ∧ base.offer = none) ∧ ¬(spectralBase.cfg.mode = .event) ∧
    (requested.seq ≠ .idle ∧ { requested with offer := some 0b100 }.offer ≠ none) ∧ base.adcReq = none ∧ base.dacReq = none ∧
    (0 < cfg8.nsamp ∧ 2 ^ cfg8.sampleBits ≤ 65536) := by decide

theorem witness_OutstandingRequestBlocks : requested.Inv ∧ requested.blocked :=
  ⟨requested_inv, .inl ⟨.a, rfl, rfl, rfl⟩⟩

theorem witness_BootReachesReset : ({ cfg8 with nsamp := 7 } : Cfg).wf = false ∧ cfg8.wf = true := ⟨by decide, cfg8_wf⟩

theorem witness_InvariantKeptByStep : base.Inv ∧ step base = .next base := by
  refine ⟨base_inv, ?_⟩
  unfold step
  rw [show base.cfg.failure = none from cfg8_failure]
  rfl

theorem witness_OnlyExpectLinesFault : ({ base with script := [.expect (.lastVoltage .a F32.zero)] } : State).Inv ∧
    step { base with script := [.expect (.lastVoltage .a F32.zero)] } = .fault .voltageNoValue := by
  refine ⟨base_inv, ?_⟩
  unfold step
  rw [show ({ base with script := [.expect (.lastVoltage .a F32.zero)] } : State).cfg.failure = none from cfg8_failure]
  rfl

/-- With an empty mask the event is held. -/
theorem witness_HeldEventKeepsOutput :
    field (exec .voltagePath { sampled with mask := 0x000 }) State.seq = some (.emitting .b none) := by decide +kernel

theorem witness_SpectralRoundEmitsOnce : wholeBuffer spectralBase.cfg (List.replicate 16 7) ∧ spectralBase.Inv ∧
    spectralBase.cfg.wf = true ∧ spectralBase.cfg.mode = .spectral ∧ spectralBase.seq = .idle :=
  ⟨by decide, spectralBase_inv, cfgS_wf, rfl, rfl⟩

theorem witness_GateEventServedOnce : wholeBuffer base.cfg (List.replicate 8 1024) ∧ base.Inv ∧ base.cfg.wf = true ∧
    base.cfg.mode = .event ∧ base.seq = .idle ∧ base.offer = none :=
  ⟨sampled_whole, base_inv, cfg8_wf, rfl, rfl, rfl⟩

end Sys2Proof.Tests
end

section
/-!
PROOFS. The number line of the finite binary32 values. The exponent and fraction fields, read as one number, count the magnitudes
in increasing order; a rounding is the choice of the nearest of them (00_scope.md R12).
-/

namespace Sys2Proof

/-! ### The fields as one number -/

/-- The magnitude, in units of 2^-149, of the value whose exponent and fraction fields read as one number are `r`
(30_encoding.md R84, bits 30:0). Beyond the finite values the same rule goes on: `255 * 2^23` stands for `2^128`. -/
def F32.fieldsMagnitude (r : ℕ) : ℕ := F32.magnitude (r / 2 ^ 23) (r % 2 ^ 23)

/-- The same magnitude as a real number. -/
noncomputable def F32.fieldsValue (r : ℕ) : ℝ := (F32.fieldsMagnitude r : ℝ) / 2 ^ 149

/-- A significand `m` at exponent `e`, normal or at the least exponent, has magnitude `m * 2^e`; `m = 2^24` carries. -/
theorem F32.fieldsMagnitude_eq {e m : ℕ} (hm : m ≤ 2 ^ 24) (h : e = 0 ∨ 2 ^ 23 ≤ m) :
    F32.fieldsMagnitude (e * 2 ^ 23 + m) = m * 2 ^ e := by
  unfold F32.fieldsMagnitude F32.magnitude
  rcases Nat.lt_or_ge m (2 ^ 23) with small | normal
  · obtain rfl : e = 0 := by omega
    rw [if_pos (by omega)]
    omega
  rcases Nat.lt_or_ge m (2 ^ 24) with noCarry | carry
  · rw [show (e * 2 ^ 23 + m) / 2 ^ 23 = e + 1 by omega, if_neg (by omega),
      show 2 ^ 23 + (e * 2 ^ 23 + m) % 2 ^ 23 = m by omega, Nat.add_sub_cancel]
  · obtain rfl : m = 2 ^ 24 := by omega
    rw [show (e * 2 ^ 23 + 2 ^ 24) / 2 ^ 23 = e + 2 by omega, if_neg (by omega),
      show 2 ^ 23 + (e * 2 ^ 23 + 2 ^ 24) % 2 ^ 23 = 2 ^ 23 by omega, show e + 2 - 1 = e + 1 by omega]
    ring

/-- Every number is the fields of some significand at some exponent, without a carry. -/
theorem F32.exists_significand (r : ℕ) : ∃ e m : ℕ, m < 2 ^ 24 ∧ (e = 0 ∨ 2 ^ 23 ≤ m) ∧ r = e * 2 ^ 23 + m := by
  rcases Nat.lt_or_ge r (2 ^ 23) with h | h
  · exact ⟨0, r, by omega, .inl rfl, by omega⟩
  · exact ⟨r / 2 ^ 23 - 1, 2 ^ 23 + r % 2 ^ 23, by omega, .inr (by omega), by omega⟩

theorem F32.fieldsMagnitude_strictMono : StrictMono F32.fieldsMagnitude := by
  refine strictMono_nat_of_lt_succ fun r => ?_
  obtain ⟨e, m, hm, h, rfl⟩ := F32.exists_significand r
  rw [F32.fieldsMagnitude_eq hm.le h, add_assoc, F32.fieldsMagnitude_eq hm (by omega)]
  exact Nat.mul_lt_mul_of_pos_right (by omega) (by positivity)

theorem F32.fieldsValue_strictMono : StrictMono F32.fieldsValue := fun _ _ h =>
  div_lt_div_of_pos_right (by exact_mod_cast F32.fieldsMagnitude_strictMono h) (by positivity)

@[simp] theorem F32.fieldsValue_zero : F32.fieldsValue 0 = 0 := by
  simp [F32.fieldsValue, F32.fieldsMagnitude, F32.magnitude]

theorem F32.fieldsValue_nonneg (r : ℕ) : 0 ≤ F32.fieldsValue r := by
  unfold F32.fieldsValue
  positivity

/-- The number of the first fields that are no finite value. -/
theorem F32.fieldsValue_limit : F32.fieldsValue (255 * 2 ^ 23) = 2 ^ 128 := by
  rw [F32.fieldsValue, show 255 * 2 ^ 23 = 254 * 2 ^ 23 + 2 ^ 23 by norm_num,
    F32.fieldsMagnitude_eq (by norm_num) (.inr le_rfl)]
  norm_num

/-- The greatest finite value. -/
theorem F32.fieldsValue_max : F32.fieldsValue (255 * 2 ^ 23 - 1) = 2 ^ 128 - 2 ^ 104 := by
  rw [F32.fieldsValue, show 255 * 2 ^ 23 - 1 = 253 * 2 ^ 23 + (2 ^ 24 - 1) by norm_num,
    F32.fieldsMagnitude_eq (by norm_num) (.inr (by norm_num))]
  norm_num

/-- A significand of at most 24 bits, at a legal exponent, is a finite value exactly. -/
theorem F32.exists_fieldsMagnitude_eq {m e : ℕ} (hm : m ≤ 2 ^ 24) (he : e ≤ 252) :
    ∃ r < 255 * 2 ^ 23, F32.fieldsMagnitude r = m * 2 ^ e := by
  induction e generalizing m with
  | zero => exact ⟨0 * 2 ^ 23 + m, by omega, F32.fieldsMagnitude_eq hm (.inl rfl)⟩
  | succ e ih =>
    rcases Nat.lt_or_ge m (2 ^ 23) with small | normal
    · obtain ⟨r, hr, eq⟩ := ih (m := 2 * m) (by omega) (by omega)
      exact ⟨r, hr, by rw [eq]; ring⟩
    · exact ⟨(e + 1) * 2 ^ 23 + m, by omega, F32.fieldsMagnitude_eq hm (.inr normal)⟩

/-! ### Values and their fields -/

@[simp] theorem F32.isFinite_fin (neg : Bool) (e : Fin 255) (f : BitVec 23) : (F32.fin neg e f).isFinite = true := rfl
@[simp] theorem F32.isFinite_inf (neg : Bool) : (F32.inf neg).isFinite = false := rfl
@[simp] theorem F32.isFinite_nan : F32.nan.isFinite = false := rfl

/-- Below the first fields of an infinity, `ofFields` gives the value of these fields. -/
theorem F32.ofFields_of_lt (neg : Bool) {r : ℕ} (h : r < 255 * 2 ^ 23) :
    F32.ofFields neg r = .fin neg ⟨r / 2 ^ 23, Nat.div_lt_of_lt_mul (by omega)⟩ (BitVec.ofNat 23 r) := dif_pos h

theorem F32.ofFields_of_ge (neg : Bool) {r : ℕ} (h : 255 * 2 ^ 23 ≤ r) : F32.ofFields neg r = .inf neg := dif_neg (by omega)

/-- Every finite value is given by a sign and its fields. -/
theorem F32.exists_eq_ofFields {x : F32} (hx : x.isFinite = true) : ∃ neg, ∃ r < 255 * 2 ^ 23, x = F32.ofFields neg r := by
  obtain _ | _ | ⟨neg, e, f⟩ := x
  case fin =>
    have he := e.isLt
    have hf := f.isLt
    refine ⟨neg, e.val * 2 ^ 23 + f.toNat, by omega, ?_⟩
    rw [F32.ofFields_of_lt _ (by omega)]
    congr 1
    · exact Fin.ext (by change e.val = (e.val * 2 ^ 23 + f.toNat) / 2 ^ 23; omega)
    · exact BitVec.eq_of_toNat_eq (by rw [BitVec.toNat_ofNat]; omega)
  all_goals cases hx

theorem F32.value_ofFields (neg : Bool) {r : ℕ} (h : r < 255 * 2 ^ 23) :
    (F32.ofFields neg r).value = if neg then -F32.fieldsValue r else F32.fieldsValue r := by
  rw [F32.ofFields_of_lt neg h, F32.value, F32.scaled, F32.fieldsValue, F32.fieldsMagnitude, BitVec.toNat_ofNat]
  cases neg <;> simp [neg_div]

theorem F32.isEven_ofFields (neg : Bool) {r : ℕ} (h : r < 255 * 2 ^ 23) : (F32.ofFields neg r).isEven ↔ r % 2 = 0 := by
  rw [F32.ofFields_of_lt neg h, F32.isEven, BitVec.getLsbD_ofNat, Nat.testBit_zero]
  simp

theorem F32.isFinite_ofFields (neg : Bool) {r : ℕ} (h : r < 255 * 2 ^ 23) : (F32.ofFields neg r).isFinite = true := by
  rw [F32.ofFields_of_lt neg h, F32.isFinite_fin]

/-! ### The sign -/

@[simp] theorem F32.isFinite_negate (x : F32) : x.negate.isFinite = x.isFinite := by
  cases x <;> rfl

@[simp] theorem F32.negate_negate (x : F32) : x.negate.negate = x := by
  cases x <;> simp [F32.negate]

theorem F32.isEven_negate (x : F32) : x.negate.isEven ↔ x.isEven := by
  cases x <;> rfl

theorem F32.scaled_negate {x : F32} (hx : x.isFinite = true) : x.negate.scaled = -x.scaled := by
  obtain _ | _ | ⟨_ | _, e, f⟩ := x
  case fin.false => simp [F32.negate, F32.scaled]
  case fin.true => simp [F32.negate, F32.scaled]
  all_goals cases hx

theorem F32.value_negate {x : F32} (hx : x.isFinite = true) : x.negate.value = -x.value := by
  rw [F32.value, F32.scaled_negate hx, F32.value, Int.cast_neg, neg_div]

theorem F32.negate_ofFields (neg : Bool) (r : ℕ) : (F32.ofFields neg r).negate = F32.ofFields (!neg) r := by
  unfold F32.ofFields
  split_ifs <;> rfl

/-- A finite value is its sign and its magnitude. -/
theorem F32.value_eq_sign_mul {x : F32} (hx : x.isFinite = true) :
    x.value = (if x.isNeg then -1 else 1) * ((x.absScaled : ℝ) / 2 ^ 149) := by
  obtain _ | _ | ⟨_ | _, e, f⟩ := x
  case fin.false => simp [F32.value, F32.absScaled, F32.scaled, F32.isNeg]
  case fin.true => simp [F32.value, F32.absScaled, F32.scaled, F32.isNeg, neg_div]
  all_goals cases hx

/-! ### Order -/

theorem F32.value_lt_value {x y : F32} : x.value < y.value ↔ x.scaled < y.scaled := by
  rw [F32.value, F32.value, div_lt_div_iff_of_pos_right (by positivity), Int.cast_lt]

theorem F32.value_le_value {x y : F32} : x.value ≤ y.value ↔ x.scaled ≤ y.scaled := by
  rw [F32.value, F32.value, div_le_div_iff_of_pos_right (by positivity), Int.cast_le]

theorem F32.value_eq_value {x y : F32} : x.value = y.value ↔ x.scaled = y.scaled := by
  rw [F32.value, F32.value, div_left_inj' (by positivity), Int.cast_inj]

theorem F32.value_eq_zero {x : F32} : x.value = 0 ↔ x.scaled = 0 := by
  simp [F32.value]

/-- No finite value is as great as `2^128 - 2^103`, where the infinities begin. -/
theorem F32.abs_value_lt {x : F32} (hx : x.isFinite = true) : |x.value| < 2 ^ 128 - 2 ^ 103 := by
  obtain ⟨neg, r, hr, rfl⟩ := F32.exists_eq_ofFields hx
  have top := F32.fieldsValue_strictMono.monotone (show r ≤ 255 * 2 ^ 23 - 1 by omega)
  have abs : |(F32.ofFields neg r).value| = F32.fieldsValue r := by
    rw [F32.value_ofFields _ hr]
    cases neg <;> simp [F32.fieldsValue_nonneg]
  rw [abs]
  exact (top.trans_eq F32.fieldsValue_max).trans_lt (by norm_num)

end Sys2Proof
end

section
/-!
PROOFS. One rounding (00_scope.md R12): `roundMagnitude` picks the fields whose magnitude is nearest to the exact one, of two
equally near the even, and so `rneSigned` is `Rounds`. A rounding is unique up to the sign of a zero.
-/

namespace Sys2Proof

/-! ### The nearest magnitude -/

/-- `r` is nearest to `q` among all fields: no midpoint between it and another one lies on the wrong side of `q`, and an odd `r` is
not on a midpoint. -/
def F32.NearestFields (q : ℝ) (r : ℕ) : Prop :=
  (∀ k < r, F32.fieldsValue k + F32.fieldsValue r ≤ 2 * q ∧
    (r % 2 = 1 → F32.fieldsValue k + F32.fieldsValue r < 2 * q)) ∧
  ∀ k > r, 2 * q ≤ F32.fieldsValue r + F32.fieldsValue k ∧
    (r % 2 = 1 → 2 * q < F32.fieldsValue r + F32.fieldsValue k)

/-- Rounding to an integer is off by at most a half, and by less when the result is odd. -/
theorem roundEven_bounds {n d : ℕ} (hd : 0 < d) :
    (2 * n ≤ (2 * roundEven n d + 1) * d ∧ 2 * roundEven n d * d ≤ 2 * n + d) ∧
      (roundEven n d % 2 = 1 → 2 * n < (2 * roundEven n d + 1) * d ∧ 2 * roundEven n d * d < 2 * n + d) := by
  have division : n / d * d + n % d = n := Nat.div_add_mod' n d
  have small := Nat.mod_lt n hd
  unfold roundEven
  generalize n / d = a at *
  generalize n % d = b at *
  split_ifs with up
  · rw [show (2 * (a + 1) + 1) * d = 2 * (a * d) + 3 * d by ring, show 2 * (a + 1) * d = 2 * (a * d) + 2 * d by ring]
    omega
  · rw [show (2 * a + 1) * d = 2 * (a * d) + d by ring, show 2 * a * d = 2 * (a * d) by ring]
    omega

theorem div_le_roundEven (n d : ℕ) : n / d ≤ roundEven n d := by
  unfold roundEven
  split_ifs <;> omega

theorem roundEven_le_div_succ (n d : ℕ) : roundEven n d ≤ n / d + 1 := by
  unfold roundEven
  split_ifs <;> omega

/-- At its rounding exponent a magnitude is below `2^24`. -/
theorem lt_at_roundingExponent {n d : ℕ} (hd : 0 < d) :
    n * F32.one < 2 ^ 24 * (d * 2 ^ roundingExponent n d) := by
  have log : n * F32.one / d < 2 ^ (roundingExponent n d + 24) :=
    Nat.lt_log2_self.trans_le (Nat.pow_le_pow_right (by norm_num) (by unfold roundingExponent; omega))
  calc n * F32.one < 2 ^ (roundingExponent n d + 24) * d := (Nat.div_lt_iff_lt_mul hd).mp log
    _ = 2 ^ 24 * (d * 2 ^ roundingExponent n d) := by ring

/-- At its rounding exponent a magnitude is at least `2^23`, but for a subnormal. -/
theorem le_at_roundingExponent {n d : ℕ} (h : roundingExponent n d ≠ 0) :
    2 ^ 23 * (d * 2 ^ roundingExponent n d) ≤ n * F32.one := by
  have exp : roundingExponent n d + 23 = Nat.log2 (n * F32.one / d) := by
    unfold roundingExponent at *
    omega
  have log : 2 ^ (roundingExponent n d + 23) ≤ n * F32.one / d := by
    rw [exp]
    exact Nat.log2_self_le fun z => by rw [z, Nat.log2_zero] at exp; omega
  calc 2 ^ 23 * (d * 2 ^ roundingExponent n d) = 2 ^ (roundingExponent n d + 23) * d := by ring
    _ ≤ n * F32.one := Nat.mul_le_of_le_div _ _ _ log

/-- The rounded significand has at most 24 bits, and 24 but for a subnormal. -/
theorem significand_bounds {n d : ℕ} (hd : 0 < d) :
    roundEven (n * F32.one) (d * 2 ^ roundingExponent n d) ≤ 2 ^ 24 ∧
      (roundingExponent n d = 0 ∨ 2 ^ 23 ≤ roundEven (n * F32.one) (d * 2 ^ roundingExponent n d)) := by
  have pos : 0 < d * 2 ^ roundingExponent n d := by positivity
  constructor
  · have := (Nat.div_lt_iff_lt_mul pos).mpr (lt_at_roundingExponent (n := n) hd)
    exact (roundEven_le_div_succ _ _).trans this
  · exact (Nat.eq_zero_or_pos _).imp_right fun h =>
      ((Nat.le_div_iff_mul_le pos).mpr (le_at_roundingExponent h.ne')).trans (div_le_roundEven _ _)

theorem fieldsMagnitude_roundMagnitude {n d : ℕ} (hd : 0 < d) : F32.fieldsMagnitude (roundMagnitude n d) =
    roundEven (n * F32.one) (d * 2 ^ roundingExponent n d) * 2 ^ roundingExponent n d :=
  F32.fieldsMagnitude_eq (significand_bounds hd).1 (significand_bounds hd).2

/-- The rounded fields and their significand have the same parity. -/
theorem roundMagnitude_mod_two (n d : ℕ) :
    roundMagnitude n d % 2 = roundEven (n * F32.one) (d * 2 ^ roundingExponent n d) % 2 := by
  unfold roundMagnitude
  omega

/-- The next magnitude above a rounded one is at least one unit of the significand away. -/
theorem le_fieldsMagnitude_above {n d k : ℕ} (hd : 0 < d) (h : roundMagnitude n d < k) :
    (roundEven (n * F32.one) (d * 2 ^ roundingExponent n d) + 1) * 2 ^ roundingExponent n d ≤ F32.fieldsMagnitude k := by
  refine le_trans ?_ (F32.fieldsMagnitude_strictMono.monotone h)
  obtain ⟨le, normal⟩ := significand_bounds (n := n) hd
  unfold roundMagnitude
  generalize roundEven _ _ = m at *
  generalize roundingExponent n d = e at *
  rcases Nat.lt_or_ge m (2 ^ 24) with noCarry | carry
  · rw [Nat.succ_eq_add_one, add_assoc, F32.fieldsMagnitude_eq noCarry (by omega)]
  · obtain rfl : m = 2 ^ 24 := by omega
    rw [show Nat.succ (e * 2 ^ 23 + 2 ^ 24) = (e + 1) * 2 ^ 23 + (2 ^ 23 + 1) by omega,
      F32.fieldsMagnitude_eq (by norm_num) (.inr (by norm_num))]
    linarith [pow_succ 2 e, Nat.zero_le (2 ^ e)]

/-- The next magnitude below a rounded one is one unit of the significand away, but at the foot of a normal exponent. -/
theorem fieldsMagnitude_below_le {n d k : ℕ} (hd : 0 < d) (h : k < roundMagnitude n d)
    (foot : roundingExponent n d = 0 ∨ roundEven (n * F32.one) (d * 2 ^ roundingExponent n d) ≠ 2 ^ 23) :
    F32.fieldsMagnitude k + 2 ^ roundingExponent n d ≤ F32.fieldsMagnitude (roundMagnitude n d) := by
  obtain ⟨le, normal⟩ := significand_bounds (n := n) hd
  rw [fieldsMagnitude_roundMagnitude hd]
  unfold roundMagnitude at h
  generalize roundEven _ _ = m at *
  generalize roundingExponent n d = e at *
  obtain ⟨j, rfl⟩ : ∃ j, m = j + 1 := ⟨m - 1, by omega⟩
  have below := F32.fieldsMagnitude_strictMono.monotone (show k ≤ e * 2 ^ 23 + j by omega)
  rw [F32.fieldsMagnitude_eq (by omega) (by omega)] at below
  linarith [add_one_mul j (2 ^ e)]

/-- Every midpoint above the rounded magnitude is above the exact one. -/
theorem roundMagnitude_above {n d k : ℕ} (hd : 0 < d) (h : roundMagnitude n d < k) :
    2 * (n * F32.one) ≤ (F32.fieldsMagnitude (roundMagnitude n d) + F32.fieldsMagnitude k) * d ∧ (roundMagnitude n d % 2 = 1 →
      2 * (n * F32.one) < (F32.fieldsMagnitude (roundMagnitude n d) + F32.fieldsMagnitude k) * d) := by
  obtain ⟨near, odd⟩ := roundEven_bounds (n := n * F32.one) (d := d * 2 ^ roundingExponent n d) (by positivity)
  have gap : _ ≤ (F32.fieldsMagnitude (roundMagnitude n d) + F32.fieldsMagnitude k) * d :=
    Nat.mul_le_mul_right d (Nat.add_le_add_left (le_fieldsMagnitude_above hd h) _)
  rw [fieldsMagnitude_roundMagnitude hd] at gap ⊢
  rw [roundMagnitude_mod_two]
  generalize roundEven _ _ = m at *
  have unit : (2 * m + 1) * (d * 2 ^ roundingExponent n d) =
      (m * 2 ^ roundingExponent n d + (m + 1) * 2 ^ roundingExponent n d) * d := by ring
  exact ⟨by linarith [near.1], fun h => by linarith [(odd h).1]⟩

/-- Every midpoint below the rounded magnitude is below the exact one. -/
theorem roundMagnitude_below {n d k : ℕ} (hd : 0 < d) (h : k < roundMagnitude n d) :
    (F32.fieldsMagnitude k + F32.fieldsMagnitude (roundMagnitude n d)) * d ≤ 2 * (n * F32.one) ∧ (roundMagnitude n d % 2 = 1 →
      (F32.fieldsMagnitude k + F32.fieldsMagnitude (roundMagnitude n d)) * d < 2 * (n * F32.one)) := by
  by_cases foot : roundingExponent n d = 0 ∨ roundEven (n * F32.one) (d * 2 ^ roundingExponent n d) ≠ 2 ^ 23
  · obtain ⟨near, odd⟩ := roundEven_bounds (n := n * F32.one) (d := d * 2 ^ roundingExponent n d) (by positivity)
    have gap := Nat.mul_le_mul_right d (fieldsMagnitude_below_le hd h foot)
    rw [fieldsMagnitude_roundMagnitude hd] at gap ⊢
    rw [roundMagnitude_mod_two]
    generalize roundEven _ _ = m at *
    have unit : 2 * m * (d * 2 ^ roundingExponent n d) = 2 * (m * 2 ^ roundingExponent n d * d) := by ring
    exact ⟨by linarith [near.2], fun h => by linarith [(odd h).2]⟩
  · obtain ⟨normal, eq⟩ := not_or.mp foot
    have le_exact : F32.fieldsMagnitude (roundMagnitude n d) * d ≤ n * F32.one := by
      rw [fieldsMagnitude_roundMagnitude hd, not_not.mp eq]
      linarith [le_at_roundingExponent (d := d) normal]
    have lt := Nat.mul_lt_mul_of_pos_right (F32.fieldsMagnitude_strictMono h) hd
    have strict : (F32.fieldsMagnitude k + F32.fieldsMagnitude (roundMagnitude n d)) * d < 2 * (n * F32.one) := by linarith
    exact ⟨strict.le, fun _ => strict⟩

/-- `roundMagnitude` gives the nearest fields. -/
theorem nearestFields_roundMagnitude (n : ℕ) {d : ℕ} (hd : 0 < d) :
    F32.NearestFields ((n : ℝ) / d) (roundMagnitude n d) := by
  have hd' : (0 : ℝ) < d := by exact_mod_cast hd
  have twice : 2 * ((n : ℝ) / d) = (2 * (n * F32.one) : ℕ) / d / 2 ^ 149 := by
    simp only [F32.one]
    push_cast
    field_simp
    ring
  have sum (j k : ℕ) : F32.fieldsValue j + F32.fieldsValue k =
      ((F32.fieldsMagnitude j + F32.fieldsMagnitude k) * d : ℕ) / d / 2 ^ 149 := by
    simp only [F32.fieldsValue]
    push_cast
    field_simp
  have le_iff (a b : ℕ) : (a : ℝ) / d / 2 ^ 149 ≤ (b : ℝ) / d / 2 ^ 149 ↔ a ≤ b := by
    rw [div_le_div_iff_of_pos_right (by positivity), div_le_div_iff_of_pos_right hd', Nat.cast_le]
  have lt_iff (a b : ℕ) : (a : ℝ) / d / 2 ^ 149 < (b : ℝ) / d / 2 ^ 149 ↔ a < b := by
    rw [div_lt_div_iff_of_pos_right (by positivity), div_lt_div_iff_of_pos_right hd', Nat.cast_lt]
  constructor <;> intro k hk <;> rw [sum, twice, le_iff, lt_iff]
  · exact roundMagnitude_below hd hk
  · exact roundMagnitude_above hd hk

/-! ### From the nearest magnitude to `Rounds` -/

/-- The nearest fields are at the least distance, and an odd one is at that distance alone. -/
theorem F32.NearestFields.abs_sub_le {q : ℝ} {r : ℕ} (h : F32.NearestFields q r) (k : ℕ) :
    |F32.fieldsValue r - q| ≤ |F32.fieldsValue k - q| ∧ (|F32.fieldsValue r - q| = |F32.fieldsValue k - q| →
      F32.fieldsValue k = F32.fieldsValue r ∨ r % 2 = 0) := by
  rcases Nat.lt_trichotomy k r with lt | rfl | gt
  · obtain ⟨below, odd⟩ := h.1 k lt
    have mono := F32.fieldsValue_strictMono lt
    rw [abs_of_nonpos (show F32.fieldsValue k - q ≤ 0 by linarith)]
    refine ⟨abs_le.mpr ⟨by linarith, by linarith⟩, fun eq => .inr (by_contra fun even => ?_)⟩
    have strict := odd (by omega)
    exact absurd eq (abs_lt.mpr ⟨by linarith, by linarith⟩).ne
  · exact ⟨le_rfl, fun _ => .inl rfl⟩
  · obtain ⟨above, odd⟩ := h.2 k gt
    have mono := F32.fieldsValue_strictMono gt
    rw [abs_of_nonneg (show 0 ≤ F32.fieldsValue k - q by linarith)]
    refine ⟨abs_le.mpr ⟨by linarith, by linarith⟩, fun eq => .inr (by_contra fun even => ?_)⟩
    have strict := odd (by omega)
    exact absurd eq (abs_lt.mpr ⟨by linarith, by linarith⟩).ne

/-- To a number that is not negative the nearest fields are as near as any negative value. -/
theorem F32.NearestFields.abs_sub_le_neg {q : ℝ} {r : ℕ} (h : F32.NearestFields q r) (hq : 0 ≤ q) (k : ℕ) :
    |F32.fieldsValue r - q| ≤ |-F32.fieldsValue k - q| ∧ (|F32.fieldsValue r - q| = |-F32.fieldsValue k - q| →
      -F32.fieldsValue k = F32.fieldsValue r ∨ r % 2 = 0) := by
  have zero := h.abs_sub_le 0
  have pos := F32.fieldsValue_nonneg k
  rw [F32.fieldsValue_zero, zero_sub, abs_neg, abs_of_nonneg hq] at zero
  rw [abs_of_nonpos (show -F32.fieldsValue k - q ≤ 0 by linarith)]
  refine ⟨by linarith [zero.1], fun eq => ?_⟩
  have vanishes : F32.fieldsValue k = 0 := by linarith [zero.1]
  rw [vanishes, neg_zero]
  exact zero.2 (by linarith)

/-- The nearest fields are those of a finite value exactly below `2^128 - 2^103`, the midpoint whose lower end is odd. -/
theorem F32.NearestFields.lt_iff {q : ℝ} {r : ℕ} (h : F32.NearestFields q r) :
    r < 255 * 2 ^ 23 ↔ q < 2 ^ 128 - 2 ^ 103 := by
  have limit := F32.fieldsValue_limit
  have max := F32.fieldsValue_max
  constructor
  · intro finite
    obtain ⟨above, odd⟩ := h.2 _ finite
    rcases Nat.lt_or_ge r (255 * 2 ^ 23 - 1) with lt | ge
    · have := F32.fieldsValue_strictMono lt
      linarith
    · obtain rfl : r = 255 * 2 ^ 23 - 1 := by omega
      linarith [odd (by norm_num)]
  · refine fun small => Nat.lt_of_not_ge fun ge => ?_
    have below := (h.1 (255 * 2 ^ 23 - 1) (by omega)).1
    have := F32.fieldsValue_strictMono.monotone ge
    linarith

/-- The rounding of the opposite number is the opposite value. -/
theorem Rounds.negate {q : ℝ} {x : F32} (h : Rounds q x) : Rounds (-q) x.negate := by
  obtain ⟨near, above, below⟩ := h
  refine ⟨fun hq => ?_, fun hq => ?_, fun hq => ?_⟩
  · obtain ⟨finite, nearest⟩ := near (by rwa [abs_neg] at hq)
    refine ⟨by rwa [F32.isFinite_negate], fun y hy => ?_⟩
    have mirror (a : ℝ) : |-a - q| = |a - -q| := by rw [← abs_neg]; ring_nf
    have := nearest y.negate (by rwa [F32.isFinite_negate])
    rw [F32.value_negate hy, mirror, neg_eq_iff_eq_neg] at this
    rwa [F32.value_negate finite, F32.isEven_negate, show |-x.value - -q| = |x.value - q| by rw [← abs_neg]; ring_nf]
  · rw [below (by linarith)]
    rfl
  · rw [above (by linarith)]
    rfl

/-- The value of the nearest fields is the rounding of a number that is not negative. -/
theorem F32.NearestFields.rounds {q : ℝ} {r : ℕ} (h : F32.NearestFields q r) (hq : 0 ≤ q) : Rounds q (F32.ofFields false r) := by
  refine ⟨fun small => ?_, fun large => ?_, fun neg => ?_⟩
  · have hr := h.lt_iff.mpr (abs_of_nonneg hq ▸ small)
    refine ⟨F32.isFinite_ofFields _ hr, fun y hy => ?_⟩
    obtain ⟨neg, k, hk, rfl⟩ := F32.exists_eq_ofFields hy
    rw [F32.value_ofFields _ hr, F32.value_ofFields _ hk, F32.isEven_ofFields _ hr]
    cases neg
    · exact h.abs_sub_le k
    · exact h.abs_sub_le_neg hq k
  · exact F32.ofFields_of_ge _ (Nat.le_of_not_lt fun hr => (h.lt_iff.mp hr).not_ge large)
  · exact absurd neg (by norm_num; linarith)

/-! ### The rounding functions -/

/-- `rneSigned` rounds a magnitude with a sign of its own. -/
theorem rounds_rneSigned (neg : Bool) (n : ℕ) {d : ℕ} (hd : 0 < d) :
    Rounds ((if neg then -1 else 1) * ((n : ℝ) / d)) (rneSigned neg n d) := by
  have pos := (nearestFields_roundMagnitude n hd).rounds (by positivity)
  rw [rneSigned, if_neg hd.ne']
  cases neg
  · simpa using pos
  · simpa [F32.negate_ofFields] using pos.negate

/-- `RNE32` rounds a rational number. -/
theorem rounds_rne32 (n : ℤ) {d : ℕ} (hd : 0 < d) : Rounds ((n : ℝ) / d) (rne32 n d) := by
  have signed := rounds_rneSigned (decide (n < 0)) n.natAbs hd
  have abs : ((n.natAbs : ℕ) : ℝ) = |(n : ℝ)| := by rw [Nat.cast_natAbs, Int.cast_abs]
  rcases lt_or_ge n 0 with neg | nonneg
  · rwa [decide_eq_true neg, if_pos rfl, abs, abs_of_neg (by exact_mod_cast neg), neg_div, neg_one_mul, neg_neg,
      ← decide_eq_true neg] at signed
  · rwa [decide_eq_false nonneg.not_gt, if_neg Bool.false_ne_true, abs, abs_of_nonneg (by exact_mod_cast nonneg), one_mul,
      ← decide_eq_false nonneg.not_gt] at signed

/-- A zero of either sign is the rounding of 0. -/
theorem rounds_zero (neg : Bool) : Rounds 0 (.fin neg 0 0) := by
  have zero : rneSigned neg 0 1 = .fin neg 0 0 := by cases neg <;> decide +kernel
  simpa [zero] using rounds_rneSigned neg 0 one_pos

/-! ### The rounding is unique -/

/-- Between an even value above zero and a smaller even value stands another. -/
theorem F32.exists_between_of_pos {x y : F32} (hx : x.isFinite = true) (hy : y.isFinite = true) (ex : x.isEven) (ey : y.isEven)
    (lt : x.value < y.value) (pos : 0 < y.value) : ∃ z : F32, z.isFinite = true ∧ x.value < z.value ∧ z.value < y.value := by
  obtain ⟨_ | _, k, hk, rfl⟩ := F32.exists_eq_ofFields hy
  case true =>
    rw [F32.value_ofFields _ hk, if_pos rfl] at pos
    linarith [F32.fieldsValue_nonneg k]
  obtain ⟨neg, j, hj, rfl⟩ := F32.exists_eq_ofFields hx
  rw [F32.isEven_ofFields _ hk] at ey
  rw [F32.isEven_ofFields _ hj] at ex
  rw [F32.value_ofFields _ hk, if_neg Bool.false_ne_true] at pos lt ⊢
  rw [F32.value_ofFields _ hj] at lt ⊢
  have hk0 : 0 < k := F32.fieldsValue_strictMono.lt_iff_lt.mp (F32.fieldsValue_zero.trans_lt pos)
  have mid : (F32.ofFields false (k - 1)).value = F32.fieldsValue (k - 1) := F32.value_ofFields _ (by omega)
  refine ⟨.ofFields false (k - 1), F32.isFinite_ofFields _ (by omega), ?_, ?_⟩
  · rw [mid]
    cases neg
    · have := F32.fieldsValue_strictMono.lt_iff_lt.mp lt
      exact F32.fieldsValue_strictMono (by omega)
    · have := F32.fieldsValue_strictMono (show 0 < k - 1 by omega)
      have := F32.fieldsValue_nonneg j
      simp only [if_true]
      linarith [F32.fieldsValue_zero]
  · rw [mid]
    exact F32.fieldsValue_strictMono (by omega)

/-- Between two even values stands another. -/
theorem F32.exists_between {x y : F32} (hx : x.isFinite = true) (hy : y.isFinite = true) (ex : x.isEven) (ey : y.isEven)
    (lt : x.value < y.value) : ∃ z : F32, z.isFinite = true ∧ x.value < z.value ∧ z.value < y.value := by
  rcases lt_or_ge 0 y.value with pos | nonpos
  · exact F32.exists_between_of_pos hx hy ex ey lt pos
  · obtain ⟨z, hz, low, high⟩ := F32.exists_between_of_pos (x := y.negate) (y := x.negate)
      (by rwa [F32.isFinite_negate]) (by rwa [F32.isFinite_negate]) ((F32.isEven_negate y).mpr ey) ((F32.isEven_negate x).mpr ex)
      (by rw [F32.value_negate hx, F32.value_negate hy]; linarith) (by rw [F32.value_negate hx]; linarith)
    rw [F32.value_negate hy] at low
    rw [F32.value_negate hx] at high
    exact ⟨z.negate, by rwa [F32.isFinite_negate], by rw [F32.value_negate hz]; linarith, by rw [F32.value_negate hz]; linarith⟩

/-- A number has no two roundings of different values. -/
theorem Rounds.not_value_lt {q : ℝ} {x y : F32} (hx : Rounds q x) (hy : Rounds q y) (small : |q| < 2 ^ 128 - 2 ^ 103) :
    ¬x.value < y.value := by
  intro lt
  obtain ⟨fx, nx⟩ := hx.1 small
  obtain ⟨fy, ny⟩ := hy.1 small
  have tie : |x.value - q| = |y.value - q| := le_antisymm (nx y fy).1 (ny x fx).1
  have ex := ((nx y fy).2 tie).resolve_left lt.ne'
  have ey := ((ny x fx).2 tie.symm).resolve_left lt.ne
  obtain ⟨z, fz, low, high⟩ := F32.exists_between fx fy ex ey lt
  have nearer : |z.value - q| < |x.value - q| :=
    abs_lt.mpr ⟨by linarith [neg_abs_le (x.value - q)], by linarith [le_abs_self (y.value - q)]⟩
  exact nearer.not_ge (nx z fz).1

/-- A rounding is finite exactly below the threshold of the infinities. -/
theorem Rounds.isFinite_iff {q : ℝ} {x : F32} (h : Rounds q x) : x.isFinite = true ↔ |q| < 2 ^ 128 - 2 ^ 103 := by
  refine ⟨fun finite => lt_of_not_ge fun large => ?_, fun small => (h.1 small).1⟩
  rcases le_abs.mp large with above | below
  · simp [h.2.1 above] at finite
  · simp [h.2.2 (by linarith)] at finite

/-- Two roundings of one number have the same value. -/
theorem Rounds.value_unique {q : ℝ} {x y : F32} (hx : Rounds q x) (hy : Rounds q y) : x.value = y.value := by
  rcases lt_or_ge |q| (2 ^ 128 - 2 ^ 103) with small | large
  · exact le_antisymm (not_lt.mp (hy.not_value_lt hx small)) (not_lt.mp (hx.not_value_lt hy small))
  · rcases le_abs.mp large with above | below
    · rw [hx.2.1 above, hy.2.1 above]
    · rw [hx.2.2 (by linarith), hy.2.2 (by linarith)]

/-- The rounding of a number that is a finite value is that value. -/
theorem Rounds.value_eq {x y : F32} (h : Rounds y.value x) (hy : y.isFinite = true) : x.value = y.value := by
  have near := ((h.1 (F32.abs_value_lt hy)).2 y hy).1
  rwa [sub_self, abs_zero, abs_nonpos_iff, sub_eq_zero] at near

end Sys2Proof
end

section
/-!
PROOFS. Binary32 arithmetic and comparison on finite values, in terms of their real values (00_scope.md R12).
-/

namespace Sys2Proof

theorem F32.one_pos : 0 < F32.one := by
  unfold F32.one
  positivity

theorem F32.cast_one : (F32.one : ℝ) = 2 ^ 149 := by
  unfold F32.one
  norm_num

/-! ### The operations -/

theorem F32.exists_eq_fin {x : F32} (hx : x.isFinite = true) : ∃ neg e f, x = .fin neg e f := by
  obtain _ | _ | ⟨neg, e, f⟩ := x
  case fin => exact ⟨neg, e, f, rfl⟩
  all_goals cases hx

theorem F32.add_of_isFinite {x y : F32} (hx : x.isFinite = true) (hy : y.isFinite = true) : x.add y = finiteAdd x y := by
  obtain ⟨s, e, f, rfl⟩ := F32.exists_eq_fin hx
  obtain ⟨t, e', f', rfl⟩ := F32.exists_eq_fin hy
  simp only [F32.add]

theorem F32.mul_of_isFinite {x y : F32} (hx : x.isFinite = true) (hy : y.isFinite = true) :
    x.mul y = rneSigned (x.isNeg != y.isNeg) (x.absScaled * y.absScaled) (F32.one * F32.one) := by
  obtain ⟨s, e, f, rfl⟩ := F32.exists_eq_fin hx
  obtain ⟨t, e', f', rfl⟩ := F32.exists_eq_fin hy
  simp only [F32.mul]

theorem F32.div_of_isFinite {x y : F32} (hx : x.isFinite = true) (hy : y.isFinite = true) :
    x.div y = if y.isZero then (if x.isZero then .nan else .inf (x.isNeg != y.isNeg))
      else rneSigned (x.isNeg != y.isNeg) x.absScaled y.absScaled := by
  obtain ⟨s, e, f, rfl⟩ := F32.exists_eq_fin hx
  obtain ⟨t, e', f', rfl⟩ := F32.exists_eq_fin hy
  simp only [F32.div]

theorem F32.isZero_iff_value {x : F32} (hx : x.isFinite = true) : x.isZero = true ↔ x.value = 0 := by
  obtain ⟨neg, e, f, rfl⟩ := F32.exists_eq_fin hx
  have zero : (F32.fin neg e f).scaled = 0 ↔ F32.magnitude e.val f.toNat = 0 := by
    cases neg <;> simp [F32.scaled]
  rw [F32.value_eq_zero, zero, F32.isZero, F32.magnitude, Bool.and_eq_true, beq_iff_eq, beq_iff_eq, BitVec.toNat_eq]
  split_ifs with subnormal
  · simp [subnormal]
  · simp [subnormal]

/-- The sign of a product is the product of the signs. -/
theorem sign_mul_sign (s t : Bool) :
    (if s then (-1 : ℝ) else 1) * (if t then -1 else 1) = if s != t then -1 else 1 := by
  cases s <;> cases t <;> norm_num

/-- The sign of a quotient is that of the product. -/
theorem sign_div_sign (s t : Bool) :
    (if s then (-1 : ℝ) else 1) / (if t then -1 else 1) = if s != t then -1 else 1 := by
  cases s <;> cases t <;> norm_num

theorem rounds_add {x y : F32} (hx : x.isFinite = true) (hy : y.isFinite = true) : Rounds (x.value + y.value) (x.add y) := by
  have sum : x.value + y.value = ((x.scaled + y.scaled : ℤ) : ℝ) / F32.one := by
    rw [F32.value, F32.value, F32.cast_one, Int.cast_add, add_div]
  rw [F32.add_of_isFinite hx hy, finiteAdd, sum]
  split_ifs with zero
  · rw [zero, Int.cast_zero, zero_div]
    exact rounds_zero _
  · exact rounds_rne32 _ F32.one_pos

theorem rounds_sub {x y : F32} (hx : x.isFinite = true) (hy : y.isFinite = true) : Rounds (x.value - y.value) (x.sub y) := by
  rw [sub_eq_add_neg, ← F32.value_negate hy]
  exact rounds_add hx (by rwa [F32.isFinite_negate])

theorem rounds_mul {x y : F32} (hx : x.isFinite = true) (hy : y.isFinite = true) : Rounds (x.value * y.value) (x.mul y) := by
  have prod : x.value * y.value = (if x.isNeg != y.isNeg then -1 else 1) *
      (((x.absScaled * y.absScaled : ℕ) : ℝ) / (F32.one * F32.one : ℕ)) := by
    rw [F32.value_eq_sign_mul hx, F32.value_eq_sign_mul hy, ← sign_mul_sign, Nat.cast_mul, Nat.cast_mul, F32.cast_one,
      mul_mul_mul_comm, div_mul_div_comm]
  rw [F32.mul_of_isFinite hx hy, prod]
  exact rounds_rneSigned _ _ (Nat.mul_pos F32.one_pos F32.one_pos)

theorem rounds_div {x y : F32} (hx : x.isFinite = true) (hy : y.isFinite = true) (y0 : y.value ≠ 0) :
    Rounds (x.value / y.value) (x.div y) := by
  have pos : 0 < y.absScaled := Int.natAbs_pos.mpr fun z => y0 (F32.value_eq_zero.mpr z)
  have quot : x.value / y.value = (if x.isNeg != y.isNeg then -1 else 1) * ((x.absScaled : ℝ) / y.absScaled) := by
    rw [F32.value_eq_sign_mul hx, F32.value_eq_sign_mul hy, ← sign_div_sign, mul_div_mul_comm,
      div_div_div_cancel_right₀ (by positivity)]
  rw [F32.div_of_isFinite hx hy, if_neg ((F32.isZero_iff_value hy).not.mpr y0), quot]
  exact rounds_rneSigned _ _ pos

theorem rounds_ofNat (k : ℕ) : Rounds (k : ℝ) (F32.ofNat k) := by
  simpa [F32.ofNat] using rounds_rne32 (k : ℤ) one_pos

/-- An integer of at most 24 bits converts exactly. -/
theorem F32.value_ofNat {k : ℕ} (hk : k ≤ 2 ^ 24) : (F32.ofNat k).value = k := by
  obtain ⟨r, hr, mag⟩ := F32.exists_fieldsMagnitude_eq (e := 149) hk (by norm_num)
  have representable : (F32.ofFields false r).value = k := by
    rw [F32.value_ofFields _ hr, if_neg Bool.false_ne_true, F32.fieldsValue, mag, Nat.cast_mul,
      Nat.cast_pow, Nat.cast_ofNat]
    exact mul_div_cancel_right₀ _ (show (2 : ℝ) ^ 149 ≠ 0 by positivity)
  rw [← representable]
  exact Rounds.value_eq (representable.symm ▸ rounds_ofNat k) (F32.isFinite_ofFields _ hr)

theorem F32.isFinite_ofNat {k : ℕ} (hk : k ≤ 2 ^ 24) : (F32.ofNat k).isFinite = true := by
  have le : (k : ℝ) ≤ 2 ^ 24 := by exact_mod_cast hk
  rw [(rounds_ofNat k).isFinite_iff, abs_of_nonneg k.cast_nonneg]
  exact le.trans_lt (by norm_num)

/-- A division by a zero gives no finite value. -/
theorem F32.isFinite_div_zero {x y : F32} (hx : x.isFinite = true) (hy : y.isFinite = true) (y0 : y.value = 0) :
    (x.div y).isFinite = false := by
  rw [F32.div_of_isFinite hx hy, if_pos ((F32.isZero_iff_value hy).mpr y0)]
  split_ifs <;> rfl

theorem F32.floor_value (x : F32) : ⌊x.value⌋ = x.floor := by
  have unit : (2 : ℝ) ^ 149 = (F32.one : ℕ) := F32.cast_one.symm
  rw [F32.value, unit, Int.floor_div_natCast, Int.floor_intCast, F32.floor]

/-! ### The comparisons -/

theorem F32.place_of_isFinite {x : F32} (hx : x.isFinite = true) : x.place = some x.scaled := by
  obtain ⟨neg, e, f, rfl⟩ := F32.exists_eq_fin hx
  rfl

theorem F32.place_of_isNaN {x : F32} (hx : x.isNaN = true) : x.place = none := by
  cases x
  case nan => rfl
  all_goals cases hx

@[simp] theorem F32.place_inf_false : (F32.inf false).place = some ((F32.one * 2 ^ 128 : ℕ) : ℤ) := rfl

@[simp] theorem F32.place_inf_true : (F32.inf true).place = some (-((F32.one * 2 ^ 128 : ℕ) : ℤ)) := rfl

theorem F32.lt_iff_value {x y : F32} (hx : x.isFinite = true) (hy : y.isFinite = true) : x.lt y = true ↔ x.value < y.value := by
  simp [F32.lt, F32.place_of_isFinite hx, F32.place_of_isFinite hy, F32.value_lt_value]

theorem F32.le_iff_value {x y : F32} (hx : x.isFinite = true) (hy : y.isFinite = true) : x.le y = true ↔ x.value ≤ y.value := by
  simp [F32.le, F32.place_of_isFinite hx, F32.place_of_isFinite hy, F32.value_le_value]

theorem F32.eq_iff_value {x y : F32} (hx : x.isFinite = true) (hy : y.isFinite = true) : x.eq y = true ↔ x.value = y.value := by
  simp [F32.eq, F32.place_of_isFinite hx, F32.place_of_isFinite hy, F32.value_eq_value]

/-- A comparison with a NaN is false. -/
theorem F32.compare_isNaN {x y : F32} (h : x.isNaN = true ∨ y.isNaN = true) : x.lt y = false ∧ x.le y = false ∧ x.eq y = false := by
  rcases h with hx | hy
  · simp [F32.lt, F32.le, F32.eq, F32.place_of_isNaN hx]
  · cases x.place <;> simp [F32.lt, F32.le, F32.eq, F32.place_of_isNaN hy]

/-- The number of a finite value lies strictly between the places of the infinities. -/
theorem F32.abs_scaled_lt {x : F32} (hx : x.isFinite = true) : |x.scaled| < (F32.one * 2 ^ 128 : ℕ) := by
  have small : |x.value| < 2 ^ 128 := (F32.abs_value_lt hx).trans (by norm_num)
  rw [F32.value, abs_div, abs_of_pos (show (0 : ℝ) < 2 ^ 149 by positivity), div_lt_iff₀ (by positivity)] at small
  have cast : ((|x.scaled| : ℤ) : ℝ) < ((F32.one * 2 ^ 128 : ℕ) : ℤ) := by
    rw [Int.cast_abs, F32.one]
    push_cast
    linarith
  exact_mod_cast cast

end Sys2Proof
end

section
/-!
PROOFS. The statements about binary32 (00_scope.md R12).
-/

namespace Sys2Proof

/-- An infinity is beyond every finite value, on its own side, and equal to none. -/
theorem F32.compare_inf {x : F32} (hx : x.isFinite = true) :
    (F32.inf true).lt x = true ∧ x.lt (.inf false) = true ∧ (F32.inf false).le x = false ∧ x.le (.inf true) = false ∧
      x.eq (.inf true) = false ∧ x.eq (.inf false) = false := by
  obtain ⟨low, high⟩ := abs_lt.mp (F32.abs_scaled_lt hx)
  simp only [F32.lt, F32.le, F32.eq, F32.place_of_isFinite hx, F32.place_inf_false, F32.place_inf_true,
    decide_eq_true_eq, decide_eq_false_iff_not]
  omega

/-- The infinities are ordered, and each equals itself. -/
theorem F32.compare_inf_inf :
    (F32.inf true).lt (.inf false) = true ∧ (F32.inf true).eq (.inf true) = true ∧ (F32.inf false).eq (.inf false) = true := by
  decide +kernel

/-- Settles O7: each operation is one `rneSigned` of the exact result, and `rneSigned` picks the nearest fields. -/
theorem operationsRoundOnce : Obligations.OperationsRoundOnce :=
  ⟨fun n _ hd => rounds_rne32 n hd,
    fun _ _ hx hy => ⟨rounds_add hx hy, rounds_sub hx hy, rounds_mul hx hy, rounds_div hx hy⟩,
    fun k => ⟨rounds_ofNat k, F32.value_ofNat⟩⟩

/-- Settles O8: a comparison is that of the places, which are the numbers of the finite values and lie beyond them for the
infinities. -/
theorem comparisonsAreIeee : Obligations.ComparisonsAreIeee :=
  ⟨fun _ _ => F32.compare_isNaN,
    fun _ _ hx hy => ⟨F32.lt_iff_value hx hy, F32.le_iff_value hx hy, F32.eq_iff_value hx hy⟩,
    fun _ => F32.compare_inf, F32.compare_inf_inf⟩

end Sys2Proof
end

section
/-!
PROOFS. The configuration checks (00_scope.md R7), each the fact about real numbers it stands for, and the refusals of a step: only
a failed check makes a step refuse its configuration.
-/

namespace Sys2Proof

/-! ### The five checks over real values -/

theorem F32.value_zero : F32.zero.value = 0 := by
  simp [F32.value, F32.zero, F32.scaled, F32.magnitude]

theorem F32.isPositive_iff (x : F32) : x.isPositive = true ↔ x.positive := by
  rw [F32.isPositive, Bool.and_eq_true]
  refine and_congr_right fun hx => ?_
  rw [F32.lt_iff_value rfl hx, F32.value_zero]

theorem blockLength_iff (n : ℕ) : blockLength n = true ↔ n % 2 = 0 ∧ 2 ≤ n ∧ n ≤ 65536 := by
  change _ ↔ n % 2 = 0 ∧ 2 ≤ n ∧ n ≤ maxBlock
  simp [blockLength, and_assoc]

theorem Cfg.rangesOk_iff (cfg : Cfg) : cfg.rangesOk = true ↔ cfg.rangesMet := by
  have limit : 65536 = maxTable := rfl
  simp [Cfg.rangesOk, Cfg.rangesMet, F32.isPositive_iff, blockLength_iff, limit, Nat.le_one_iff_eq_zero_or_eq_one, and_assoc]

theorem strictTable_nil : strictTable [] := ⟨by simp, fun i h => by simp at h⟩

theorem strictTable_singleton (x : F32) : strictTable [x] ↔ x.isFinite = true := by
  simp [strictTable]

theorem strictTable_cons_cons (x y : F32) (rest : List F32) :
    strictTable (x :: y :: rest) ↔ x.isFinite = true ∧ x.value < y.value ∧ strictTable (y :: rest) := by
  constructor
  · rintro ⟨finite, lt⟩
    exact ⟨finite x (by simp), lt 0 (by simp), fun z hz => finite z (by simp_all),
      fun i h => lt (i + 1) (by simpa using h)⟩
  · rintro ⟨hx, xy, finite, lt⟩
    refine ⟨by simpa [hx] using finite, fun i h => ?_⟩
    cases i with
    | zero => exact xy
    | succ i => exact lt i (by simpa using h)

/-- Both note tables are checked by comparing neighbours, which is the order of their real values. -/
theorem strictlyIncreasing_iff (t : List F32) : strictlyIncreasing t = true ↔ strictTable t := by
  match t with
  | [] => simp [strictlyIncreasing, strictTable_nil]
  | [x] => rw [strictlyIncreasing, strictTable_singleton]
  | x :: y :: rest =>
    rw [strictlyIncreasing, strictTable_cons_cons, Bool.and_eq_true, Bool.and_eq_true, and_assoc, strictlyIncreasing_iff (y :: rest)]
    refine and_congr_right fun hx => and_congr_left fun ht => ?_
    exact F32.lt_iff_value hx (ht.1 y (by simp))

/-- The DAC step is `RNE32(DAC_VMAX / 1023)` (45_dac_codec.md R201). -/
theorem Cfg.rounds_dacStep {cfg : Cfg} (h : cfg.dacVmax.isFinite = true) : Rounds (cfg.dacVmax.value / 1023) cfg.dacStep := by
  have codes : (F32.ofNat 1023).value = 1023 := F32.value_ofNat (by norm_num)
  have quotient := rounds_div h (F32.isFinite_ofNat (show 1023 ≤ 2 ^ 24 by norm_num)) (by rw [codes]; norm_num)
  rwa [codes] at quotient

theorem Cfg.isFinite_dacStep {cfg : Cfg} (h : cfg.dacVmax.isFinite = true) : cfg.dacStep.isFinite = true := by
  rw [(Cfg.rounds_dacStep h).isFinite_iff, abs_div, abs_of_pos (show (0 : ℝ) < 1023 by norm_num)]
  exact (div_le_self (abs_nonneg _) (by norm_num)).trans_lt (F32.abs_value_lt h)

/-- The full-scale check is the one on real values: a rounding has one value, so the step and quotient that meet it are those of
the model, and a step rounded to zero has no finite quotient (log entry 9). -/
theorem Cfg.fullscaleOk_iff {cfg : Cfg} (h : cfg.dacVmax.isFinite = true) : cfg.fullscaleOk = true ↔ cfg.fullscaleMet := by
  have fstep := Cfg.isFinite_dacStep h
  rw [Cfg.fullscaleOk, Bool.and_eq_true, decide_eq_true_eq, ← F32.floor_value]
  constructor
  · rintro ⟨fq, floor⟩
    have nonzero : cfg.dacStep.value ≠ 0 := fun zero => by simp [F32.isFinite_div_zero h fstep zero] at fq
    exact ⟨_, _, Cfg.rounds_dacStep h, nonzero, rounds_div h fstep nonzero, fq, floor⟩
  · rintro ⟨step, q, hstep, nonzero, hq, fq, floor⟩
    rw [hstep.value_unique (Cfg.rounds_dacStep h)] at nonzero hq
    have quotient := rounds_div h fstep nonzero
    rw [hq.isFinite_iff] at fq
    rw [hq.value_unique quotient] at floor
    exact ⟨quotient.isFinite_iff.mpr fq, floor⟩

theorem Cfg.ctrlOk_iff (cfg : Cfg) : cfg.ctrlOk = true ↔ cfg.ctrlMet := by
  cases mode : cfg.mode <;> simp [Cfg.ctrlOk, Cfg.ctrlMet, Cfg.hasChannel, mode]

theorem Cfg.failure_eq_none (cfg : Cfg) : cfg.failure = none ↔
    cfg.rangesOk = true ∧ strictlyIncreasing (freqTable cfg) = true ∧ strictlyIncreasing (voltTable cfg) = true ∧
      cfg.fullscaleOk = true ∧ cfg.ctrlOk = true := by
  unfold Cfg.failure
  split_ifs <;> simp_all

/-- A configuration fails no check exactly where the five facts hold. -/
theorem Cfg.failure_eq_none_iff_met (cfg : Cfg) : cfg.failure = none ↔
    cfg.rangesMet ∧ strictTable (freqTable cfg) ∧ strictTable (voltTable cfg) ∧ cfg.fullscaleMet ∧ cfg.ctrlMet := by
  rw [cfg.failure_eq_none, cfg.rangesOk_iff, strictlyIncreasing_iff, strictlyIncreasing_iff, cfg.ctrlOk_iff]
  refine and_congr_right fun ranges => ?_
  obtain ⟨-, -, -, -, -, -, -, -, -, -, vmax⟩ := ranges
  rw [Cfg.fullscaleOk_iff vmax.1]

end Sys2Proof

namespace Sys2Proof.Machine

/-! ### The refusals of a step -/

/-- An answer that does not refuse the configuration. -/
def Configured (r : Answer) : Prop := ∀ check, r ≠ .refused (.configuration check)

theorem configured_next (s : State) : Configured (.next s) := fun _ h => nomatch h

theorem configured_fault (f : Fault) : Configured (.fault f) := fun _ h => nomatch h

theorem configured_ite {p : Prop} [Decidable p] {a b : Answer} (ha : Configured a) (hb : Configured b) :
    Configured (if p then a else b) := by
  split_ifs
  · exact ha
  · exact hb

theorem configured_orFault {α : Type} {e : Except Fault α} {k : α → Answer} (h : ∀ x, Configured (k x)) :
    Configured (orFault e k) := by
  cases e with
  | ok x => exact h x
  | error f => exact configured_fault f

/-! Operations that match on the state, one by one. -/

theorem execClamp_configured (v : F32) (s : State) : Configured (execClamp v s) := by
  unfold execClamp
  split <;> exact configured_next _

theorem execEncodeVoltage_configured (c : Chan) (v : F32) (s : State) : Configured (execEncodeVoltage c v s) := by
  refine configured_ite ?_ nofun
  split <;> exact configured_next _

theorem execFreeRunTrigger_configured (s : State) : Configured (execFreeRunTrigger s) := by
  unfold execFreeRunTrigger
  split <;> exact configured_next _

theorem execVoltagePath_configured (s : State) : Configured (execVoltagePath s) := by
  unfold execVoltagePath
  split
  · exact configured_orFault fun _ => configured_orFault fun _ => configured_next _
  · exact configured_next _

theorem execSpectralPath_configured (s : State) : Configured (execSpectralPath s) := by
  unfold execSpectralPath
  split
  · exact configured_orFault fun _ => configured_orFault fun _ => configured_next _
  · exact configured_next _

theorem execWriteDone_configured (s : State) : Configured (execWriteDone s) := by
  unfold execWriteDone
  split <;> exact configured_next _

theorem execHoldDone_configured (s : State) : Configured (execHoldDone s) := by
  unfold execHoldDone
  split <;> exact configured_next _

theorem execAdcComplete_configured (codes : List Nat) (s : State) : Configured (execAdcComplete codes s) := by
  unfold execAdcComplete
  split
  · exact nofun
  · exact configured_ite (configured_ite (configured_next _) nofun) nofun

theorem execDacComplete_configured (s : State) : Configured (execDacComplete s) := by
  unfold execDacComplete
  split
  · exact nofun
  · exact configured_next _

theorem execDacFrame_configured (ctrl : BitVec 4) (code : DacCode) (s : State) : Configured (execDacFrame ctrl code s) := by
  unfold execDacFrame
  split
  · exact nofun
  · exact configured_ite (configured_next _) nofun

theorem moveOffer_configured (ev : EventWord) (s : State) : Configured (moveOffer ev s) := by
  unfold moveOffer
  split
  · exact nofun
  · exact nofun
  · exact configured_next _

theorem moveLose_configured (s : State) : Configured (moveLose s) := by
  unfold moveLose
  split
  · exact nofun
  · exact configured_ite (configured_next _) nofun

theorem moveSpectralRound_configured (codes : List Nat) (s : State) : Configured (moveSpectralRound codes s) := by
  unfold moveSpectralRound
  split
  · exact configured_next _
  · exact nofun

/-- No instruction refuses its configuration: `exec` does not check it (log entry 17). -/
theorem exec_configured (i : Instr) (s : State) : Configured (exec i s) := by
  cases i
  case genFreqTable | roundDec3 | genVoltTable | correct | dft | binPower | peakBin | binToHz | v2code | reset =>
    exact configured_next _
  case indexToVoltage | quantizeFloor | mean | dcFilter | estimate | averageVoltage =>
    exact configured_orFault fun _ => configured_next _
  case gate | scale | reserved00x | reserved101 | reserved11x =>
    exact configured_ite (configured_next _) (configured_next _)
  case packFrame => exact configured_ite (configured_next _) nofun
  case clamp => exact execClamp_configured _ s
  case encodeVoltage => exact execEncodeVoltage_configured _ _ s
  case freeRunTrigger => exact execFreeRunTrigger_configured s
  case voltagePath => exact execVoltagePath_configured s
  case spectralPath => exact execSpectralPath_configured s
  case writeDone => exact execWriteDone_configured s
  case holdDone => exact execHoldDone_configured s
  case adcComplete => exact execAdcComplete_configured _ s
  case dacComplete => exact execDacComplete_configured s
  case dacFrame => exact execDacFrame_configured _ _ s

theorem seqTurn_configured (s : State) : Configured (seqTurn s) := by
  unfold seqTurn
  split
  · exact exec_configured _ s
  · exact configured_next s

/-- No line of a script refuses its configuration. -/
theorem runMove_configured (m : Move) (s : State) : Configured (runMove m s) := by
  cases m
  case reset => exact exec_configured .reset s
  case pins | settle => exact configured_next _
  case offer => exact moveOffer_configured _ s
  case lose => exact moveLose_configured s
  case capture => exact exec_configured (.adcComplete _) s
  case captureFill => exact exec_configured (.adcComplete _) s
  case writeDone => exact exec_configured (dacInstr s) s
  case step => exact seqTurn_configured s
  case run =>
    simp only [runMove]
    split
    · exact exec_configured _ _
    · exact configured_next _
  case expect => exact configured_ite (configured_orFault fun _ => configured_ite (configured_next _) nofun) nofun
  case spectralRound => exact moveSpectralRound_configured _ s

theorem turn_configured (s : State) : Configured (turn s) := by
  unfold turn
  split
  · exact seqTurn_configured s
  · exact runMove_configured _ _

/-- A step refuses its configuration exactly when a check fails (00_scope.md R7). -/
theorem step_configured_iff (s : State) : Configured (step s) ↔ s.cfg.failure = none := by
  constructor
  · intro h
    rcases check : s.cfg.failure with _ | c
    · rfl
    · exact absurd (by rw [step, check]) (h c)
  · intro h
    rw [step_of_wf h]
    exact turn_configured s

/-- Settles O6: only a failed check refuses the configuration, and a configuration fails no check exactly where the five facts
hold. -/
theorem illFormedConfigurationRefused : Obligations.IllFormedConfigurationRefused := fun s =>
  (step_configured_iff s).trans s.cfg.failure_eq_none_iff_met

end Sys2Proof.Machine
end

section
/-!
PROOFS. What a step can do, said once: `SeqEffect` for the sequencer's turn (46_event_dispatcher.md R220 to R228) and `StepEffect`
for a step of any agent (30_encoding.md R89). The statements about every step are case analyses of these two.
-/

namespace Sys2Proof.Machine

/-! ### The sequencer's turn -/

/-- What the sequencer's turn can do to a state: wait, accept a word, trigger, commit the end of a pipeline over the captured codes,
or return to `Idle`. -/
inductive SeqEffect (s : State) : State → Prop
  | wait : SeqEffect s s
  | gate (c : Chan) (acc : s.accepts (.gate c) = true) : SeqEffect s (s.consumeOffer.enterEvent c)
  | scale (acc : s.accepts .scale = true) : SeqEffect s { s.consumeOffer with mask := maskFromPins s.pins }
  | reserved (i : Instr) (acc : s.accepts i = true) (notScale : i ≠ .scale) (notGate : ∀ c, i ≠ .gate c) :
      SeqEffect s (s.consumeOffer.raiseFault .illegalEvent)
  | freeRun (mode : s.cfg.mode = .spectral) (seq : s.seq = .idle) : SeqEffect s (s.enterEvent .a)
  | voltagePath (c : Chan) (buf : List Nat) (e : PathEnd) (mode : s.cfg.mode = .event) (seq : s.seq = .sampling c)
      (done : s.adcDone = true) (hbuf : s.buf = some buf) (run : voltagePipeline s.cfg s.vt s.mask c buf = .ok e) :
      SeqEffect s (s.consumeCapture.endPath c e)
  | spectralPath (buf : List Nat) (e : PathEnd) (mode : s.cfg.mode = .spectral) (seq : s.seq = .sampling .a)
      (done : s.adcDone = true) (hbuf : s.buf = some buf) (run : spectralPipeline s.cfg s.ft s.vt buf = .ok e) :
      SeqEffect s (s.consumeCapture.endPath .a e)
  | writeDone (c : Chan) (v : F32) (seq : s.seq = .emitting c (some v)) (done : s.dacDone = true) :
      SeqEffect s ((s.consumeWrite.recordWrite c v).setLast .emitted).returnToIdle
  | holdDone (c : Chan) (seq : s.seq = .emitting c none) : SeqEffect s s.returnToIdle

/-- An answer that depends on an acceptance commits it, or waits. -/
theorem accept_eq_next {s t u : State} {i : Instr} (h : (if s.accepts i then (.next u : Answer) else .next s) = .next t) :
    (s.accepts i = true ∧ t = u) ∨ t = s := by
  split_ifs at h with acc
  · cases h
    exact .inl ⟨acc, rfl⟩
  · cases h
    exact .inr rfl

theorem acceptReserved_effect {s t : State} {i : Instr} (h : acceptReserved i s = .next t) (notScale : i ≠ .scale)
    (notGate : ∀ c, i ≠ .gate c) : SeqEffect s t := by
  obtain ⟨acc, rfl⟩ | rfl := accept_eq_next h
  · exact .reserved i acc notScale notGate
  · exact .wait

theorem execFreeRunTrigger_effect {s t : State} (h : execFreeRunTrigger s = .next t) : SeqEffect s t := by
  unfold execFreeRunTrigger at h
  split at h
  · cases h
    exact .freeRun ‹_› ‹_›
  · cases h
    exact .wait

theorem execWriteDone_effect {s t : State} (h : execWriteDone s = .next t) : SeqEffect s t := by
  unfold execWriteDone at h
  split at h
  · cases h
    exact .writeDone _ _ ‹_› ‹_›
  · cases h
    exact .wait

theorem execHoldDone_effect {s t : State} (h : execHoldDone s = .next t) : SeqEffect s t := by
  unfold execHoldDone at h
  split at h
  · cases h
    exact .holdDone _ ‹_›
  · cases h
    exact .wait

/-- A step of the sequencer that goes on has one of these effects, whether or not it is enabled. -/
theorem exec_effect {s t : State} {i : Instr} (hi : i.isSeqStep = true) (h : exec i s = .next t) : SeqEffect s t := by
  cases i
  case gate c =>
    obtain ⟨acc, rfl⟩ | rfl := accept_eq_next h
    · exact .gate c acc
    · exact .wait
  case scale =>
    obtain ⟨acc, rfl⟩ | rfl := accept_eq_next h
    · exact .scale acc
    · exact .wait
  case reserved00x | reserved101 | reserved11x => exact acceptReserved_effect h nofun nofun
  case freeRunTrigger => exact execFreeRunTrigger_effect h
  case voltagePath =>
    obtain rfl | ⟨c, buf, e, mode, seq, done, hbuf, -, run, rfl⟩ := execVoltagePath_next h
    · exact .wait
    · exact .voltagePath c buf e mode seq done hbuf run
  case spectralPath =>
    obtain rfl | ⟨buf, e, mode, seq, done, hbuf, -, run, rfl⟩ := execSpectralPath_next h
    · exact .wait
    · exact .spectralPath buf e mode seq done hbuf run
  case writeDone => exact execWriteDone_effect h
  case holdDone => exact execHoldDone_effect h
  all_goals cases hi

/-- An event word is an instruction of the sequencer (30_encoding.md R81). -/
theorem decodeEvent_isSeqStep : ∀ ev : EventWord, (decodeEvent ev).isSeqStep = true := by
  decide

/-- Only the sequencer's own steps are ever enabled (46_event_dispatcher.md R220). -/
theorem enabledStep_isSeqStep {s : State} {i : Instr} (h : s.enabledStep = some i) : i.isSeqStep = true := by
  unfold State.enabledStep at h
  split at h
  · split at h
    · cases h
      rfl
    · obtain ⟨ev, -, rfl⟩ := Option.map_eq_some_iff.mp h
      exact decodeEvent_isSeqStep ev
  · split_ifs at h
    split at h <;> cases h <;> rfl
  · split_ifs at h
    cases h
    rfl
  · cases h
    rfl

theorem seqTurn_effect {s t : State} (h : seqTurn s = .next t) : SeqEffect s t := by
  obtain ⟨-, rfl⟩ | ⟨i, enabled, run⟩ := seqTurn_eq_next.mp h
  · exact .wait
  · exact exec_effect (enabledStep_isSeqStep enabled) run

/-! ### The step of any agent -/

/-- What a step that goes on can do, `script` being the lines then left: the sequencer's turn, a reset, a move of a collaborator or of
an agent, or nothing but reading the script. -/
inductive StepEffect (s : State) : State → Prop
  | sequencer {script : List Move} {t : State} (turn : s.seqHasTurn) (effect : SeqEffect { s with script := script } t) :
      StepEffect s t
  | reset {script : List Move} {t : State} (line : s.script.head? = some .reset)
      (run : execReset { s with script := script } = .next t) : StepEffect s t
  | capture {script : List Move} {m : Move} {codes : List Nat} (line : s.script.head? = some m) (isCapture : m.isCapture = true)
      (requested : s.adcReq.isSome = true) (whole : wholeBuffer s.cfg codes) :
      StepEffect s (State.deliverCapture { s with script := script } codes)
  | write {script : List Move} {c : Chan} {fr : Frame} (line : s.script.head? = some .writeDone)
      (requested : s.dacReq = some (c, fr)) : StepEffect s (State.latchFrame { s with script := script } c fr)
  | pins {script : List Move} {p : Degrees} (line : s.script.head? = some (.pins p)) :
      StepEffect s { s with script := script, pins := p }
  | offer {script : List Move} {ev : EventWord} (line : s.script.head? = some (.offer ev)) (mode : s.cfg.mode = .event)
      (free : s.offer = none) : StepEffect s { s with script := script, offer := some ev }
  | lose {script : List Move} (line : s.script.head? = some .lose) (mode : s.cfg.mode = .event) (busy : s.seq ≠ .idle) :
      StepEffect s (State.consumeOffer { s with script := script })
  | read {script : List Move} : StepEffect s { s with script := script }

theorem moveOffer_eq_next {s t : State} {ev : EventWord} (h : moveOffer ev s = .next t) :
    s.cfg.mode = .event ∧ s.offer = none ∧ t = { s with offer := some ev } := by
  unfold moveOffer at h
  split at h
  · cases h
  · cases h
  · cases h
    exact ⟨‹_›, ‹_›, rfl⟩

theorem moveLose_eq_next {s t : State} (h : moveLose s = .next t) :
    s.cfg.mode = .event ∧ s.seq ≠ .idle ∧ t = s.consumeOffer := by
  unfold moveLose at h
  split at h
  · cases h
  · split_ifs at h with pending
    cases h
    exact ⟨‹_›, pending.2, rfl⟩

theorem moveExpect_eq_next {s t : State} {o : Observation} (h : moveExpect o s = .next t) : t = s := by
  unfold moveExpect at h
  split_ifs at h
  obtain ⟨b, -, run⟩ := orFault_eq_next.mp h
  cases b <;> cases run
  rfl

theorem moveSpectralRound_eq_next {s t : State} {codes : List Nat} (h : moveSpectralRound codes s = .next t) :
    t = { s with script := linesSpectralRound codes ++ s.script } := by
  unfold moveSpectralRound at h
  split at h <;> cases h
  rfl

/-- Each line of a script has one of these effects. -/
theorem runMove_effect {s t : State} {m : Move} {rest : List Move} (hs : s.script = m :: rest)
    (h : runMove m { s with script := rest } = .next t) : StepEffect s t := by
  have line : s.script.head? = some m := by rw [hs]; rfl
  cases m
  case reset => exact .reset line h
  case pins p =>
    cases h
    exact .pins line
  case offer ev =>
    obtain ⟨mode, free, rfl⟩ := moveOffer_eq_next h
    exact .offer line mode free
  case lose =>
    obtain ⟨mode, busy, rfl⟩ := moveLose_eq_next h
    exact .lose line mode busy
  case capture | captureFill =>
    obtain ⟨requested, whole, rfl⟩ := execAdcComplete_next h
    exact .capture line rfl requested whole
  case writeDone =>
    obtain ⟨c, fr, requested, rfl⟩ := execDac_next (dacInstr_cases _) h
    exact .write line requested
  case step => exact .sequencer (.inr (.inl line)) (seqTurn_effect h)
  case run =>
    simp only [runMove] at h
    split at h
    · exact .sequencer (.inr (.inr line)) (exec_effect (enabledStep_isSeqStep ‹_›) h)
    · cases h
      exact .read
  case expect =>
    rw [moveExpect_eq_next h]
    exact .read
  case settle =>
    cases h
    exact .read
  case spectralRound =>
    rw [moveSpectralRound_eq_next h]
    exact .read

/-- A step that goes on has one of these effects. -/
theorem step_effect {s t : State} (h : step s = .next t) : StepEffect s t := by
  obtain ⟨-, h⟩ := step_eq_next.mp h
  rcases hs : s.script with _ | ⟨m, rest⟩
  · rw [turn_nil hs] at h
    exact .sequencer (script := s.script) (.inl hs) (seqTurn_effect h)
  · rw [turn_cons hs] at h
    exact runMove_effect hs h

end Sys2Proof.Machine
end

section
/-!
PROOFS. The invariant (10_state.md R24, R27, R29, R31): it holds at reset, and every effect of a step keeps it.
-/

namespace Sys2Proof.Machine

/-! ### The handshakes of each sequencer state -/

theorem handshakes_of_idle {s : State} (h : s.handshakesAgree) (seq : s.seq = .idle) : s.handshakesClear := by
  simpa only [State.handshakesAgree, seq] using h

/-- A complete capture is delivered, and nothing else is outstanding (10_state.md R24). -/
theorem handshakes_of_captured {s : State} {c : Chan} (h : s.handshakesAgree) (seq : s.seq = .sampling c)
    (done : s.adcDone = true) :
    s.cfg.hasChannel c = true ∧ s.dacReq = none ∧ s.dacDone = false ∧ s.adcReq = none ∧ s.buf.isSome = true := by
  simpa [State.handshakesAgree, seq, done] using h

/-- A complete write leaves nothing outstanding (10_state.md R24). -/
theorem handshakes_of_written {s : State} {c : Chan} {v : F32} (h : s.handshakesAgree) (seq : s.seq = .emitting c (some v))
    (done : s.dacDone = true) : s.adcReq = none ∧ s.adcDone = false ∧ s.dacReq = none := by
  simp only [State.handshakesAgree, seq, done] at h
  tauto

theorem handshakes_of_held {s : State} {c : Chan} (h : s.handshakesAgree) (seq : s.seq = .emitting c none) :
    s.handshakesClear := by
  simp only [State.handshakesAgree, seq] at h
  exact h.2

/-- A capture is requested only in `Sampling` (10_state.md R24). -/
theorem sampling_of_adcReq {s : State} (h : s.handshakesAgree) (req : s.adcReq.isSome = true) :
    ∃ c, s.seq = .sampling c ∧ s.cfg.hasChannel c = true ∧ s.dacReq = none ∧ s.dacDone = false := by
  unfold State.handshakesAgree at h
  split at h <;> simp_all

/-- A write is requested only in `Emitting`, of the codec's frame of the voltage there (10_state.md R24). -/
theorem emitting_of_dacReq {s : State} {c : Chan} {fr : Frame} (h : s.handshakesAgree) (req : s.dacReq = some (c, fr)) :
    ∃ v, s.seq = .emitting c (some v) ∧ s.cfg.hasChannel c = true ∧ s.adcReq = none ∧ s.adcDone = false ∧
      encodeVoltage s.cfg c v = some fr := by
  unfold State.handshakesAgree at h
  split at h <;> simp_all

/-! ### The status register and the channels -/

/-- `STATUS` goes on agreeing when `seq` moves within an event or to `Idle` (10_state.md R27). -/
theorem statusAgrees_setSeq {s : State} {q : Seq} (h : s.statusAgrees) (chan : q.channel = none ∨ q.channel = s.seq.channel) :
    (s.setSeq q).statusAgrees := by
  obtain ⟨-, reserved, last, ch⟩ := h
  refine ⟨by simp, by simpa using reserved, by simpa using last, ?_⟩
  rcases chan with none | same
  · exact .inl none
  · simpa [same] using ch

theorem statusAgrees_setLast {s : State} (h : s.statusAgrees) (l : LastOutcome) : (s.setLast l).statusAgrees := by
  obtain ⟨state, reserved, -, ch⟩ := h
  exact ⟨by simpa using state, by simpa using reserved, by simpa using l.code_le, by simpa using ch⟩

theorem statusAgrees_raiseFault {s : State} (h : s.statusAgrees) (f : FaultCause) : (s.raiseFault f).statusAgrees := by
  obtain ⟨state, reserved, last, ch⟩ := h
  exact ⟨by simpa using state, by simpa using reserved, by simpa using last, by simpa using ch⟩

/-- Entry into an event records its channel (60_exceptions.md R267). -/
theorem statusAgrees_enterEvent {s : State} (h : s.statusAgrees) (c : Chan) : (s.enterEvent c).statusAgrees := by
  obtain ⟨-, reserved, last, -⟩ := h
  exact ⟨by simp, by simpa using reserved, by simpa using last, .inr (by simp [Seq.channel])⟩

theorem statusAgrees_reset {s : State} (seq : s.seq = .idle) (status : s.status = 0x0000) : s.statusAgrees := by
  rw [State.statusAgrees, seq, status]
  decide

theorem clearChannels_agrees {s : State} (h : s.chan.b.agrees) : s.clearChannels.a.agrees ∧ s.clearChannels.b.agrees := by
  refine ⟨rfl, ?_⟩
  unfold State.clearChannels
  split_ifs
  · rfl
  · exact h

theorem recordWrite_agrees {s : State} (h : s.chan.a.agrees ∧ s.chan.b.agrees) (c : Chan) (v : F32) :
    (s.recordWrite c v).chan.a.agrees ∧ (s.recordWrite c v).chan.b.agrees := by
  cases c
  · exact ⟨rfl, h.2⟩
  · exact ⟨h.1, rfl⟩

/-- A latched frame becomes its channel's output and the last of the trace (60_exceptions.md R278). -/
theorem outputsAgree_latchFrame {s : State} {c : Chan} {fr : Frame} (h : s.outputsAgree) (pad : framePadClear fr) :
    (s.latchFrame c fr).outputsAgree := by
  obtain ⟨last, pads⟩ := h
  constructor
  · intro d
    rw [State.latchFrame_trace, State.latchFrame_dacOut, lastFrame_append]
    split_ifs with same
    · rw [same, PerChan.get_set_self]
    · rw [PerChan.get_set_of_ne _ (Ne.symm same), last]
  · intro x hx
    rcases List.mem_append.mp hx with old | new
    · exact pads x old
    · rw [List.mem_singleton.mp new]
      exact pad

/-! ### The effects of the sequencer -/

theorem enterEvent_inv {s : State} {c : Chan} (h : s.Inv) (seq : s.seq = .idle) (channel : s.cfg.hasChannel c = true) :
    (s.enterEvent c).Inv := by
  obtain ⟨tables, buffer, shake, status, chans, outputs, quiet⟩ := h
  obtain ⟨-, adcDone, dacReq, dacDone⟩ := handshakes_of_idle shake seq
  exact ⟨tables, buffer, ⟨channel, dacReq, dacDone, .inl ⟨rfl, adcDone⟩⟩, statusAgrees_enterEvent status c, chans, outputs,
    quiet⟩

theorem consumeOffer_inv {s : State} (h : s.Inv) : s.consumeOffer.Inv := by
  obtain ⟨tables, buffer, shake, status, chans, outputs, -⟩ := h
  exact ⟨tables, buffer, shake, status, chans, outputs, fun _ => rfl⟩

theorem raiseFault_inv {s : State} (h : s.Inv) (f : FaultCause) : (s.raiseFault f).Inv := by
  obtain ⟨tables, buffer, shake, status, chans, outputs, quiet⟩ := h
  exact ⟨tables, buffer, shake, statusAgrees_raiseFault status f, chans, outputs, quiet⟩

/-- The end of a pipeline goes from a complete capture to `Emitting` (46_event_dispatcher.md R225, R226): with the frame of the
voltage requested, or with nothing outstanding. -/
theorem endPath_inv {s : State} {c : Chan} {e : PathEnd} (h : s.Inv) (seq : s.seq = .sampling c) (done : s.adcDone = true)
    (legal : e.legal s.cfg c) : (s.consumeCapture.endPath c e).Inv := by
  obtain ⟨tables, buffer, shake, status, chans, outputs, quiet⟩ := h
  obtain ⟨channel, dacReq, dacDone, adcReq, -⟩ := handshakes_of_captured shake seq done
  have same : (Seq.sampling c).channel = s.seq.channel := by rw [seq]
  cases e with
  | emit vo fr =>
    have frame : encodeVoltage s.cfg c vo = some fr := by simpa [PathEnd.legal] using legal
    exact ⟨tables, buffer, ⟨channel, adcReq, rfl, .inl ⟨fr, frame, rfl, dacDone⟩⟩,
      statusAgrees_setSeq (s := s.issueDacWrite c fr) status (.inr same), chans, outputs, quiet⟩
  | hold l =>
    exact ⟨tables, buffer, ⟨channel, adcReq, rfl, dacReq, dacDone⟩,
      statusAgrees_setSeq (statusAgrees_setLast status l) (.inr same), chans, outputs, quiet⟩
  | numericFault =>
    exact ⟨tables, buffer, ⟨channel, adcReq, rfl, dacReq, dacDone⟩,
      statusAgrees_setSeq (statusAgrees_setLast (statusAgrees_raiseFault status .numeric) .faulted) (.inr same), chans, outputs,
      quiet⟩

/-- A state whose handshakes are clear may return to `Idle` (60_exceptions.md R268). -/
theorem returnToIdle_inv {s : State} (tables : s.tablesGenerated) (buffer : s.bufferWhole) (clear : s.handshakesClear)
    (status : s.statusAgrees) (chans : s.chan.a.agrees ∧ s.chan.b.agrees) (outputs : s.outputsAgree) (quiet : s.sourcesQuiet) :
    s.returnToIdle.Inv :=
  ⟨tables, buffer, clear, statusAgrees_setSeq status (.inl rfl), chans, outputs, quiet⟩

theorem writeDone_inv {s : State} {c : Chan} {v : F32} (h : s.Inv) (seq : s.seq = .emitting c (some v))
    (done : s.dacDone = true) : ((s.consumeWrite.recordWrite c v).setLast .emitted).returnToIdle.Inv := by
  obtain ⟨tables, buffer, shake, status, chans, outputs, quiet⟩ := h
  obtain ⟨adcReq, adcDone, dacReq⟩ := handshakes_of_written shake seq done
  exact returnToIdle_inv (s := (s.consumeWrite.recordWrite c v).setLast .emitted) tables buffer
    ⟨adcReq, adcDone, dacReq, rfl⟩ (statusAgrees_setLast status .emitted)
    (recordWrite_agrees (s := s.consumeWrite) chans c v) outputs quiet

/-- Both channels exist in the event mode (00_scope.md R6). -/
theorem hasChannel_of_event {cfg : Cfg} (h : cfg.mode = .event) (c : Chan) : cfg.hasChannel c = true := by
  cases c <;> simp [Cfg.hasChannel, h]

theorem seqEffect_inv {s t : State} (h : s.Inv) (effect : SeqEffect s t) : t.Inv := by
  cases effect with
  | wait => exact h
  | gate c acc =>
    obtain ⟨mode, seq, -⟩ := accepts_iff.mp acc
    exact enterEvent_inv (consumeOffer_inv h) seq (hasChannel_of_event mode c)
  | scale acc => exact (consumeOffer_inv h :)
  | reserved i acc => exact raiseFault_inv (consumeOffer_inv h) .illegalEvent
  | freeRun mode seq => exact enterEvent_inv h seq rfl
  | voltagePath c buf e mode seq done hbuf run => exact endPath_inv h seq done (voltagePipeline_legal run)
  | spectralPath buf e mode seq done hbuf run =>
    exact endPath_inv h seq done ((spectralPipeline_legal run).imp_right .inr)
  | writeDone c v seq done => exact writeDone_inv h seq done
  | holdDone c seq =>
    obtain ⟨tables, buffer, shake, status, chans, outputs, quiet⟩ := h
    exact returnToIdle_inv tables buffer (handshakes_of_held shake seq) status chans outputs quiet

/-! ### The effects of the other agents -/

theorem execReset_inv {s t : State} (h : s.Inv) (run : execReset s = .next t) : t.Inv := by
  obtain ⟨tables, -, -, -, ⟨-, chanB⟩, outputs, quiet⟩ := h
  cases run
  exact ⟨tables, nofun, ⟨rfl, rfl, rfl, rfl⟩, statusAgrees_reset rfl rfl, clearChannels_agrees chanB, outputs, quiet⟩

theorem deliverCapture_inv {s : State} {codes : List Nat} (h : s.Inv) (requested : s.adcReq.isSome = true)
    (whole : wholeBuffer s.cfg codes) : (s.deliverCapture codes).Inv := by
  obtain ⟨tables, -, shake, status, chans, outputs, quiet⟩ := h
  obtain ⟨c, seq, channel, dacReq, dacDone⟩ := sampling_of_adcReq shake requested
  refine ⟨tables, ?_, ?_, status, chans, outputs, quiet⟩
  · rintro _ ⟨⟩
    exact whole
  · simp [State.handshakesAgree, seq, channel, dacReq, dacDone]

theorem latchFrame_inv {s : State} {c : Chan} {fr : Frame} (h : s.Inv) (requested : s.dacReq = some (c, fr)) :
    (s.latchFrame c fr).Inv := by
  obtain ⟨tables, buffer, shake, status, chans, outputs, quiet⟩ := h
  obtain ⟨v, seq, channel, adcReq, adcDone, frame⟩ := emitting_of_dacReq shake requested
  refine ⟨tables, buffer, ?_, status, chans, outputsAgree_latchFrame outputs (encodeVoltage_pad frame), quiet⟩
  simp [State.handshakesAgree, seq, channel, adcReq, adcDone]

/-- In the event mode a word may be offered (60_exceptions.md R279). -/
theorem offer_inv {s : State} (h : s.Inv) (mode : s.cfg.mode = .event) (ev : EventWord) : { s with offer := some ev }.Inv := by
  obtain ⟨tables, buffer, shake, status, chans, outputs, -⟩ := h
  exact ⟨tables, buffer, shake, status, chans, outputs, fun spectral => by cases mode.symm.trans spectral⟩

theorem stepEffect_inv {s t : State} (h : s.Inv) (effect : StepEffect s t) : t.Inv := by
  cases effect with
  | @sequencer script _ turn effect => exact seqEffect_inv (s := { s with script := script }) h effect
  | @reset script _ line run => exact execReset_inv (s := { s with script := script }) h run
  | capture line isCapture requested whole => exact deliverCapture_inv h requested whole
  | write line requested => exact latchFrame_inv h requested
  | pins line => exact h
  | offer line mode free => exact offer_inv h mode _
  | lose line mode busy => exact consumeOffer_inv h
  | read => exact h

/-- Settles O54: every effect of a step keeps every part of the invariant. -/
theorem invariantKeptByStep : Obligations.InvariantKeptByStep := fun _ _ h run => stepEffect_inv h (step_effect run)

/-- Settles O53: at reset the tables are the generated ones, nothing is outstanding or latched, and `CFG_T` passes every check. -/
theorem invariantAtReset : Obligations.InvariantAtReset := by
  refine ⟨⟨⟨rfl, rfl⟩, nofun, ⟨rfl, rfl, rfl, rfl⟩, statusAgrees_reset rfl rfl, ⟨rfl, rfl⟩, ⟨?_, nofun⟩, fun _ => rfl⟩, ?_⟩
  · rintro (_ | _) <;> rfl
  · decide +kernel

end Sys2Proof.Machine
end

section
/-!
PROOFS. From a state of the invariant no table index is out of range and `buf` is never read without a value (10_state.md R30,
20_memory.md R61, R62): only an `EXPECT` line faults.
-/

namespace Sys2Proof.Machine

/-! ### The pipelines stay in the tables -/

/-- A table of the invariant is not empty (00_scope.md R6, `N >= 1`). -/
theorem tables_length {s : State} (h : s.tablesGenerated) : s.ft.length = s.cfg.n ∧ s.vt.length = s.cfg.n := by
  obtain ⟨ft, vt⟩ := h
  simp [ft, vt, freqTable, voltTable]

theorem n_pos_of_failure {cfg : Cfg} (h : cfg.failure = none) : 0 < cfg.n := by
  obtain ⟨⟨n, -⟩, -⟩ := cfg.rangesOk_iff.mp (cfg.failure_eq_none.mp h).1
  exact n

/-- A captured buffer is read whole (20_memory.md R62). -/
theorem readBuffer_of_captured {s : State} {c : Chan} (h : s.Inv) (seq : s.seq = .sampling c) (done : s.adcDone = true) :
    ∃ codes, s.readBuffer = .ok codes := by
  obtain ⟨-, buffer, shake, -⟩ := h
  obtain ⟨-, -, -, -, delivered⟩ := handshakes_of_captured shake seq done
  obtain ⟨codes, hbuf⟩ := Option.isSome_iff_exists.mp delivered
  exact ⟨codes, readBuffer_eq_ok.mpr ⟨hbuf, (buffer codes hbuf).1⟩⟩

theorem afterCorrection_ok (cfg : Cfg) (vt : List F32) (c : Chan) {r : Correction} (h : ∀ j, r = .some j → j < vt.length) :
    ∃ e, afterCorrection cfg vt c r = .ok e := by
  cases r with
  | some j => exact ⟨emitVoltage cfg c (vt[j]'(h j rfl)), by rw [afterCorrection, readTable_of_lt (h j rfl)]; rfl⟩
  | noneEmpty => exact ⟨_, rfl⟩
  | noneBelow => exact ⟨_, rfl⟩

/-- The quantized index, and any index the corrector makes of it, is one of the table (41_quantizer.md R121, 42_scale_corrector.md
R141). -/
theorem voltagePipeline_ok (cfg : Cfg) {vt : List F32} (mask : Degrees) (c : Chan) (buf : List Nat) (h : 0 < vt.length) :
    ∃ e, voltagePipeline cfg vt mask c buf = .ok e := by
  unfold voltagePipeline
  split_ifs
  · exact ⟨_, rfl⟩
  · obtain ⟨qi, hqi, inside⟩ := quantizeFloor_ok (averageVoltage cfg buf) vt h
    rw [hqi]
    exact afterCorrection_ok cfg vt c fun j hj => (correct_le _ _ _ _ hj).trans_lt inside

/-- The two tables are equally long, so an index of one is an index of the other (40_table_generator.md R100). -/
theorem spectralPipeline_ok (cfg : Cfg) {ft vt : List F32} (buf : List Nat) (h : 0 < ft.length) (same : ft.length = vt.length) :
    ∃ e, spectralPipeline cfg ft vt buf = .ok e := by
  obtain ⟨qi, hqi, inside⟩ := quantizeFloor_ok (estimate cfg buf) ft h
  refine ⟨emitVoltage cfg .a vt[qi], ?_⟩
  rw [spectralPipeline, hqi]
  dsimp only
  rw [readTable_of_lt (same ▸ inside)]
  rfl

/-! ### Answers that are no fault -/

/-- An answer that is no fault. -/
def Faultless (r : Answer) : Prop := ∀ f, r ≠ .fault f

theorem faultless_next (s : State) : Faultless (.next s) := nofun

theorem faultless_ite {p : Prop} [Decidable p] {a b : Answer} (ha : Faultless a) (hb : Faultless b) :
    Faultless (if p then a else b) := by
  split_ifs
  · exact ha
  · exact hb

theorem faultless_orFault {α : Type} {e : Except Fault α} {k : α → Answer} (he : ∃ x, e = .ok x) (hk : ∀ x, Faultless (k x)) :
    Faultless (orFault e k) := by
  obtain ⟨x, rfl⟩ := he
  exact hk x

theorem execVoltagePath_faultless {s : State} (h : s.Inv) (n : 0 < s.cfg.n) : Faultless (execVoltagePath s) := by
  unfold execVoltagePath
  split
  · have inside : 0 < s.vt.length := (tables_length h.1).2 ▸ n
    exact faultless_orFault (readBuffer_of_captured h ‹_› ‹_›) fun buf =>
      faultless_orFault (voltagePipeline_ok _ _ _ buf inside) fun _ => faultless_next _
  · exact faultless_next _

theorem execSpectralPath_faultless {s : State} (h : s.Inv) (n : 0 < s.cfg.n) : Faultless (execSpectralPath s) := by
  unfold execSpectralPath
  split
  · obtain ⟨ft, vt⟩ := tables_length h.1
    exact faultless_orFault (readBuffer_of_captured h ‹_› ‹_›) fun buf =>
      faultless_orFault (spectralPipeline_ok _ buf (ft ▸ n) (ft.trans vt.symm)) fun _ => faultless_next _
  · exact faultless_next _

theorem execFreeRunTrigger_faultless (s : State) : Faultless (execFreeRunTrigger s) := by
  unfold execFreeRunTrigger
  split <;> exact faultless_next _

theorem execWriteDone_faultless (s : State) : Faultless (execWriteDone s) := by
  unfold execWriteDone
  split <;> exact faultless_next _

theorem execHoldDone_faultless (s : State) : Faultless (execHoldDone s) := by
  unfold execHoldDone
  split <;> exact faultless_next _

/-- No step of the sequencer faults in a state of the invariant. -/
theorem exec_faultless {s : State} {i : Instr} (h : s.Inv) (n : 0 < s.cfg.n) (hi : i.isSeqStep = true) :
    Faultless (exec i s) := by
  cases i
  case gate | scale | reserved00x | reserved101 | reserved11x => exact faultless_ite (faultless_next _) (faultless_next _)
  case freeRunTrigger => exact execFreeRunTrigger_faultless s
  case voltagePath => exact execVoltagePath_faultless h n
  case spectralPath => exact execSpectralPath_faultless h n
  case writeDone => exact execWriteDone_faultless s
  case holdDone => exact execHoldDone_faultless s
  all_goals cases hi

theorem seqTurn_faultless {s : State} (h : s.Inv) (n : 0 < s.cfg.n) : Faultless (seqTurn s) := fun _ hf => by
  obtain ⟨i, enabled, run⟩ := seqTurn_eq_fault.mp hf
  exact exec_faultless h n (enabledStep_isSeqStep enabled) _ run

theorem execAdcComplete_faultless (codes : List Nat) (s : State) : Faultless (execAdcComplete codes s) := by
  unfold execAdcComplete
  split
  · exact nofun
  · split_ifs <;> exact nofun

theorem execDacComplete_faultless (s : State) : Faultless (execDacComplete s) := by
  unfold execDacComplete
  split <;> exact nofun

theorem execDacFrame_faultless (ctrl : BitVec 4) (code : DacCode) (s : State) : Faultless (execDacFrame ctrl code s) := by
  unfold execDacFrame
  split
  · exact nofun
  · split_ifs <;> exact nofun

/-- The DAC's turn never faults (60_exceptions.md R278). -/
theorem execDac_faultless (s : State) : Faultless (exec (dacInstr s) s) := by
  obtain h | ⟨ctrl, code, h⟩ := dacInstr_cases s
  · rw [h]
    exact execDacComplete_faultless s
  · rw [h]
    exact execDacFrame_faultless ctrl code s

theorem moveOffer_faultless (ev : EventWord) (s : State) : Faultless (moveOffer ev s) := by
  unfold moveOffer
  split <;> exact nofun

theorem moveLose_faultless (s : State) : Faultless (moveLose s) := by
  unfold moveLose
  split
  · exact nofun
  · split_ifs <;> exact nofun

theorem moveSpectralRound_faultless (codes : List Nat) (s : State) : Faultless (moveSpectralRound codes s) := by
  unfold moveSpectralRound
  split <;> exact nofun

/-- Among the lines of a script only `EXPECT` can fault. -/
theorem runMove_faultless {m : Move} {s : State} (h : s.Inv) (n : 0 < s.cfg.n) (hm : ∀ o, m ≠ .expect o) :
    Faultless (runMove m s) := by
  cases m with
  | reset | pins | settle => exact faultless_next _
  | offer ev => exact moveOffer_faultless ev s
  | lose => exact moveLose_faultless s
  | capture | captureFill => exact execAdcComplete_faultless _ s
  | writeDone => exact execDac_faultless s
  | step => exact seqTurn_faultless h n
  | run =>
    simp only [runMove]
    split
    · exact exec_faultless h n (enabledStep_isSeqStep ‹_›)
    · exact faultless_next _
  | expect o => exact absurd rfl (hm o)
  | spectralRound codes => exact moveSpectralRound_faultless codes s

/-- Settles O55: the pipelines read a whole buffer and stay in tables that are not empty, and no other line but `EXPECT` reads
anything that can be missing. -/
theorem onlyExpectLinesFault : Obligations.OnlyExpectLinesFault := by
  intro s f h hf
  obtain ⟨wf, hf⟩ := step_eq_fault.mp hf
  have n := n_pos_of_failure wf
  rcases hs : s.script with _ | ⟨m, rest⟩
  · rw [turn_nil hs] at hf
    exact absurd hf (seqTurn_faultless h n f)
  · rw [turn_cons hs] at hf
    by_contra no
    exact runMove_faultless (s := { s with script := rest }) h n (fun o hm => no ⟨o, by rw [hm]; rfl⟩) f hf

end Sys2Proof.Machine
end

section
/-!
PROOFS. Who writes what (20_memory.md R68, R70, 60_exceptions.md R262, R263): the frame of the sequencer's turn, and across a step the
writers of the mask, of the fault bits and of every other location.
-/

namespace Sys2Proof.Machine

/-! ### The frame of the sequencer's turn -/

/-- What the sequencer's turn keeps, and the offer, which an acceptance in EVENT Idle takes (20_memory.md R68). -/
structure SeqFrame (s t : State) : Prop where
  cfg : t.cfg = s.cfg
  ft : t.ft = s.ft
  vt : t.vt = s.vt
  buf : t.buf = s.buf
  pins : t.pins = s.pins
  dacOut : t.dacOut = s.dacOut
  trace : t.trace = s.trace
  offer : t.offer = s.offer ∨ (s.cfg.mode = .event ∧ s.seq = .idle ∧ t.offer = none)

/-- An accepted word is consumed (46_event_dispatcher.md R221 to R223). -/
theorem consumeOffer_frame {s : State} {i : Instr} (acc : s.accepts i = true) : SeqFrame s s.consumeOffer := by
  obtain ⟨mode, seq, -⟩ := accepts_iff.mp acc
  exact ⟨rfl, rfl, rfl, rfl, rfl, rfl, rfl, .inr ⟨mode, seq, rfl⟩⟩

theorem endPath_frame (s : State) (c : Chan) (e : PathEnd) : SeqFrame s (s.consumeCapture.endPath c e) := by
  cases e <;> exact ⟨rfl, rfl, rfl, rfl, rfl, rfl, rfl, .inl rfl⟩

theorem seqEffect_frame {s t : State} (effect : SeqEffect s t) : SeqFrame s t := by
  cases effect with
  | wait | freeRun | writeDone | holdDone => exact ⟨rfl, rfl, rfl, rfl, rfl, rfl, rfl, .inl rfl⟩
  | gate c acc => exact { consumeOffer_frame acc with }
  | scale acc => exact { consumeOffer_frame acc with }
  | reserved i acc => exact { consumeOffer_frame acc with }
  | voltagePath c buf e => exact endPath_frame s c e
  | spectralPath buf e => exact endPath_frame s .a e

/-- Settles O57: case by case over the effects of a step. -/
theorem singleWriters : Obligations.SingleWriters := by
  intro s t h
  cases step_effect h with
  | sequencer turn effect =>
    obtain ⟨cfg, ft, vt, buf, pins, dacOut, trace, offer⟩ := seqEffect_frame effect
    exact ⟨cfg, ft, vt, .inl buf, .inl ⟨dacOut, trace⟩, .inl pins,
      offer.imp_right fun accepted => .inr (.inr ⟨turn, accepted⟩), .inr (.inl turn), .inr (.inl turn), .inr (.inl turn)⟩
  | reset line run =>
    cases run
    exact ⟨rfl, rfl, rfl, .inr (.inl line), .inl ⟨rfl, rfl⟩, .inl rfl, .inl rfl, .inr (.inr line), .inr (.inr (.inl line)),
      .inr (.inr (.inl line))⟩
  | @capture _ m _ line isCapture =>
    exact ⟨rfl, rfl, rfl, .inr (.inr ⟨m, line, isCapture⟩), .inl ⟨rfl, rfl⟩, .inl rfl, .inl rfl, .inl ⟨rfl, rfl, rfl, rfl⟩,
      .inr (.inr (.inr ⟨m, line, isCapture⟩)), .inl ⟨rfl, rfl⟩⟩
  | write line =>
    exact ⟨rfl, rfl, rfl, .inl rfl, .inr line, .inl rfl, .inl rfl, .inl ⟨rfl, rfl, rfl, rfl⟩, .inl ⟨rfl, rfl⟩,
      .inr (.inr (.inr line))⟩
  | @pins _ p line =>
    exact ⟨rfl, rfl, rfl, .inl rfl, .inl ⟨rfl, rfl⟩, .inr ⟨p, line⟩, .inl rfl, .inl ⟨rfl, rfl, rfl, rfl⟩, .inl ⟨rfl, rfl⟩,
      .inl ⟨rfl, rfl⟩⟩
  | @offer _ ev line =>
    exact ⟨rfl, rfl, rfl, .inl rfl, .inl ⟨rfl, rfl⟩, .inl rfl, .inr (.inr (.inl ⟨ev, line⟩)), .inl ⟨rfl, rfl, rfl, rfl⟩,
      .inl ⟨rfl, rfl⟩, .inl ⟨rfl, rfl⟩⟩
  | lose line =>
    exact ⟨rfl, rfl, rfl, .inl rfl, .inl ⟨rfl, rfl⟩, .inl rfl, .inr (.inl line), .inl ⟨rfl, rfl, rfl, rfl⟩, .inl ⟨rfl, rfl⟩,
      .inl ⟨rfl, rfl⟩⟩
  | read =>
    exact ⟨rfl, rfl, rfl, .inl rfl, .inl ⟨rfl, rfl⟩, .inl rfl, .inl rfl, .inl ⟨rfl, rfl, rfl, rfl⟩, .inl ⟨rfl, rfl⟩,
      .inl ⟨rfl, rfl⟩⟩

/-! ### The end of a pipeline and the fault bits -/

@[simp] theorem State.endPath_mask (s : State) (c : Chan) (e : PathEnd) : (s.endPath c e).mask = s.mask := by
  cases e <;> rfl

@[simp] theorem statusIllegalEvent_endPath (s : State) (c : Chan) (e : PathEnd) :
    statusIllegalEvent (s.endPath c e).status = statusIllegalEvent s.status := by
  cases e <;> simp [State.endPath]

/-- A pipeline sets `F_NUMERIC` only by ending in the fault (60_exceptions.md R261). -/
theorem statusNumeric_endPath (s : State) (c : Chan) {e : PathEnd} (h : e ≠ .numericFault) :
    statusNumeric (s.endPath c e).status = statusNumeric s.status := by
  cases e with
  | numericFault => exact absurd rfl h
  | emit | hold => simp [State.endPath]

/-- The fault ends the event without a write, with `LAST = FAULTED` (60_exceptions.md R261). -/
theorem endPath_numericFault (s : State) (c : Chan) : (s.endPath c .numericFault).seq = .emitting c none ∧
    statusLast (s.endPath c .numericFault).status = 0b100 ∧ statusNumeric (s.endPath c .numericFault).status = true := by
  simp [State.endPath, LastOutcome.code]

/-- A voltage that is no NaN has a frame (45_dac_codec.md R200, R207). -/
theorem emitVoltage_ne_numericFault {cfg : Cfg} {c : Chan} {v : F32} (h : v.isNaN = false) :
    emitVoltage cfg c v ≠ .numericFault := by
  obtain ⟨fr, frame⟩ := Option.isSome_iff_exists.mp (encodeVoltage_isSome (cfg := cfg) (c := c) h)
  simp [emitVoltage, frame]

/-- Every entry of `VT` is finite, so the spectral path, which emits one of them, never faults (46_event_dispatcher.md R226). -/
theorem spectralPipeline_ne_numericFault {cfg : Cfg} {ft vt : List F32} {buf : List Nat} {e : PathEnd}
    (finite : ∀ v ∈ vt, v.isFinite = true) (run : spectralPipeline cfg ft vt buf = .ok e) : e ≠ .numericFault := by
  unfold spectralPipeline at run
  split at run
  · rename_i qi _
    rcases hv : readTable vt qi with f | v <;> rw [hv] at run
    · cases run
    · cases run
      have entry := finite v (List.mem_of_getElem? (readTable_eq_ok.mp hv))
      exact emitVoltage_ne_numericFault (by cases v <;> simp_all [F32.isNaN, F32.isFinite])
  · cases run

/-! ### What the sequencer's turn writes -/

/-- Only an accepted `SCALE` word writes the mask (46_event_dispatcher.md R222). -/
theorem seqEffect_mask {s t : State} (effect : SeqEffect s t) : t.mask = s.mask ∨
    (s.cfg.mode = .event ∧ s.seq = .idle ∧ s.offer = some 0b100 ∧ t.mask = ~~~s.pins) := by
  have scaleWord : ∀ ev : EventWord, decodeEvent ev = .scale → ev = 0b100 := by decide
  cases effect with
  | scale acc =>
    obtain ⟨mode, seq, ev, offer, dec⟩ := accepts_iff.mp acc
    exact .inr ⟨mode, seq, scaleWord ev dec ▸ offer, rfl⟩
  | voltagePath | spectralPath => exact .inl (State.endPath_mask _ _ _)
  | wait | gate | reserved | freeRun | writeDone | holdDone => exact .inl rfl

/-- A reserved word is accepted (46_event_dispatcher.md R223). -/
abbrev State.acceptsReserved (s : State) : Prop :=
  s.cfg.mode = .event ∧ s.seq = .idle ∧ ∃ ev, s.offer = some ev ∧ ev &&& 0b110 ≠ 0b010 ∧ ev ≠ 0b100

theorem acceptsReserved_of_accepts {s : State} {i : Instr} (acc : s.accepts i = true) (notScale : i ≠ .scale)
    (notGate : ∀ c, i ≠ .gate c) : s.acceptsReserved := by
  obtain ⟨mode, seq, ev, offer, rfl⟩ := accepts_iff.mp acc
  refine ⟨mode, seq, ev, offer, fun gate => ?_, fun scale => ?_⟩
  · exact notGate (Chan.ofBit (ev.getLsbD 0)) (if_pos gate)
  · rw [scale] at notScale
    exact notScale rfl

/-- `F_ILLEGAL_EVENT` is kept, or set by a reserved word (46_event_dispatcher.md R223). -/
theorem seqEffect_illegalEvent {s t : State} (effect : SeqEffect s t) :
    statusIllegalEvent t.status = statusIllegalEvent s.status ∨ (s.acceptsReserved ∧ statusIllegalEvent t.status = true) := by
  cases effect with
  | reserved i acc notScale notGate => exact .inr ⟨acceptsReserved_of_accepts acc notScale notGate, by simp⟩
  | wait => exact .inl rfl
  | gate | scale | freeRun | voltagePath | spectralPath | writeDone | holdDone => exact .inl (by simp)

/-- The voltage path ends without a write and with `LAST = FAULTED` (46_event_dispatcher.md R225, 60_exceptions.md R261). -/
abbrev State.faultsInVoltagePath (s t : State) : Prop :=
  s.cfg.mode = .event ∧ ∃ c, s.seq = .sampling c ∧ t.seq = .emitting c none ∧ statusLast t.status = 0b100

/-- `F_NUMERIC` is kept, or set by the voltage path (60_exceptions.md R261). -/
theorem seqEffect_numeric {s t : State} (finite : ∀ v ∈ s.vt, v.isFinite = true) (effect : SeqEffect s t) :
    statusNumeric t.status = statusNumeric s.status ∨ (s.faultsInVoltagePath t ∧ statusNumeric t.status = true) := by
  cases effect with
  | voltagePath c buf e mode seq =>
    by_cases fault : e = .numericFault
    · subst fault
      obtain ⟨emitting, last, numeric⟩ := endPath_numericFault s.consumeCapture c
      exact .inr ⟨⟨mode, c, seq, emitting, last⟩, numeric⟩
    · exact .inl (statusNumeric_endPath s.consumeCapture c fault)
  | spectralPath buf e _ _ _ _ run =>
    exact .inl (statusNumeric_endPath s.consumeCapture .a (spectralPipeline_ne_numericFault finite run))
  | wait => exact .inl rfl
  | gate | scale | reserved | freeRun | writeDone | holdDone => exact .inl (by simp)

/-! ### The writers across a step -/

theorem stepEffect_mask {s t : State} (effect : StepEffect s t) : t.mask = s.mask ∨
    (s.seqHasTurn ∧ s.cfg.mode = .event ∧ s.seq = .idle ∧ s.offer = some 0b100 ∧ t.mask = ~~~s.pins) ∨
    (s.script.head? = some .reset ∧ t.mask = if s.cfg.initScaleRead then ~~~s.pins else 0x000) := by
  cases effect with
  | sequencer turn effect => exact (seqEffect_mask effect).imp_right fun scale => .inl ⟨turn, scale⟩
  | reset line run =>
    cases run
    exact .inr (.inr ⟨line, rfl⟩)
  | capture | write | pins | offer | lose | read => exact .inl rfl

/-- A sticky bit across a step, `b` before and `b'` after: kept, cleared by a reset, or set where `cause` holds (60_exceptions.md R262,
R263). -/
def StickyBit (s : State) (cause : Prop) (b b' : Bool) : Prop :=
  b' = b ∨ (s.script.head? = some .reset ∧ b' = false) ∨ (cause ∧ b' = true)

theorem StickyBit.stays {s : State} {cause : Prop} {b b' : Bool} (h : StickyBit s cause b b')
    (notReset : s.script.head? ≠ some .reset) (set : b = true) : b' = true := by
  rcases h with kept | ⟨line, -⟩ | ⟨-, newly⟩
  · rw [kept, set]
  · exact absurd line notReset
  · exact newly

theorem StickyBit.cause {s : State} {cause : Prop} {b b' : Bool} (h : StickyBit s cause b b') (set : b' = true) :
    b = true ∨ cause := by
  rcases h with kept | ⟨-, cleared⟩ | ⟨why, -⟩
  · exact .inl (kept ▸ set)
  · rw [cleared] at set
    cases set
  · exact .inr why

/-- A reset status has no fault recorded (60_exceptions.md R263). -/
theorem faultBits_zero : statusIllegalEvent 0x0000 = false ∧ statusNumeric 0x0000 = false := by
  decide

theorem stepEffect_illegalEvent {s t : State} (effect : StepEffect s t) :
    StickyBit s (s.seqHasTurn ∧ s.acceptsReserved) (statusIllegalEvent s.status) (statusIllegalEvent t.status) := by
  cases effect with
  | sequencer turn effect => exact (seqEffect_illegalEvent effect).imp_right fun ⟨why, set⟩ => .inr ⟨⟨turn, why⟩, set⟩
  | reset line run =>
    cases run
    exact .inr (.inl ⟨line, faultBits_zero.1⟩)
  | capture | write | pins | offer | lose | read => exact .inl rfl

theorem stepEffect_numeric {s t : State} (finite : ∀ v ∈ s.vt, v.isFinite = true) (effect : StepEffect s t) :
    StickyBit s (s.seqHasTurn ∧ s.faultsInVoltagePath t) (statusNumeric s.status) (statusNumeric t.status) := by
  cases effect with
  | @sequencer script _ turn effect =>
    exact (seqEffect_numeric (s := { s with script := script }) finite effect).imp_right
      fun ⟨why, set⟩ => .inr ⟨⟨turn, why⟩, set⟩
  | reset line run =>
    cases run
    exact .inr (.inl ⟨line, faultBits_zero.2⟩)
  | capture | write | pins | offer | lose | read => exact .inl rfl

/-- The entries of a generated `VT` are finite in a configuration that passes the checks (00_scope.md R7 `WF_VT_MONO`). -/
theorem vt_finite {s : State} (h : s.tablesGenerated) (wf : s.cfg.failure = none) : ∀ v ∈ s.vt, v.isFinite = true := by
  obtain ⟨-, -, vt, -⟩ := s.cfg.failure_eq_none_iff_met.mp wf
  rw [h.2]
  exact vt.1

/-- Settles O56: the writers of the mask and of the two sticky bits, each over the effects of a step. -/
theorem maskAndFaultBitWriters : Obligations.MaskAndFaultBitWriters := by
  intro s t inv h
  have effect := step_effect h
  have illegal := stepEffect_illegalEvent effect
  have numeric := stepEffect_numeric (vt_finite inv.1 (step_eq_next.mp h).1) effect
  exact ⟨stepEffect_mask effect, fun notReset => ⟨illegal.stays notReset, numeric.stays notReset⟩, illegal.cause, numeric.cause⟩

end Sys2Proof.Machine
end

section
/-!
PROOFS. Where a unit operation stops by name: an operand read outside its store (20_memory.md R61, 10_state.md R30), a channel or a
frame that is not there (log entries 13 and 14).
-/

namespace Sys2Proof.Machine

/-- A buffer without a value cannot be read (10_state.md R30). -/
theorem readBuffer_of_none {s : State} (h : s.buf = none) : s.readBuffer = .error .bufferNoValue := by
  rw [State.readBuffer, h]

/-- The fault of a failed operand read is the operation's, whatever would follow. -/
theorem orFault_of_error {α : Type} {e : Except Fault α} {f : Fault} (h : e = .error f) (k : α → Answer) :
    orFault e k = .fault f :=
  orFault_eq_fault.mpr (.inl h)

/-- There is no channel B in the spectral mode (00_scope.md R6). -/
theorem hasChannel_b_of_spectral {cfg : Cfg} (h : cfg.mode = .spectral) : ¬ cfg.hasChannel .b = true := by
  simp [Cfg.hasChannel, h]

/-- `DAC_FRAME` latches no frame but the one requested (log entry 13). -/
theorem execDacFrame_of_not_requested {s : State} {ctrl : BitVec 4} {code : DacCode}
    (h : ∀ c, s.dacReq ≠ some (c, packBits ctrl code)) : execDacFrame ctrl code s = .refused .frameNotRequested := by
  unfold execDacFrame
  rcases req : s.dacReq with _ | ⟨c, fr⟩
  · rfl
  · have other : fr ≠ packBits ctrl code := fun same => h c (same ▸ req)
    exact if_neg other

/-- Settles O35: the operand read faults before anything else of the operation runs, and the two refusals are the other branch of
the channel's check and of the frame's. -/
theorem stopsOutsideDomain : Obligations.StopsOutsideDomain := by
  refine ⟨fun s j outside => ?table, fun s empty => ?buffer, fun s code v spectral => ?channel,
    fun _ _ _ => execDacFrame_of_not_requested⟩
  case table => exact orFault_of_error (readTable_eq_error.mpr ⟨outside, rfl⟩) _
  case buffer =>
    have missing := readBuffer_of_none empty
    exact ⟨orFault_of_error missing _, orFault_of_error missing _, orFault_of_error missing _, orFault_of_error missing _⟩
  case channel =>
    have absent := hasChannel_b_of_spectral spectral
    exact ⟨if_neg absent, if_neg absent⟩

end Sys2Proof.Machine
end

section
/-!
PROOFS. The event words and the frames are two-way encodings (30_encoding.md R81, R85 to R87): an instruction has a word exactly
when that word decodes to it. Then what a word does at the event port and a frame at the DAC.
-/

namespace Sys2Proof.Machine

/-! ### The frame and its fields -/

/-- The three fields of a frame, joined, are the frame (30_encoding.md R85). -/
theorem frame_append_fields (fr : Frame) :
    (fr.extractLsb' 12 4 ++ fr.extractLsb' 2 10) ++ fr.extractLsb' 0 2 = fr := by
  rw [BitVec.extractLsb'_append_extractLsb'_eq_extractLsb' (show 12 = 2 + 10 from rfl),
    BitVec.extractLsb'_append_extractLsb'_eq_extractLsb' (show 2 = 0 + 2 from rfl)]
  exact BitVec.extractLsb'_eq_self

/-- A frame with clear pad bits is packed from its control and code fields (30_encoding.md R85, R86). -/
theorem packBits_fields {fr : Frame} (pad : framePadClear fr) : packBits (fr.extractLsb' 12 4) (fr.extractLsb' 2 10) = fr := by
  have join := frame_append_fields fr
  rwa [pad] at join

/-- A frame decodes exactly when its pad bits are clear, and to its fields (30_encoding.md R85, R86). -/
theorem decodeFrame_eq_ok {fr : Frame} {i : Instr} : decodeFrame fr = .ok i ↔
    framePadClear fr ∧ i = .dacFrame (fr.extractLsb' 12 4) (fr.extractLsb' 2 10) := by
  unfold decodeFrame
  split_ifs with pad
  · simpa [framePadClear, pad] using eq_comm
  · simp [pad]

@[simp] theorem decodeFrame_packBits (ctrl : BitVec 4) (code : DacCode) :
    decodeFrame (packBits ctrl code) = .ok (.dacFrame ctrl code) :=
  decodeFrame_eq_ok.mpr ⟨packBits_pad ctrl code, by rw [packBits_ctrl, packBits_code]⟩

/-- The two bytes on the wire carry the whole frame (45_dac_codec.md R206). -/
@[simp] theorem decodeWire_wireBytes (fr : Frame) : decodeWire (wireBytes fr) = decodeFrame fr := by
  have join : fr.extractLsb' 8 8 ++ fr.extractLsb' 0 8 = fr := by
    rw [BitVec.extractLsb'_append_extractLsb'_eq_extractLsb' (show 8 = 0 + 8 from rfl)]
    exact BitVec.extractLsb'_eq_self
  exact congrArg decodeFrame join

/-! ### Decoding and encoding are inverse -/

/-- Each of the eight event words is the word of its row (30_encoding.md R81). -/
theorem encode_decodeEvent : ∀ ev : EventWord, encode (decodeEvent ev) = some (.event ev) := by
  decide

/-- The word of an instruction decodes to it (30_encoding.md R81, R85). -/
theorem decode_of_encode {i : Instr} {w : Code} (word : encode i = some w) : decode w = .ok i := by
  cases i
  case gate c => cases word; cases c <;> rfl
  case reserved00x x | reserved11x x => cases word; cases x <;> rfl
  case scale | reserved101 => cases word; rfl
  case dacFrame ctrl code => cases word; exact decodeFrame_packBits ctrl code
  all_goals cases word

/-- An instruction that a word decodes to has that word (30_encoding.md R81, R86). -/
theorem encode_of_decode {i : Instr} {w : Code} (dec : decode w = .ok i) : encode i = some w := by
  cases w with
  | event ev =>
    cases dec
    exact encode_decodeEvent ev
  | frame fr =>
    obtain ⟨pad, rfl⟩ := decodeFrame_eq_ok.mp dec
    exact congrArg (some ∘ Code.frame) (packBits_fields pad)

/-- An instruction that has a word is well formed: its operands fill fields of their own width, and no rule narrows them
(30_encoding.md R81, R85). -/
theorem wf_of_encode {i : Instr} {w : Code} (word : encode i = some w) : i.wf = true := by
  cases i
  case gate | scale | reserved00x | reserved101 | reserved11x | dacFrame => rfl
  all_goals cases word

/-- Settles O3: the word decodes by the case of the instruction, and the wire bytes carry the whole frame. -/
theorem encodedWordsDecodeBack : Obligations.EncodedWordsDecodeBack := by
  intro i w _ word
  have dec := decode_of_encode word
  refine ⟨dec, fun fr frame => ?_⟩
  subst frame
  exact (decodeWire_wireBytes fr).trans dec

/-- Settles O4: by the format of the word, an event word as one of the eight rows and a frame by its fields. -/
theorem decodedWordsEncodeBack : Obligations.DecodedWordsEncodeBack := by
  refine ⟨fun w i dec => ?word, fun ev => ⟨decodeEvent ev, rfl⟩, fun fr => ⟨?pad, ?fields⟩⟩
  case word =>
    have word := encode_of_decode dec
    exact ⟨word, wf_of_encode word⟩
  case pad => exact fun ⟨_, dec⟩ => (decodeFrame_eq_ok.mp dec).1
  case fields => exact fun pad => ⟨_, decodeFrame_eq_ok.mpr ⟨pad, rfl⟩⟩

/-- Settles O2: each word is the encoder's for the instruction it stands for, so it decodes to it. -/
theorem writtenOutWordsDecode : Obligations.WrittenOutWordsDecode := by
  have frame : decode (.frame 0x3664) = .ok (.dacFrame 3 409) := decode_of_encode rfl
  exact ⟨decode_of_encode rfl, decode_of_encode rfl, decode_of_encode rfl, decode_of_encode rfl, frame, rfl,
    (decodeWire_wireBytes 0x3664).trans frame⟩

/-! ### A word at the event port and a frame at the DAC -/

/-- An event word the port does not accept has no effect (46_event_dispatcher.md R221 to R223, log entry 10). -/
theorem exec_event_of_not_accepts {s : State} {i : Instr} {ev : EventWord} (word : encode i = some (.event ev))
    (h : ¬ s.accepts i = true) : exec i s = .next s := by
  cases i
  case gate | scale | reserved00x | reserved101 | reserved11x => exact if_neg h
  all_goals cases word

/-- Settles O1: the rows by the words they name, and the port's own condition for the words it does not accept. -/
theorem opcodeMapDecodes : Obligations.OpcodeMapDecodes := by
  refine ⟨fun ev => ⟨fun gate => congrArg _ (if_pos gate), ?scale, ?reserved00x, ?reserved101, ?reserved11x⟩,
    fun s ev i outside dec => ?port⟩
  case scale | reserved101 => rintro rfl; rfl
  case reserved00x | reserved11x => rintro (rfl | rfl) <;> rfl
  case port =>
    refine exec_event_of_not_accepts (encode_of_decode dec) fun acc => ?_
    obtain ⟨mode, seq, -⟩ := accepts_iff.mp acc
    exact outside ⟨mode, seq⟩

/-- `DAC_FRAME` latches the requested frame (45_dac_codec.md R205, 60_exceptions.md R278, log entry 13). -/
theorem execDacFrame_of_requested {s : State} {c : Chan} {ctrl : BitVec 4} {code : DacCode}
    (h : s.dacReq = some (c, packBits ctrl code)) :
    execDacFrame ctrl code s = .next (s.latchFrame c (packBits ctrl code)) := by
  simp [execDacFrame, h]

/-- Settles O49: a frame with clear pad bits is the one packed from its fields, and that one is requested. -/
theorem dacFrameLatchesRequestedFrame : Obligations.DacFrameLatchesRequestedFrame := by
  rintro s c fr _ _ req rfl rfl pad
  have packed := packBits_fields pad
  have latched := execDacFrame_of_requested (packed.symm ▸ req)
  rwa [packed] at latched

end Sys2Proof.Machine
end

section
/-!
PROOFS. The decimal rounding of the TableGenerator (40_table_generator.md R102): integer twelfth roots decide the floor of an exact
real, and that floor is the decimal.
-/

namespace Sys2Proof

/-! ### The integer twelfth root -/

/-- A digit-by-digit root between `r` and `r + 2^bits` is the greatest number whose twelfth power is at most `n`. -/
theorem le_root12From_iff {n bits r k : ℕ} (low : r ^ 12 ≤ n) (high : n < (r + 2 ^ bits) ^ 12) :
    k ≤ root12From n bits r ↔ k ^ 12 ≤ n := by
  induction bits generalizing r with
  | zero =>
    constructor
    · exact fun le => (Nat.pow_le_pow_left le 12).trans low
    · exact fun le => Nat.le_of_lt_succ (lt_of_pow_lt_pow_left' 12 (le.trans_lt high))
  | succ bits ih =>
    have halves : r + 2 ^ (bits + 1) = r + 2 ^ bits + 2 ^ bits := by ring
    rw [root12From]
    split_ifs with digit
    · exact ih digit (halves ▸ high)
    · exact ih low (not_le.mp digit)

/-- `root12` is the floor of the twelfth root. -/
theorem le_root12_iff {n k : ℕ} : k ≤ root12 n ↔ k ^ 12 ≤ n := by
  refine le_root12From_iff (by norm_num) ?_
  calc n < 2 ^ (n.log2 + 1) := Nat.lt_log2_self
    _ ≤ 2 ^ ((n.log2 / 12 + 1) * 12) := Nat.pow_le_pow_right (by norm_num) (by omega)
    _ = (0 + 2 ^ (n.log2 / 12 + 1)) ^ 12 := by rw [zero_add, pow_mul]

/-- The twelfth root of the floor of a twelfth power is the floor of its base. -/
theorem root12_floor_pow {x : ℝ} (hx : 0 ≤ x) : root12 ⌊x ^ 12⌋₊ = ⌊x⌋₊ := by
  refine eq_of_forall_le_iff fun k => ?_
  rw [le_root12_iff, Nat.le_floor_iff (by positivity), Nat.le_floor_iff hx, Nat.cast_pow,
    pow_le_pow_iff_left₀ k.cast_nonneg hx (by norm_num)]

/-! ### The decimal -/

/-- The twelfth power of a semitone ratio is a power of two. -/
theorem semitoneRatio_pow (i : ℕ) : ((2 : ℝ) ^ ((i : ℝ) / 12)) ^ 12 = 2 ^ i := by
  rw [← Real.rpow_natCast, ← Real.rpow_mul (by norm_num), ← Real.rpow_natCast]
  congr 1
  push_cast
  ring

theorem SemitoneReal.abs_value (t : SemitoneReal) :
    |t.value| = (t.num.natAbs : ℝ) / t.den * 2 ^ ((t.twelfths : ℝ) / 12) := by
  have ratio : (0 : ℝ) ≤ 2 ^ ((t.twelfths : ℝ) / 12) := by positivity
  rw [SemitoneReal.value, abs_mul, abs_div, Nat.abs_cast, Nat.cast_natAbs, Int.cast_abs, abs_of_nonneg ratio]

/-- `twoThousandths` is what its name says of the exact real. -/
theorem twoThousandths_eq (t : SemitoneReal) : twoThousandths t = ⌊2000 * |t.value|⌋₊ := by
  have power : (2000 * |t.value|) ^ 12 = (((2000 * t.num.natAbs) ^ 12 * 2 ^ t.twelfths : ℕ) : ℝ) / (t.den ^ 12 : ℕ) := by
    rw [t.abs_value, mul_pow, mul_pow, semitoneRatio_pow]
    push_cast
    ring
  rw [← root12_floor_pow (by positivity), power, Nat.floor_div_eq_div, twoThousandths]

/-- Half of the two-thousandths, rounded up, is the magnitude in thousandths rounded with ties away from zero. -/
theorem half_twoThousandths (t : SemitoneReal) :
    (((twoThousandths t + 1) / 2 : ℕ) : ℤ) = ⌊|t.value| * 1000 + 1 / 2⌋ := by
  have half : |t.value| * 1000 + 1 / 2 = (2000 * |t.value| + 1) / (2 : ℕ) := by
    push_cast
    ring
  rw [twoThousandths_eq, ← Nat.floor_add_one (by positivity), ← Nat.floor_div_natCast, ← half,
    Int.natCast_floor_eq_floor (by positivity)]

theorem roundDec3_of_nonneg {t : SemitoneReal} (h : 0 ≤ t.num) : roundDec3 t = ⌊|t.value| * 1000 + 1 / 2⌋ := by
  rw [roundDec3, if_neg h.not_gt, half_twoThousandths]

theorem roundDec3_of_neg {t : SemitoneReal} (h : t.num < 0) : roundDec3 t = -⌊|t.value| * 1000 + 1 / 2⌋ := by
  rw [roundDec3, if_pos h, half_twoThousandths]

/-- An exact real has the sign of its numerator. -/
theorem SemitoneReal.value_neg_iff {t : SemitoneReal} (hd : 0 < t.den) : t.value < 0 ↔ t.num < 0 := by
  have scale : (0 : ℝ) < 2 ^ ((t.twelfths : ℝ) / 12) / t.den := by positivity
  rw [SemitoneReal.value, div_mul_comm, ← smul_eq_mul, smul_neg_iff_of_pos_left scale, Int.cast_lt_zero]

/-- Settles O9: the decimal is the floor of the magnitude by `half_twoThousandths`, and its sign is the numerator's. -/
theorem roundDec3RoundsAway : Obligations.RoundDec3RoundsAway := fun _ t hd =>
  ⟨roundDec3 t, rfl, fun nonneg => roundDec3_of_nonneg (not_lt.mp ((t.value_neg_iff hd).not.mp nonneg.not_gt)),
    fun neg => roundDec3_of_neg ((t.value_neg_iff hd).mp neg)⟩

end Sys2Proof
end

section
/-!
PROOFS. The contents of the two note tables (40_table_generator.md R101, R103): each entry is one rounding of the exact number its
rule names.
-/

namespace Sys2Proof

/-! ### The frequency table -/

theorem value_semitoneOf (root : F32) (i : ℕ) : (semitoneOf root i).value = root.value * 2 ^ ((i : ℝ) / 12) := by
  rw [SemitoneReal.value, semitoneOf, F32.cast_one, F32.value]

/-- An entry of `FT` is the one rounding of the decimal (40_table_generator.md R101). -/
theorem rounds_freqEntry {cfg : Cfg} (root : 0 < cfg.rootFreq.value) (i : ℕ) :
    Rounds ((⌊cfg.rootFreq.value * (2 : ℝ) ^ ((i : ℝ) / 12) * 1000 + 1 / 2⌋ : ℝ) / 1000) (freqEntry cfg i) := by
  have above : 0 ≤ (semitoneOf cfg.rootFreq i).value := by
    rw [value_semitoneOf]
    positivity
  have num := not_lt.mp ((SemitoneReal.value_neg_iff F32.one_pos).not.mp above.not_gt)
  rw [freqEntry, roundDec3_of_nonneg num, abs_of_nonneg above, value_semitoneOf]
  exact_mod_cast rounds_rne32 _ (show 0 < 1000 by norm_num)

/-- Settles O10: the entries one by one. -/
theorem frequencyTableGenerated : Obligations.FrequencyTableGenerated := by
  intro s ranges
  obtain ⟨-, ⟨-, root⟩, -⟩ := ranges
  refine ⟨freqTable s.cfg, rfl, by simp [freqTable], fun i h => ?_⟩
  have entry : (freqTable s.cfg)[i] = freqEntry s.cfg i := by simp [freqTable]
  rw [entry]
  exact rounds_freqEntry root i

/-! ### The voltage table -/

/-- An entry of `VT` is the one rounding of the product (40_table_generator.md R103). -/
theorem rounds_voltEntry (cfg : Cfg) (i : ℕ) : Rounds (cfg.vps.value * ((i : ℝ) + cfg.voltOffset)) (voltEntry cfg i) := by
  have product : cfg.vps.value * ((i : ℝ) + cfg.voltOffset) =
      ((cfg.vps.scaled * ((i + cfg.voltOffset : ℕ) : ℤ) : ℤ) : ℝ) / F32.one := by
    rw [F32.cast_one, F32.value]
    push_cast
    ring
  rw [product]
  exact rounds_rne32 _ F32.one_pos

/-- A value above zero is the one its fields name, with the sign `+`. -/
theorem F32.positive.exists_fields {x : F32} (hx : x.positive) :
    ∃ r, x = F32.ofFields false r ∧ x.value = F32.fieldsValue r := by
  obtain ⟨finite, pos⟩ := hx
  obtain ⟨_ | _, r, hr, rfl⟩ := F32.exists_eq_ofFields finite
  case false => exact ⟨r, rfl, by simp [F32.value_ofFields _ hr]⟩
  case true =>
    rw [F32.value_ofFields _ hr, if_pos rfl] at pos
    linarith [F32.fieldsValue_nonneg r]

/-- A number above zero is the value of at most one binary32. -/
theorem F32.positive.eq_of_value_eq {x y : F32} (hx : x.positive) (hy : y.positive) (h : x.value = y.value) : x = y := by
  obtain ⟨r, rfl, xr⟩ := hx.exists_fields
  obtain ⟨k, rfl, yk⟩ := hy.exists_fields
  rw [F32.fieldsValue_strictMono.injective (xr.symm.trans (h.trans yk))]

/-- The rounding of a binary32 above zero is that binary32. -/
theorem Rounds.eq_of_positive {x y : F32} (h : Rounds y.value x) (hy : y.positive) : x = y := by
  have same := h.value_eq hy.1
  exact F32.positive.eq_of_value_eq ⟨(h.isFinite_iff).mpr (F32.abs_value_lt hy.1), same ▸ hy.2⟩ hy same

/-- With no offset `VT` starts at `+0.0` (40_table_generator.md R103). -/
theorem voltEntry_zero_of_offset_zero {cfg : Cfg} (offset : cfg.voltOffset = 0) : voltEntry cfg 0 = F32.zero := by
  have zero : rne32 0 F32.one = F32.zero := by decide +kernel
  simpa [voltEntry, offset] using zero

/-- With offset 1 `VT` starts at `VPS` (40_table_generator.md R103). -/
theorem voltEntry_zero_of_offset_one {cfg : Cfg} (vps : cfg.vps.positive) (offset : cfg.voltOffset = 1) :
    voltEntry cfg 0 = cfg.vps := by
  have rounded := rounds_voltEntry cfg 0
  rw [offset, Nat.cast_zero, Nat.cast_one, zero_add, mul_one] at rounded
  exact rounded.eq_of_positive vps

/-- Settles O11: the entries one by one, the first by its two corner cases. -/
theorem voltageTableGenerated : Obligations.VoltageTableGenerated := by
  intro s ranges
  obtain ⟨-, -, vps, -⟩ := ranges
  refine ⟨voltTable s.cfg, rfl, by simp [voltTable], fun i h => ?_⟩
  have entry : (voltTable s.cfg)[i] = voltEntry s.cfg i := by simp [voltTable]
  rw [entry]
  refine ⟨rounds_voltEntry s.cfg i, ?_, ?_⟩ <;> rintro rfl
  · exact voltEntry_zero_of_offset_zero
  · exact voltEntry_zero_of_offset_one vps

end Sys2Proof
end

section
/-!
PROOFS. The floor search of a note table (41_quantizer.md R120, R121) and the map from frequency to voltage it gives
(40_table_generator.md R105, R106).
-/

namespace Sys2Proof

/-! ### The comparisons as an order -/

/-- Every value but the NaN has a place in the order. -/
theorem F32.exists_place {x : F32} (h : x.isNaN = false) : ∃ p, x.place = some p := by
  cases x
  case nan => cases h
  case inf | fin => exact ⟨_, rfl⟩

theorem F32.le_iff_place {x y : F32} : x.le y = true ↔ ∃ p q, x.place = some p ∧ y.place = some q ∧ p ≤ q := by
  cases hx : x.place <;> cases hy : y.place <;> simp [F32.le, hx, hy]

theorem F32.lt_iff_place {x y : F32} : x.lt y = true ↔ ∃ p q, x.place = some p ∧ y.place = some q ∧ p < q := by
  cases hx : x.place <;> cases hy : y.place <;> simp [F32.lt, hx, hy]

theorem F32.eq_symm (x y : F32) : x.eq y = y.eq x := by
  cases hx : x.place <;> cases hy : y.place <;> simp [F32.eq, hx, hy, eq_comm]

theorem F32.le_iff_lt_or_eq_true {x y : F32} : x.le y = true ↔ x.lt y = true ∨ x.eq y = true := by
  cases hx : x.place <;> cases hy : y.place <;> simp [F32.le, F32.lt, F32.eq, hx, hy, le_iff_lt_or_eq]

theorem F32.le_of_le_of_le {x y z : F32} (xy : x.le y = true) (yz : y.le z = true) : x.le z = true := by
  obtain ⟨p, q, hp, hq, pq⟩ := F32.le_iff_place.mp xy
  obtain ⟨q', r, hq', hr, qr⟩ := F32.le_iff_place.mp yz
  obtain rfl := Option.some.inj (hq.symm.trans hq')
  exact F32.le_iff_place.mpr ⟨p, r, hp, hr, pq.trans qr⟩

theorem F32.not_le_of_lt_true {x y : F32} (h : x.lt y = true) : ¬ y.le x = true := by
  obtain ⟨p, q, hx, hy, lt⟩ := F32.lt_iff_place.mp h
  simp [F32.le, hx, hy, lt]

/-- Without a NaN the order is total. -/
theorem F32.le_of_not_le_true {x y : F32} (hx : x.isNaN = false) (hy : y.isNaN = false) (h : ¬ x.le y = true) :
    y.le x = true := by
  obtain ⟨p, hp⟩ := F32.exists_place hx
  obtain ⟨q, hq⟩ := F32.exists_place hy
  simp only [F32.le, hp, hq, decide_eq_true_eq] at h ⊢
  exact (not_le.mp h).le

theorem F32.isNaN_of_isFinite {x : F32} (h : x.isFinite = true) : x.isNaN = false := by
  obtain ⟨neg, e, f, rfl⟩ := F32.exists_eq_fin h
  rfl

theorem F32.isNaN_of_le {x y : F32} (h : x.le y = true) : y.isNaN = false := by
  by_contra nan
  simp [F32.compare_isNaN (x := x) (.inr (Bool.not_eq_false _ ▸ nan))] at h

/-! ### A strict table -/

/-- Entries in increasing order at neighbouring indices are so at any two. -/
theorem strictTable.value_lt {t : List F32} (h : strictTable t) {j k : ℕ} (jk : j < k) (hk : k < t.length) :
    t[j].value < t[k].value := by
  induction k, jk using Nat.le_induction with
  | base => exact h.2 j hk
  | succ k jk ih => exact (ih (by omega)).trans (h.2 k hk)

/-- The entries of a table are ordered as their indices. -/
theorem strictTable.le_iff {t : List F32} (h : strictTable t) {j k : ℕ} (hj : j < t.length) (hk : k < t.length) :
    t[j].le t[k] = true ↔ j ≤ k := by
  rw [F32.le_iff_value (h.1 _ (List.getElem_mem hj)) (h.1 _ (List.getElem_mem hk))]
  rcases Nat.lt_trichotomy j k with lt | rfl | gt
  · exact iff_of_true (h.value_lt lt hk).le lt.le
  · exact iff_of_true le_rfl le_rfl
  · exact iff_of_false (h.value_lt gt hj).not_ge gt.not_ge

/-! ### The floor index -/

/-- `i` is the index of the greatest entry of the table that is at most `x`, clamped to the table (41_quantizer.md R120). -/
def IsFloorIndex (x : F32) (t : List F32) (i : ℕ) : Prop :=
  i < t.length ∧ ∀ k (h : k < t.length), k ≤ i ↔ k = 0 ∨ t[k].le x = true

section
variable {t : List F32} (strict : strictTable t) {x : F32} {i : ℕ}
include strict

/-- Where `x` is at most the first entry, that is its floor. -/
theorem isFloorIndex_first (ne : 0 < t.length) (first : x.le t[0] = true) : IsFloorIndex x t 0 := by
  refine ⟨ne, fun k hk => ⟨fun le => .inl (Nat.le_zero.mp le), ?_⟩⟩
  rintro (rfl | below)
  · exact le_rfl
  · exact (strict.le_iff hk ne).mp (F32.le_of_le_of_le below first)

/-- Where `x` is at least an entry and not the next one, that entry is its floor; so is the last entry. -/
theorem isFloorIndex_of_le (hi : i < t.length) (low : t[i].le x = true) (high : ∀ h : i + 1 < t.length, ¬ t[i + 1].le x = true) :
    IsFloorIndex x t i := by
  refine ⟨hi, fun k hk => ⟨fun le => .inr (F32.le_of_le_of_le ((strict.le_iff hk hi).mpr le) low), ?_⟩⟩
  rintro (rfl | below)
  · exact Nat.zero_le i
  · by_contra above
    have next : t[i + 1].le t[k] = true := (strict.le_iff _ hk).mpr (by omega)
    exact high _ (F32.le_of_le_of_le next below)

end

/-- A greater number has no smaller floor. -/
theorem IsFloorIndex.mono {t : List F32} {x y : F32} {i j : ℕ} (hi : IsFloorIndex x t i) (hj : IsFloorIndex y t j)
    (xy : x.le y = true) : i ≤ j :=
  (hj.2 i hi.1).mpr (((hi.2 i hi.1).mp le_rfl).imp_right fun low => F32.le_of_le_of_le low xy)

theorem IsFloorIndex.unique {t : List F32} {x : F32} {i j : ℕ} (hi : IsFloorIndex x t i) (hj : IsFloorIndex x t j) : i = j :=
  le_antisymm ((hj.2 i hi.1).mpr ((hi.2 i hi.1).mp le_rfl)) ((hi.2 j hj.1).mpr ((hj.2 j hj.1).mp le_rfl))

end Sys2Proof

namespace Sys2Proof.Machine

/-! ### The search finds the floor -/

/-- The loop keeps `x` between its two entries until they are neighbours (41_quantizer.md R121), and its fuel lasts that long. -/
theorem quantizeLoop_isFloorIndex {x : F32} {t : List F32} (strict : strictTable t) {fuel l u : ℕ} (lu : l < u)
    (hu : u < t.length) (enough : u ≤ l + fuel + 1) (low : t[l].le x = true) (high : ¬ t[u].le x = true) :
    ∃ i, quantizeLoop x t fuel l u = .ok i ∧ IsFloorIndex x t i := by
  induction fuel generalizing l u with
  | zero =>
    obtain rfl : u = l + 1 := by omega
    exact ⟨l, rfl, isFloorIndex_of_le strict _ low fun _ => high⟩
  | succ fuel ih =>
    unfold quantizeLoop
    split_ifs with gap
    · have hm : (l + u) / 2 < t.length := by omega
      have atMost : t[(l + u) / 2].le x = true ↔ t[(l + u) / 2].lt x = true ∨ x.eq t[(l + u) / 2] = true := by
        rw [F32.le_iff_lt_or_eq_true, F32.eq_symm]
      rw [readTable_of_lt hm]
      dsimp only
      split_ifs with hit above
      · refine ⟨_, rfl, isFloorIndex_of_le strict hm (atMost.mpr (.inr hit)) fun next after => ?_⟩
        have back := F32.le_of_le_of_le after (F32.le_iff_lt_or_eq_true.mpr (.inr hit))
        exact absurd ((strict.le_iff next hm).mp back) (by omega)
      · exact ih (by omega) hu (by omega) (atMost.mpr (.inl above)) high
      · exact ih (by omega) hm (by omega) low (atMost.not.mpr (not_or.mpr ⟨above, hit⟩))
    · obtain rfl : u = l + 1 := by omega
      exact ⟨l, rfl, isFloorIndex_of_le strict _ low fun _ => high⟩

/-- `QUANTIZE_FLOOR` finds the floor of every number (41_quantizer.md R120, R121). -/
theorem quantizeFloor_isFloorIndex {x : F32} {t : List F32} (strict : strictTable t) (ne : 0 < t.length)
    (hx : x.isNaN = false) : ∃ i, quantizeFloor x t = .ok i ∧ IsFloorIndex x t i := by
  have last : t.length - 1 < t.length := by omega
  unfold quantizeFloor
  rw [readTable_of_lt ne, readTable_of_lt last]
  dsimp only
  split_ifs with below above
  · exact ⟨0, rfl, isFloorIndex_first strict ne below⟩
  · exact ⟨_, rfl, isFloorIndex_of_le strict last above fun h => by omega⟩
  · have low := F32.le_of_not_le_true hx (F32.isNaN_of_isFinite (strict.1 _ (List.getElem_mem ne))) below
    have apart : t.length - 1 ≠ 0 := fun same => above (by simpa only [same] using low)
    exact quantizeLoop_isFloorIndex strict (by omega) last (by omega) low above

/-! ### The two operations and their composition -/

theorem exec_quantizeFloor_of_ok {s : State} {x : F32} {T : Table} {i : ℕ} (h : quantizeFloor x (s.table T) = .ok i) :
    exec (.quantizeFloor x T) s = .next { s with result := some (.qi i) } :=
  orFault_eq_next.mpr ⟨i, h, rfl⟩

theorem exec_indexToVoltage_of_lt {s : State} {j : ℕ} (h : j < s.vt.length) :
    exec (.indexToVoltage j) s = .next { s with result := some (.vo s.vt[j]) } :=
  orFault_eq_next.mpr ⟨s.vt[j], readTable_of_lt h, rfl⟩

/-- Settles O12: an index below `N` is inside the generated table. -/
theorem indexToVoltageReadsTable : Obligations.IndexToVoltageReadsTable := by
  intro s j tables hj
  have inside : j < s.vt.length := by rwa [(tables_length tables).2]
  exact ⟨s.vt[j], List.getElem?_eq_getElem inside, exec_indexToVoltage_of_lt inside⟩

/-- The tables of a well-formed configuration are strict and not empty (00_scope.md R7). -/
theorem strictTables_of_wf {s : State} (wf : s.cfg.wf = true) (tables : s.tablesGenerated) :
    strictTable s.ft ∧ strictTable s.vt ∧ 1 ≤ s.cfg.n := by
  obtain ⟨⟨⟨size, -⟩, -⟩, ft, vt, -⟩ := s.cfg.failure_eq_none_iff_met.mp (Option.isNone_iff_eq_none.mp wf)
  exact ⟨tables.1 ▸ ft, tables.2 ▸ vt, size⟩

/-- Settles O14: the floor index grows with the number and depends only on the interval it is in, and `VT` is in order. -/
theorem frequencyToVoltageMonotone : Obligations.FrequencyToVoltageMonotone := by
  intro s wf tables
  obtain ⟨ft, vt, size⟩ := strictTables_of_wf wf tables
  obtain ⟨ftLength, vtLength⟩ := tables_length tables
  choose! index search floor using
    fun f (number : F32.isNaN f = false) => quantizeFloor_isFloorIndex ft (by omega) number
  have inside (f : F32) (number : f.isNaN = false) : index f < s.vt.length := by
    have := (floor f number).1
    omega
  refine ⟨fun f => s.vt.getD (index f) F32.zero, fun f number => ?runs, fun f g hf hg le => ?monotone,
    fun f g i lo hi hlo hhi lof fhi log ghi => ?constant⟩
  case runs =>
    beta_reduce
    rw [List.getD_eq_getElem _ _ (inside f number)]
    exact ⟨index f, exec_quantizeFloor_of_ok (search f number), exec_indexToVoltage_of_lt (inside f number)⟩
  case monotone =>
    beta_reduce
    rw [List.getD_eq_getElem _ _ (inside f hf), List.getD_eq_getElem _ _ (inside g hg), vt.le_iff]
    exact (floor f hf).mono (floor g hg) le
  case constant =>
    have index_eq (x : F32) (low : lo.le x = true) (high : x.lt hi = true) : index x = i := by
      obtain ⟨hi', rfl⟩ := List.getElem?_eq_some_iff.mp hlo
      obtain ⟨next, rfl⟩ := List.getElem?_eq_some_iff.mp hhi
      exact (floor x (F32.isNaN_of_le low)).unique (isFloorIndex_of_le ft hi' low fun _ => F32.not_le_of_lt_true high)
    exact congrArg (s.vt.getD · F32.zero) ((index_eq f lof fhi).trans (index_eq g log ghi).symm)

end Sys2Proof.Machine
end

section
/-!
PROOFS. The result law of `QUANTIZE_FLOOR` over both tables (41_quantizer.md R120, R121): the floor index is the one law, and a NaN,
which compares as false with every entry, ends at index 0.
-/

namespace Sys2Proof

theorem F32.lt_of_not_le_true {x y : F32} (hx : x.isNaN = false) (hy : y.isNaN = false) (h : ¬ y.le x = true) :
    x.lt y = true := by
  obtain ⟨p, hp⟩ := F32.exists_place hx
  obtain ⟨q, hq⟩ := F32.exists_place hy
  simpa [F32.le, F32.lt, hp, hq] using h

section
variable {t : List F32} {x : F32} {i : ℕ} (floor : IsFloorIndex x t i)
include floor

/-- The entry at the floor of a number that is at least the first entry is at most the number. -/
theorem IsFloorIndex.getElem_le (ne : 0 < t.length) (first : t[0].le x = true) : (t[i]'floor.1).le x = true := by
  rcases (floor.2 i floor.1).mp le_rfl with rfl | low
  · exact first
  · exact low

/-- The entry after the floor is above the number. -/
theorem IsFloorIndex.lt_getElem_succ (strict : strictTable t) (hx : x.isNaN = false) (next : i + 1 < t.length) :
    x.lt t[i + 1] = true := by
  refine F32.lt_of_not_le_true hx (F32.isNaN_of_isFinite (strict.1 _ (List.getElem_mem next))) fun below => ?_
  exact absurd ((floor.2 (i + 1) next).mpr (.inr below)) (by omega)

/-- The floor of a number below the last entry is not the last index. -/
theorem IsFloorIndex.succ_lt_length (apart : 1 < t.length) (last : x.lt t[t.length - 1] = true) : i + 1 < t.length := by
  by_contra atLast
  rcases (floor.2 (t.length - 1) (by omega)).mp (by omega) with single | above
  · omega
  · exact F32.not_le_of_lt_true last above

/-- Inside the table, the floor is the one index with the number between its entry and the next (41_quantizer.md R121). -/
theorem IsFloorIndex.eq_iff_between (strict : strictTable t) (ne : 0 < t.length) (first : t[0].lt x = true)
    (last : x.lt t[t.length - 1] = true) (k : ℕ) :
    k = i ↔ ∃ a b, t[k]? = some a ∧ t[k + 1]? = some b ∧ a.le x = true ∧ x.lt b = true := by
  have low : t[0].le x = true := F32.le_iff_lt_or_eq_true.mpr (.inl first)
  constructor
  · rintro rfl
    have apart : t.length ≠ 1 := fun single => F32.not_le_of_lt_true last (by simpa only [single] using low)
    have next := floor.succ_lt_length (by omega) last
    exact ⟨_, _, List.getElem?_eq_getElem floor.1, List.getElem?_eq_getElem next, floor.getElem_le ne low,
      floor.lt_getElem_succ strict (F32.isNaN_of_le low) next⟩
  · rintro ⟨a, b, ha, hb, below, above⟩
    obtain ⟨hk, rfl⟩ := List.getElem?_eq_some_iff.mp ha
    obtain ⟨next, rfl⟩ := List.getElem?_eq_some_iff.mp hb
    exact (isFloorIndex_of_le strict hk below fun _ => F32.not_le_of_lt_true above).unique floor

end

end Sys2Proof

namespace Sys2Proof.Machine

/-- A NaN is never found and never above an entry, so the search keeps its lower index (41_quantizer.md R120). -/
theorem quantizeLoop_of_isNaN {x : F32} {t : List F32} (nan : x.isNaN = true) {fuel l u : ℕ} (hu : u < t.length) :
    quantizeLoop x t fuel l u = .ok l := by
  induction fuel generalizing u with
  | zero => rfl
  | succ fuel ih =>
    unfold quantizeLoop
    split_ifs with gap
    · have hm : (l + u) / 2 < t.length := by omega
      obtain ⟨-, -, noHit⟩ := F32.compare_isNaN (y := t[(l + u) / 2]) (.inl nan)
      obtain ⟨notAbove, -, -⟩ := F32.compare_isNaN (x := t[(l + u) / 2]) (.inr nan)
      simpa [readTable_of_lt hm, noHit, notAbove] using ih hm
    · rfl

/-- A NaN passes both clamps and comes out of the search at index 0 (41_quantizer.md R120). -/
theorem quantizeFloor_of_isNaN {x : F32} {t : List F32} (nan : x.isNaN = true) (ne : 0 < t.length) :
    quantizeFloor x t = .ok 0 := by
  have last : t.length - 1 < t.length := by omega
  obtain ⟨-, notBelow, -⟩ := F32.compare_isNaN (y := t[0]) (.inl nan)
  obtain ⟨-, notAbove, -⟩ := F32.compare_isNaN (x := t[t.length - 1]) (.inr nan)
  simpa [quantizeFloor, readTable_of_lt ne, readTable_of_lt last, notBelow, notAbove] using quantizeLoop_of_isNaN nan last

/-- Either table of a well-formed configuration is strict and has `N` entries (00_scope.md R7). -/
theorem strictTable_table_of_wf {s : State} (wf : s.cfg.wf = true) (tables : s.tablesGenerated) (T : Table) :
    strictTable (s.table T) ∧ (s.table T).length = s.cfg.n ∧ 1 ≤ s.cfg.n := by
  obtain ⟨ft, vt, size⟩ := strictTables_of_wf wf tables
  obtain ⟨ftLength, vtLength⟩ := tables_length tables
  cases T
  · exact ⟨ft, ftLength, size⟩
  · exact ⟨vt, vtLength, size⟩

/-- Settles O13: a NaN ends at index 0; any other number at its floor index, which both clamps and the inner interval determine. -/
theorem quantizeFloorResult : Obligations.QuantizeFloorResult := by
  intro s x T wf tables
  obtain ⟨strict, length, size⟩ := strictTable_table_of_wf wf tables T
  have ne : 0 < (s.table T).length := by omega
  cases nan : x.isNaN with
  | true =>
    exact ⟨0, exec_quantizeFloor_of_ok (quantizeFloor_of_isNaN nan ne), Nat.zero_le _, fun _ => rfl, nofun⟩
  | false =>
    obtain ⟨i, search, floor⟩ := quantizeFloor_isFloorIndex strict ne nan
    have inside := floor.1
    rw [← length]
    refine ⟨i, exec_quantizeFloor_of_ok search, by omega, nofun, fun _ => ⟨?first, ?last, ?between⟩⟩
    case first =>
      intro lo hlo below
      obtain ⟨_, rfl⟩ := List.getElem?_eq_some_iff.mp hlo
      exact floor.unique (isFloorIndex_first strict ne below)
    case last =>
      intro hi hhi above
      obtain ⟨last, rfl⟩ := List.getElem?_eq_some_iff.mp hhi
      exact floor.unique (isFloorIndex_of_le strict last above fun _ => by omega)
    case between =>
      intro lo hi hlo hhi above below
      obtain ⟨_, rfl⟩ := List.getElem?_eq_some_iff.mp hlo
      obtain ⟨_, rfl⟩ := List.getElem?_eq_some_iff.mp hhi
      exact floor.eq_iff_between strict ne above below

end Sys2Proof.Machine
end

section
/-!
PROOFS. The ScaleCorrector (42_scale_corrector.md R140 to R143): its answer is the nearest permitted position at or below the
index, and each of the three statements is read off that one fact.
-/

namespace Sys2Proof.Machine

/-! ### The permitted positions -/

/-- A table index asks for the bit of its own degree (42_scale_corrector.md R141). -/
theorem permits_natCast (mask : Degrees) (p : ℕ) : permits mask p = mask.getLsbD (p % 12) :=
  congrArg mask.getLsbD (by omega)

/-- The empty mask permits no position (42_scale_corrector.md R140). -/
theorem permits_zero (p : ℤ) : permits 0x000 p = false := BitVec.getLsbD_zero

/-- The chromatic mask permits every position (42_scale_corrector.md R140). -/
theorem permits_allOnes (p : ℤ) : permits 0xFFF p = true := by
  have degree : (p % 12).toNat < 12 := by omega
  exact (BitVec.getLsbD_allOnes (v := 12)).trans (decide_eq_true degree)

/-- `d` is the least distance below position `p` at which the mask permits the degree (42_scale_corrector.md R142). -/
def IsNearestBelow (mask : Degrees) (p : ℤ) (d : ℕ) : Prop :=
  permits mask (p - d) = true ∧ ∀ e : ℕ, e < d → permits mask (p - e) = false

/-- Below a position that is not permitted, the nearest one is one step nearer to the position underneath. -/
theorem IsNearestBelow.pred {mask : Degrees} {p : ℤ} {d : ℕ} (near : IsNearestBelow mask p (d + 1)) :
    permits mask p = false ∧ IsNearestBelow mask (p - 1) d := by
  obtain ⟨hit, skipped⟩ := near
  have shift (e : ℕ) : p - 1 - e = p - (e + 1 : ℕ) := by omega
  refine ⟨by simpa using skipped 0 (Nat.succ_pos d), by rwa [shift], fun e he => ?_⟩
  rw [shift]
  exact skipped (e + 1) (Nat.succ_lt_succ he)

/-- The degrees repeat every 12 positions, so a mask that is not empty permits one at most 11 below (42_scale_corrector.md R142). -/
theorem exists_isNearestBelow {mask : Degrees} (ne : mask ≠ 0x000) (p : ℤ) : ∃ d ≤ 11, IsNearestBelow mask p d := by
  obtain ⟨i, inside, bit⟩ : ∃ i < 12, mask.getLsbD i = true := by
    by_contra! none
    exact ne (BitVec.eq_of_getLsbD_eq fun i hi => by simpa using none i hi)
  have hit : permits mask (p - ((p - i) % 12).toNat) = true := by
    have degree : ((p - ((p - i) % 12).toNat) % 12).toNat = i := by omega
    rwa [permits, degree]
  have found : ∃ d : ℕ, permits mask (p - d) = true := ⟨_, hit⟩
  refine ⟨Nat.find found, ?_, Nat.find_spec found, fun e he => ?_⟩
  · have := Nat.find_min' found hit
    omega
  · simpa using Nat.find_min found he

/-! ### What `CORRECT` answers -/

/-- The scan stops at the nearest permitted position, if it looks that far (42_scale_corrector.md R140). -/
theorem correctScan_of_isNearestBelow {mask : Degrees} {p : ℤ} {d k : ℕ} (near : IsNearestBelow mask p d) (reach : d < k) :
    correctScan mask k p = if (d : ℤ) ≤ p then .some (p - d).toNat else .noneBelow := by
  induction k generalizing p d with
  | zero => exact absurd reach (Nat.not_lt_zero d)
  | succ k ih =>
    cases d with
    | zero =>
      have here : permits mask p = true := by simpa using near.1
      simp [correctScan, here]
    | succ d =>
      obtain ⟨skipped, rest⟩ := near.pred
      have above : (d : ℤ) ≤ p - 1 ↔ ((d + 1 : ℕ) : ℤ) ≤ p := by omega
      have position : p - 1 - d = p - (d + 1 : ℕ) := by omega
      simp only [correctScan, skipped, Bool.false_eq_true, if_false, ih rest (Nat.lt_of_succ_lt_succ reach), above, position]

/-- With the empty mask the scan finds nothing (42_scale_corrector.md R140). -/
theorem correctScan_zero (k : ℕ) (p : ℤ) : correctScan 0x000 k p = .noneEmpty := by
  induction k generalizing p with
  | zero => rfl
  | succ k ih => rw [correctScan, permits_zero, if_neg Bool.false_ne_true, ih]

/-- A permitted degree and index 0 pass unchanged (42_scale_corrector.md R140). -/
theorem correct_of_passes {index : ℕ} {mask : Degrees} {n : ℕ} (passes : permits mask index = true ∨ index = 0) :
    correct index mask n = .some index :=
  if_pos (by simpa using passes)

/-- Above index 0 the correction is the scan, which itself stops at once on a permitted degree (42_scale_corrector.md R140). -/
theorem correct_of_pos {index : ℕ} {mask : Degrees} {n : ℕ} (pos : 0 < index) :
    correct index mask n = correctScan mask 13 index := by
  cases here : permits mask index with
  | true => simp [correct_of_passes (.inl here), correctScan, here]
  | false => simp [correct, here, pos.ne']

/-- Above index 0 the answer is the nearest permitted position, unless that is negative (42_scale_corrector.md R142). -/
theorem correct_of_isNearestBelow {index : ℕ} {mask : Degrees} {n d : ℕ} (pos : 0 < index) (octave : d ≤ 11)
    (near : IsNearestBelow mask index d) :
    correct index mask n = if d ≤ index then .some (index - d) else .noneBelow := by
  rw [correct_of_pos pos, correctScan_of_isNearestBelow near (by omega)]
  simp only [Nat.cast_le, Int.toNat_sub]

/-- Above index 0 the empty mask corrects to nothing (42_scale_corrector.md R140). -/
theorem correct_zero_of_pos {index n : ℕ} (pos : 0 < index) : correct index 0x000 n = .noneEmpty := by
  rw [correct_of_pos pos, correctScan_zero]

/-- A position the correction gives is the nearest permitted one within an octave, or index 0 unmoved (42_scale_corrector.md R141). -/
theorem exists_isNearestBelow_of_correct_eq_some {index : ℕ} {mask : Degrees} {n j : ℕ} (result : correct index mask n = .some j) :
    (j = 0 ∧ index = 0) ∨ ∃ d ≤ 11, IsNearestBelow mask index d ∧ j + d = index := by
  rcases Nat.eq_zero_or_pos index with rfl | pos
  · exact .inl ⟨Nat.le_zero.mp (correct_le 0 mask n j result), rfl⟩
  by_cases empty : mask = 0x000
  · rw [empty, correct_zero_of_pos pos] at result
    exact absurd result nofun
  obtain ⟨d, octave, near⟩ := exists_isNearestBelow empty index
  rw [correct_of_isNearestBelow pos octave near] at result
  split_ifs at result with above
  cases result
  exact .inr ⟨d, octave, near, Nat.sub_add_cancel above⟩

/-- The instruction yields the correction under the mask of the moment, and nothing else changes (42_scale_corrector.md R140). -/
theorem exec_correct_iff {s : State} {index : ℕ} {r : Correction} :
    exec (.correct index) s = .next { s with result := some (.cr r) } ↔ correct index s.mask s.cfg.n = r := by
  constructor
  · intro run
    have yielded : execCorrect index s = .next (s.yieldResult (.cr r)) := run
    simpa [State.yieldResult, execCorrect] using yielded
  · rintro rfl
    rfl

/-! ### The three statements -/

/-- Settles O16: the nearest permitted position at most 11 below exists unless the mask is empty, and the scan stops at it. -/
theorem correctClosedForm : Obligations.CorrectClosedForm := by
  intro s index
  refine ⟨fun pos ne => ?nearest, fun pos empty => ?empty, fun zero => ?zero⟩
  case nearest =>
    obtain ⟨d, octave, near⟩ := exists_isNearestBelow ne index
    exact ⟨d, octave, near.1, near.2, exec_correct_iff.mpr (correct_of_isNearestBelow pos octave near)⟩
  case empty =>
    exact exec_correct_iff.mpr (by rw [empty, correct_zero_of_pos pos])
  case zero =>
    subst zero
    exact exec_correct_iff.mpr (correct_of_passes (.inr rfl))

/-- Settles O15: the result is index 0 unmoved, or the nearest permitted position, and every position in between was skipped. -/
theorem correctResult : Obligations.CorrectResult := by
  intro s index j inside run
  rcases exists_isNearestBelow_of_correct_eq_some (exec_correct_iff.mp run) with
    ⟨rfl, rfl⟩ | ⟨d, octave, ⟨hit, skipped⟩, rfl⟩
  · exact ⟨⟨le_rfl, le_rfl, inside⟩, by omega, .inr ⟨rfl, rfl⟩, by omega⟩
  · have degree : s.mask.getLsbD (j % 12) = true := by
      rwa [Nat.cast_add, add_sub_cancel_right, permits_natCast] at hit
    refine ⟨⟨Nat.zero_le j, Nat.le_add_right j d, by omega⟩, by omega, .inl degree, fun p above below => ?_⟩
    have position : ((j + d : ℕ) : ℤ) - (j + d - p : ℕ) = p := by omega
    have notHit := skipped (j + d - p) (by omega)
    rwa [position, permits_natCast] at notHit

/-- Settles O17: the first three properties are the passing and the empty cases, and the fourth is one scan of eight positions. -/
theorem correctTestableProperties : Obligations.CorrectTestableProperties := by
  intro s index _
  simp only [exec_correct_iff]
  refine ⟨fun full => ?chromatic, fun passes => ?passing, fun empty pos => ?empty, fun only seven => ?onlyDegreeZero⟩
  case chromatic => exact correct_of_passes (.inl (by rw [full, permits_allOnes]))
  case passing => exact correct_of_passes (by rwa [permits_natCast])
  case empty => rw [empty, correct_zero_of_pos pos]
  case onlyDegreeZero =>
    rw [only, seven]
    rfl

end Sys2Proof.Machine
end

section
/-!
PROOFS. More of one rounding (00_scope.md R12): a rounding does not pass a finite value, is never a NaN, and keeps the sign it is
given; an exact zero rounds to a zero.
-/

namespace Sys2Proof

/-! ### A rounding between finite values -/

section
variable {q : ℝ} {x y : F32} (h : Rounds q x) (hx : x.isFinite = true) (hy : y.isFinite = true)
include h hx hy

/-- A rounding does not go above a finite value that is not below the number. -/
theorem Rounds.value_le (le : q ≤ y.value) : x.value ≤ y.value := by
  have near := ((h.1 (h.isFinite_iff.mp hx)).2 y hy).1
  rw [abs_of_nonneg (sub_nonneg.mpr le)] at near
  linarith [le_abs_self (x.value - q)]

/-- A rounding does not go below a finite value that is not above the number. -/
theorem Rounds.le_value (le : y.value ≤ q) : y.value ≤ x.value := by
  have near := ((h.1 (h.isFinite_iff.mp hx)).2 y hy).1
  rw [abs_of_nonpos (sub_nonpos.mpr le)] at near
  linarith [neg_abs_le (x.value - q)]

end

/-- The rounding of a number that is not negative is not negative. -/
theorem Rounds.value_nonneg {q : ℝ} {x : F32} (h : Rounds q x) (hx : x.isFinite = true) (nonneg : 0 ≤ q) : 0 ≤ x.value :=
  F32.value_zero ▸ h.le_value hx (y := F32.zero) rfl (F32.value_zero ▸ nonneg)

/-- The rounding of a number of magnitude at most an integer of 24 bits is finite, and of magnitude at most that integer. -/
theorem Rounds.abs_value_le {q : ℝ} {x : F32} (h : Rounds q x) {k : ℕ} (hk : k ≤ 2 ^ 24) (le : |q| ≤ k) :
    x.isFinite = true ∧ |x.value| ≤ k := by
  have bound := F32.value_ofNat hk
  have finite := F32.isFinite_ofNat hk
  have opposite : (F32.ofNat k).negate.value = -k := by rw [F32.value_negate finite, bound]
  have hx : x.isFinite = true := h.isFinite_iff.mpr (le.trans_lt (by simpa [bound] using F32.abs_value_lt finite))
  obtain ⟨low, high⟩ := abs_le.mp le
  refine ⟨hx, abs_le.mpr ⟨?_, ?_⟩⟩
  · exact opposite ▸ h.le_value hx (by rwa [F32.isFinite_negate]) (opposite.le.trans low)
  · exact bound ▸ h.value_le hx finite (high.trans bound.ge)

/-- A rounding is never a NaN. -/
theorem Rounds.isNaN_eq_false {q : ℝ} {x : F32} (h : Rounds q x) : x.isNaN = false := by
  rcases lt_or_ge |q| (2 ^ 128 - 2 ^ 103) with small | large
  · exact F32.isNaN_of_isFinite (h.1 small).1
  · rcases le_abs.mp large with above | below
    · rw [h.2.1 above]
      rfl
    · rw [h.2.2 (by linarith)]
      rfl

/-- The rounding of a number that is not negative is finite or `+infinity`. -/
theorem Rounds.eq_inf_of_nonneg {q : ℝ} {x : F32} (h : Rounds q x) (nonneg : 0 ≤ q) (infinite : x.isFinite = false) :
    x = .inf false := by
  refine h.2.1 (not_lt.mp fun small => ?_)
  rw [h.isFinite_iff.mpr ((abs_of_nonneg nonneg).trans_lt small)] at infinite
  cases infinite

/-! ### Signs and zeros -/

theorem F32.isNeg_ofFields (neg : Bool) (r : ℕ) : (F32.ofFields neg r).isNeg = neg := by
  unfold F32.ofFields
  split_ifs <;> rfl

theorem isNeg_rneSigned (neg : Bool) (n : ℕ) {d : ℕ} (hd : 0 < d) : (rneSigned neg n d).isNeg = neg := by
  rw [rneSigned, if_neg hd.ne', F32.isNeg_ofFields]

theorem F32.isNeg_ofNat (k : ℕ) : (F32.ofNat k).isNeg = false := by
  rw [F32.ofNat, rne32, isNeg_rneSigned _ _ Nat.one_pos]
  simp

theorem F32.positive.isNeg_eq_false {x : F32} (hx : x.positive) : x.isNeg = false := by
  obtain ⟨r, rfl, -⟩ := hx.exists_fields
  exact F32.isNeg_ofFields _ _

/-- An infinity over a finite number keeps the product of the signs (00_scope.md R12). -/
theorem F32.inf_div (neg : Bool) {y : F32} (hy : y.isFinite = true) : (F32.inf neg).div y = .inf (neg != y.isNeg) := by
  obtain ⟨s, e, f, rfl⟩ := F32.exists_eq_fin hy
  simp only [F32.div]

/-- An exact zero rounds to the zero of the sign it is given. -/
theorem rneSigned_zero (neg : Bool) {d : ℕ} (hd : 0 < d) : rneSigned neg 0 d = .fin neg 0 0 := by
  have fields : roundMagnitude 0 d = 0 := by simp [roundMagnitude, roundingExponent, roundEven]
  rw [rneSigned, if_neg hd.ne', fields, F32.ofFields_of_lt neg (by norm_num)]
  rfl

/-- Equal numbers differ by `+0.0`, unless the first is a zero with the sign `-`. -/
theorem F32.sub_of_value_eq {x y : F32} (hx : x.isFinite = true) (hy : y.isFinite = true) (same : x.value = y.value)
    (sign : x.isNeg = false) : x.sub y = F32.zero := by
  have cancel : x.scaled + y.negate.scaled = 0 := by rw [F32.scaled_negate hy, F32.value_eq_value.mp same, add_neg_cancel]
  rw [F32.sub, F32.add_of_isFinite hx (by rwa [F32.isFinite_negate]), finiteAdd, if_pos cancel, sign]
  rfl

end Sys2Proof
end

section
/-!
PROOFS. The mean of a whole buffer and the samples less the mean (43_spectral_estimator.md R160, R161): both stay within the range
of the codes, whose integers binary32 holds exactly.
-/

namespace Sys2Proof.Machine

theorem rangesMet_of_wf {cfg : Cfg} (wf : cfg.wf = true) : cfg.rangesMet :=
  (cfg.failure_eq_none_iff_met.mp (Option.isNone_iff_eq_none.mp wf)).1

theorem nsamp_pos {cfg : Cfg} (ranges : cfg.rangesMet) : 0 < cfg.nsamp := by
  obtain ⟨-, -, -, -, ⟨-, two, -⟩, -⟩ := ranges
  omega

/-- The greatest code of `SAMPLE_BITS` bits (20_memory.md R62). -/
def maxCode (cfg : Cfg) : ℕ := 2 ^ cfg.sampleBits - 1

theorem cast_maxCode (cfg : Cfg) : (maxCode cfg : ℝ) = 2 ^ cfg.sampleBits - 1 := by
  rw [maxCode, Nat.cast_pred (by positivity), Nat.cast_pow, Nat.cast_ofNat]

/-- A code has at most 16 bits, so binary32 holds it exactly (00_scope.md R6, R12). -/
theorem maxCode_le {cfg : Cfg} (ranges : cfg.rangesMet) : maxCode cfg ≤ 2 ^ 24 := by
  obtain ⟨-, -, -, -, -, -, bits, -⟩ := ranges
  rcases bits with bits | bits <;> norm_num [maxCode, bits]

theorem le_maxCode {cfg : Cfg} {codes : List ℕ} (whole : wholeBuffer cfg codes) {d : ℕ} (hd : d ∈ codes) : d ≤ maxCode cfg :=
  Nat.le_pred_of_lt (by simpa using List.all_eq_true.mp whole.2 d hd)

/-! ### The mean -/

theorem rounds_meanOf {n : ℕ} (hn : 0 < n) (codes : List ℕ) : Rounds ((codes.sum : ℝ) / n) (meanOf n codes) := by
  have rounded := rounds_rne32 ((codes.sum : ℕ) : ℤ) hn
  rwa [Int.cast_natCast] at rounded

/-- The mean of zeros is `+0.0` (43_spectral_estimator.md R160). -/
theorem meanOf_of_sum_eq_zero {n : ℕ} (hn : 0 < n) {codes : List ℕ} (zero : codes.sum = 0) : meanOf n codes = F32.zero := by
  rw [meanOf, zero]
  exact rneSigned_zero false hn

section
variable {cfg : Cfg} (ranges : cfg.rangesMet) {codes : List ℕ} (whole : wholeBuffer cfg codes)
include ranges whole

/-- The exact mean lies within the range of the codes. -/
theorem exactMean_le : (codes.sum : ℝ) / cfg.nsamp ≤ maxCode cfg := by
  have pos := nsamp_pos ranges
  have sum : codes.sum ≤ cfg.nsamp * maxCode cfg := by
    simpa [whole.1] using List.sum_le_card_nsmul codes (maxCode cfg) fun _ => le_maxCode whole
  rw [div_le_iff₀ (by positivity), mul_comm]
  exact_mod_cast sum

/-- The mean is finite and within the range of the codes (43_spectral_estimator.md R160). -/
theorem meanOf_bounds : (meanOf cfg.nsamp codes).isFinite = true ∧ 0 ≤ (meanOf cfg.nsamp codes).value ∧
    (meanOf cfg.nsamp codes).value ≤ maxCode cfg := by
  have rounded := rounds_meanOf (nsamp_pos ranges) codes
  have nonneg : 0 ≤ (codes.sum : ℝ) / cfg.nsamp := by positivity
  obtain ⟨finite, bound⟩ := rounded.abs_value_le (maxCode_le ranges) ((abs_of_nonneg nonneg).trans_le (exactMean_le ranges whole))
  exact ⟨finite, rounded.value_nonneg finite nonneg, (le_abs_self _).trans bound⟩

/-- The mean of a constant buffer is its code (43_spectral_estimator.md R160). -/
theorem value_meanOf_of_const {v : ℕ} (const : ∀ d ∈ codes, d = v) : (meanOf cfg.nsamp codes).value = v := by
  have pos := nsamp_pos ranges
  have rounded := rounds_meanOf pos codes
  have exact : (codes.sum : ℝ) / cfg.nsamp = v := by
    rw [List.eq_replicate_of_mem const, List.sum_replicate, whole.1, smul_eq_mul, Nat.cast_mul]
    exact mul_div_cancel_left₀ _ (by positivity)
  have code : v ≤ 2 ^ 24 := by
    obtain ⟨d, hd⟩ := List.exists_mem_of_length_pos (whole.1 ▸ pos)
    exact const d hd ▸ (le_maxCode whole hd).trans (maxCode_le ranges)
  rw [exact, ← F32.value_ofNat code] at rounded
  rw [rounded.value_eq (F32.isFinite_ofNat code), F32.value_ofNat code]

end

/-! ### The filtered samples -/

@[simp] theorem length_dcFilter (n : ℕ) (codes : List ℕ) : (dcFilter n codes).length = codes.length := by
  simp [dcFilter]

/-- A filtered sample is the code less the mean (43_spectral_estimator.md R161). -/
theorem getElem_dcFilter (n : ℕ) (codes : List ℕ) (i : ℕ) (h : i < (dcFilter n codes).length) :
    (dcFilter n codes)[i] = (F32.ofNat (codes[i]'(by simpa using h))).sub (meanOf n codes) := by
  simp [dcFilter]

section
variable {cfg : Cfg} (ranges : cfg.rangesMet) {codes : List ℕ} (whole : wholeBuffer cfg codes)
include ranges whole

/-- A filtered sample is one rounding, finite and of magnitude at most the greatest code (43_spectral_estimator.md R161). -/
theorem rounds_filteredSample {d : ℕ} (hd : d ∈ codes) :
    Rounds ((d : ℝ) - (meanOf cfg.nsamp codes).value) ((F32.ofNat d).sub (meanOf cfg.nsamp codes)) ∧
      ((F32.ofNat d).sub (meanOf cfg.nsamp codes)).isFinite = true ∧
      |((F32.ofNat d).sub (meanOf cfg.nsamp codes)).value| ≤ maxCode cfg := by
  obtain ⟨finite, nonneg, bound⟩ := meanOf_bounds ranges whole
  have code : d ≤ 2 ^ 24 := (le_maxCode whole hd).trans (maxCode_le ranges)
  have codeBound : (d : ℝ) ≤ maxCode cfg := by exact_mod_cast le_maxCode whole hd
  have rounded := rounds_sub (F32.isFinite_ofNat code) finite
  rw [F32.value_ofNat code] at rounded
  have codeNonneg : (0 : ℝ) ≤ d := d.cast_nonneg
  exact ⟨rounded, rounded.abs_value_le (maxCode_le ranges) (abs_le.mpr ⟨by linarith, by linarith⟩)⟩

/-- A constant buffer filters to `+0.0` throughout (43_spectral_estimator.md R161). -/
theorem eq_zero_of_mem_dcFilter {v : ℕ} (const : ∀ d ∈ codes, d = v) : ∀ y ∈ dcFilter cfg.nsamp codes, y = F32.zero := by
  intro y hy
  obtain ⟨d, hd, rfl⟩ := List.mem_map.mp hy
  have code : d ≤ 2 ^ 24 := (le_maxCode whole hd).trans (maxCode_le ranges)
  refine F32.sub_of_value_eq (F32.isFinite_ofNat code) (meanOf_bounds ranges whole).1 ?_ (F32.isNeg_ofNat d)
  rw [F32.value_ofNat code, value_meanOf_of_const ranges whole const, const d hd]

end

/-! ### The two operations -/

section
variable {s : State} {codes : List ℕ} (buf : s.buf = some codes) (length : codes.length = s.cfg.nsamp)
include buf length

theorem exec_mean_of_buf : exec .mean s = .next { s with result := some (.mean (meanOf s.cfg.nsamp codes)) } :=
  orFault_eq_next.mpr ⟨codes, readBuffer_eq_ok.mpr ⟨buf, length⟩, rfl⟩

theorem exec_dcFilter_of_buf : exec .dcFilter s = .next { s with result := some (.samples (dcFilter s.cfg.nsamp codes)) } :=
  orFault_eq_next.mpr ⟨codes, readBuffer_eq_ok.mpr ⟨buf, length⟩, rfl⟩

end

/-- Settles O18: the exact mean lies between two codes, and binary32 holds every code exactly. -/
theorem meanRoundsOnce : Obligations.MeanRoundsOnce := by
  intro s codes wf buf whole
  have ranges := rangesMet_of_wf wf
  obtain ⟨finite, nonneg, bound⟩ := meanOf_bounds ranges whole
  exact ⟨_, exec_mean_of_buf buf whole.1, rounds_meanOf (nsamp_pos ranges) codes, finite, nonneg,
    cast_maxCode s.cfg ▸ bound, fun v => value_meanOf_of_const ranges whole,
    fun zeros => meanOf_of_sum_eq_zero (nsamp_pos ranges) (List.sum_eq_zero zeros)⟩

/-- Settles O19: a code and the mean lie in one range, so their difference rounds within it; on a constant buffer they are equal. -/
theorem dcFilterSubtractsMean : Obligations.DcFilterSubtractsMean := by
  intro s codes wf buf whole
  have ranges := rangesMet_of_wf wf
  refine ⟨_, _, exec_mean_of_buf buf whole.1, exec_dcFilter_of_buf buf whole.1, by rw [length_dcFilter, whole.1], ?_,
    fun v => eq_zero_of_mem_dcFilter ranges whole⟩
  intro i d y hd hy
  obtain ⟨_, rfl⟩ := List.getElem?_eq_some_iff.mp hd
  obtain ⟨_, rfl⟩ := List.getElem?_eq_some_iff.mp hy
  rw [getElem_dcFilter, ← cast_maxCode]
  exact rounds_filteredSample ranges whole (List.getElem_mem _)

end Sys2Proof.Machine
end

section
/-!
PROOFS. The exact DFT (43_spectral_estimator.md R163): a bin is a polynomial in a power of a root of unity, whose values the model
keeps as integers with their angles.
-/

namespace Sys2Proof.Machine

/-! ### Sums over a list with its indices -/

theorem sum_map_zipIdx {α M : Type*} [AddCommMonoid M] (f : α × ℕ → M) (l : List α) :
    (l.zipIdx.map f).sum = ∑ i : Fin l.length, f (l[i], i) := by
  rw [← List.sum_ofFn]
  exact congrArg List.sum (List.ext_getElem (by simp) (by simp))

theorem sum_map_zipIdx_range {α M : Type*} [AddCommMonoid M] (f : α × ℕ → M) (g : ℕ → α) (n : ℕ) :
    ((((List.range n).map g).zipIdx).map f).sum = ∑ i : Fin n, f (g i, i) := by
  rw [← List.sum_ofFn]
  exact congrArg List.sum (List.ext_getElem (by simp) (by simp))

/-! ### The turns of a bin -/

/-- The turn of bin `k` from one sample to the next, `exp(-2 pi sqrt(-1) k / n)` (43_spectral_estimator.md R163). -/
noncomputable def binTurn (n k : ℕ) : ℂ := (rootOfUnity n)⁻¹ ^ k

theorem exp_neg_eq_inv_pow (n m : ℕ) :
    Complex.exp (-(2 * Real.pi * Complex.I * m) / n) = (rootOfUnity n)⁻¹ ^ m := by
  rw [rootOfUnity, ← Complex.exp_neg, ← Complex.exp_nat_mul]
  congr 1
  ring

theorem inv_rootOfUnity_primitive {n : ℕ} (hn : 0 < n) : IsPrimitiveRoot (rootOfUnity n)⁻¹ n :=
  (rootOfUnity_primitive n hn).inv

/-- The angles come back after a whole turn. -/
theorem binTurn_pow {n : ℕ} (hn : 0 < n) (i k : ℕ) : binTurn n k ^ i = (rootOfUnity n)⁻¹ ^ (i * k % n) := by
  rw [binTurn, ← pow_mul, mul_comm, pow_eq_pow_mod _ (inv_rootOfUnity_primitive hn).pow_eq_one]

theorem binTurn_pow_order {n : ℕ} (hn : 0 < n) (k : ℕ) : binTurn n k ^ n = 1 := by
  rw [binTurn_pow hn, Nat.mul_mod_right, pow_zero]

/-- The real part of a turn is the cosine of its angle. -/
theorem re_binTurn_pow {n : ℕ} (hn : 0 < n) (i k : ℕ) : (binTurn n k ^ i).re = Real.cos (2 * Real.pi * (i * k % n : ℕ) / n) := by
  have angle : -(2 * Real.pi * Complex.I * (i * k % n : ℕ)) / n = ((-(2 * Real.pi * (i * k % n : ℕ) / n) : ℝ) : ℂ) * Complex.I := by
    push_cast
    ring
  rw [binTurn_pow hn, ← exp_neg_eq_inv_pow, angle, Complex.exp_ofReal_mul_I_re, Real.cos_neg]

/-- A bin is the polynomial of the samples at its turn (43_spectral_estimator.md R163). -/
theorem dftValue_eq (x : List F32) (k : ℕ) :
    dftValue x k = ∑ i : Fin x.length, (x[i].value : ℂ) * binTurn x.length k ^ (i : ℕ) := by
  refine Finset.sum_congr rfl fun i _ => ?_
  rw [binTurn, ← pow_mul, ← exp_neg_eq_inv_pow, Nat.cast_mul]
  congr 3
  ring

/-- The bin the model keeps stands for the exact sum (43_spectral_estimator.md R163). -/
theorem value_dft {x : List F32} (hx : 0 < x.length) {k : ℕ} (hk : k ≤ x.length / 2) : (dft x).value k = dftValue x k := by
  have bin : (dft x).bins.getD k [] = dftBin x k := by
    simp [dft, List.getD, List.getElem?_range (Nat.lt_succ_of_le hk)]
  rw [Spectrum.value, bin, dftBin, List.map_map, sum_map_zipIdx, dftValue_eq, Finset.sum_div]
  refine Finset.sum_congr rfl fun i _ => ?_
  rw [binTurn_pow hx, ← exp_neg_eq_inv_pow, F32.value, Complex.ofReal_div]
  simp only [Function.comp, dft]
  push_cast
  ring

/-- Settles O20: bin by bin, the angles taken modulo the block's length. -/
theorem dftIsExact : Obligations.DftIsExact := by
  intro s x wf
  obtain ⟨length, -⟩ := Bool.and_eq_true_iff.mp (show sampleBlock x = true from wf)
  obtain ⟨-, two, -⟩ := (blockLength_iff _).mp length
  exact ⟨dft x, rfl, by simp [dft], fun k hk => value_dft (by omega) hk⟩

end Sys2Proof.Machine
end

section
/-!
PROOFS. The powers of the bins (43_spectral_estimator.md R163): the reference, which is the squared magnitude written with the
block's circular autocorrelation, and a declared one.
-/

namespace Sys2Proof.Machine

/-! ### The circular autocorrelation -/

theorem dot_eq_sum {n : ℕ} {a b : List ℤ} (ha : a.length = n) (hb : b.length = n) :
    dot a b = ∑ i : Fin n, a[i] * b[i] := by
  have zip : dot a b = (List.zipWith (· * ·) a b).sum := by
    clear ha hb
    induction a generalizing b with
    | nil => cases b <;> rfl
    | cons u as ih => cases b with
      | nil => rfl
      | cons w bs => simp [dot, ih]
  rw [zip, ← List.sum_ofFn]
  exact congrArg List.sum (List.ext_getElem (by simp [ha, hb]) (by simp))

/-- At lag `d` each entry meets the one `d` places on, around the block. -/
theorem autocorrelation_eq_sum {n : ℕ} {x : List ℤ} (hx : x.length = n) (d : Fin n) :
    autocorrelation x d = ∑ i : Fin n, x[i] * x[(i + d : Fin n)] := by
  rw [autocorrelation, ← List.rotate_eq_drop_append_take (hx ▸ d.isLt.le), dot_eq_sum hx (by simpa using hx)]
  exact Finset.sum_congr rfl fun i _ => by simp [List.getElem_rotate, Fin.val_add, hx]

/-- A sum around a circle does not depend on where it starts. -/
theorem sum_shift {n : ℕ} [NeZero n] {M : Type*} [AddCommMonoid M] (f : Fin n → M) (i : Fin n) : ∑ d, f (i + d) = ∑ d, f d :=
  Equiv.sum_comp (Equiv.addLeft i) f

/-- A turn of order `n` is multiplicative around the circle. -/
theorem pow_val_add {n : ℕ} {z : ℂ} (hz : z ^ n = 1) (i d : Fin n) : z ^ (i + d).val = z ^ i.val * z ^ d.val := by
  rw [Fin.val_add, ← pow_eq_pow_mod _ hz, pow_add]

/-- The squared magnitude of a polynomial at a root of unity is the cosine sum of its coefficients' circular autocorrelation. -/
theorem normSq_sum_pow {n : ℕ} [NeZero n] (f : Fin n → ℝ) {z : ℂ} (hz : z ^ n = 1) :
    Complex.normSq (∑ i, (f i : ℂ) * z ^ i.val) = ∑ d, (∑ i, f i * f (i + d)) * (z ^ d.val).re := by
  have unit (i : Fin n) : (starRingEnd ℂ) (z ^ i.val) * z ^ i.val = 1 := by
    rw [← Complex.normSq_eq_conj_mul_self, map_pow, Complex.normSq_eq_norm_sq,
      Complex.norm_eq_one_of_pow_eq_one hz (NeZero.ne n)]
    simp
  have square : (Complex.normSq (∑ i, (f i : ℂ) * z ^ i.val) : ℂ) = ∑ d, ((∑ i, f i * f (i + d) : ℝ) : ℂ) * z ^ d.val := by
    calc (Complex.normSq (∑ i, (f i : ℂ) * z ^ i.val) : ℂ)
        = ∑ i, ∑ j, (f i : ℂ) * (starRingEnd ℂ) (z ^ i.val) * (f j * z ^ j.val) := by
          rw [Complex.normSq_eq_conj_mul_self, map_sum, Finset.sum_mul_sum]
          simp only [map_mul, Complex.conj_ofReal]
      _ = ∑ i, ∑ d, (f i : ℂ) * (starRingEnd ℂ) (z ^ i.val) * (f (i + d) * z ^ (i + d).val) :=
          Finset.sum_congr rfl fun i _ => (sum_shift _ i).symm
      _ = ∑ i, ∑ d, (f i * f (i + d) : ℂ) * z ^ d.val := by
          refine Finset.sum_congr rfl fun i _ => Finset.sum_congr rfl fun d _ => ?_
          rw [pow_val_add hz]
          linear_combination (f i * f (i + d) * z ^ d.val : ℂ) * unit i
      _ = ∑ d, ((∑ i, f i * f (i + d) : ℝ) : ℂ) * z ^ d.val := by
          rw [Finset.sum_comm]
          simp only [Complex.ofReal_sum, Complex.ofReal_mul, Finset.sum_mul]
  have real := congrArg Complex.re square
  rwa [Complex.ofReal_re, Complex.re_sum, Finset.sum_congr rfl fun _ _ => Complex.re_ofReal_mul _ _] at real

/-! ### The reference -/

/-- The autocorrelation of a block, in its samples' real values. -/
theorem autocorrelation_scaled (x : List F32) (d : Fin x.length) :
    (autocorrelation (x.map F32.scaled) d : ℝ) / (F32.one * F32.one : ℕ) =
      ∑ i : Fin x.length, x[i].value * x[(i + d : Fin x.length)].value := by
  rw [autocorrelation_eq_sum (List.length_map _), Nat.cast_mul, F32.cast_one, Int.cast_sum, Finset.sum_div]
  refine Finset.sum_congr rfl fun i _ => ?_
  simp only [Fin.getElem_fin, List.getElem_map, Int.cast_mul, F32.value, div_mul_div_comm]

@[simp] theorem length_referencePower (x : List F32) : (referencePower x).length = x.length / 2 := by
  simp [referencePower]

theorem getElem_referencePower (x : List F32) (k : ℕ) (h : k < (referencePower x).length) : (referencePower x)[k] =
    referenceBin x.length ((List.range x.length).map (autocorrelation (x.map F32.scaled))) k := by
  simp [referencePower]

theorem referencePower_wf {x : List F32} (hx : 0 < x.length) (k : ℕ) (h : k < (referencePower x).length) :
    (referencePower x)[k].wf = true := by
  rw [getElem_referencePower, Power.wf, Bool.and_eq_true, decide_eq_true_eq, decide_eq_true_eq]
  exact ⟨Nat.mul_pos F32.one_pos F32.one_pos, hx⟩

/-- The reference power of a bin is its squared magnitude (43_spectral_estimator.md R163). -/
theorem value_referencePower {x : List F32} (hx : 0 < x.length) (k : ℕ) (h : k < (referencePower x).length) :
    (referencePower x)[k].value = Complex.normSq (dftValue x k) := by
  have : NeZero x.length := ⟨hx.ne'⟩
  rw [getElem_referencePower, dftValue_eq, normSq_sum_pow _ (binTurn_pow_order hx k), Power.value, angleCos, referenceBin,
    List.map_map, sum_map_zipIdx_range, Finset.sum_div]
  refine Finset.sum_congr rfl fun d _ => ?_
  rw [← autocorrelation_scaled, re_binTurn_pow hx, div_mul_eq_mul_div]
  rfl

/-! ### A declared power -/

theorem getElem_binPower_declared (id : ℕ) (x : List F32) (k : ℕ) (h : k < (binPower (.declared id) x).length) :
    (binPower (.declared id) x)[k] = declaredBin id x k := by
  simp [binPower]

/-- A rational power is its numerator over its denominator (43_spectral_estimator.md R163). -/
theorem value_rational (a : ℤ) (d : ℕ) : Power.value ⟨d, 1, [(a, 0)]⟩ = a / d := by
  simp [Power.value]

theorem declaredBin_wf (id : ℕ) (x : List F32) (k : ℕ) : (declaredBin id x k).wf = true := by
  unfold declaredBin
  split_ifs
  · rfl
  · simp [Power.wf]

/-- A declared power is not negative, whatever the free value is (43_spectral_estimator.md R163, log entry 6). -/
theorem value_declaredBin_nonneg (id : ℕ) (x : List F32) (k : ℕ) : 0 ≤ (declaredBin id x k).value := by
  unfold declaredBin
  split_ifs
  · simp [value_rational]
  · rw [value_rational]
    positivity

/-- A block of zeros has no power (43_spectral_estimator.md R163). -/
theorem value_declaredBin_of_zero (id : ℕ) {x : List F32} (k : ℕ) (zero : ∀ y ∈ x, y.isZero = true) :
    (declaredBin id x k).value = 0 := by
  rw [declaredBin, if_pos (List.all_eq_true.mpr zero), value_rational, Int.cast_zero, zero_div]

/-! ### `BIN_POWER` -/

theorem length_binPower (f : FftPower) (x : List F32) : (binPower f x).length = x.length / 2 := by
  cases f
  case reference => exact length_referencePower x
  case declared => simp [binPower]

/-- Every power is a real number under every `FFT_POWER` (43_spectral_estimator.md R163). -/
theorem wf_of_mem_binPower (f : FftPower) {x : List F32} (hx : 0 < x.length) : ∀ p ∈ binPower f x, p.wf = true := by
  intro p hp
  obtain ⟨k, h, rfl⟩ := List.getElem_of_mem hp
  cases f with
  | reference => exact referencePower_wf hx k h
  | declared id => exact getElem_binPower_declared id x k h ▸ declaredBin_wf id x k

theorem value_binPower_of_reference {f : FftPower} (reference : f = .reference) {x : List F32} (hx : 0 < x.length) (k : ℕ)
    (h : k < (binPower f x).length) : (binPower f x)[k].value = Complex.normSq (dftValue x k) := by
  subst reference
  exact value_referencePower hx k h

theorem value_binPower_of_declared_of_zero {f : FftPower} {id : ℕ} (declared : f = .declared id) {x : List F32}
    (zero : ∀ y ∈ x, y.isZero = true) (k : ℕ) (h : k < (binPower f x).length) : (binPower f x)[k].value = 0 := by
  subst declared
  rw [getElem_binPower_declared, value_declaredBin_of_zero id k zero]

/-- Settles O21: the cosine sum of the autocorrelation is the squared magnitude of the polynomial. -/
theorem referencePowerIsSquaredMagnitude : Obligations.ReferencePowerIsSquaredMagnitude := by
  intro s x wf reference
  obtain ⟨length, -⟩ := Bool.and_eq_true_iff.mp (show sampleBlock x = true from wf)
  obtain ⟨-, two, -⟩ := (blockLength_iff _).mp length
  have block : 0 < x.length := by omega
  refine ⟨binPower s.cfg.fftPower x, rfl, length_binPower _ x, fun k h =>
    ⟨wf_of_mem_binPower _ block _ (List.getElem_mem h), ?_⟩⟩
  rw [value_binPower_of_reference reference block, Complex.normSq_apply, sq, sq]

/-- Settles O22: a declared bin is one of two rational powers, neither negative, and that of a zero block is 0. -/
theorem declaredPowerConforms : Obligations.DeclaredPowerConforms := by
  intro s x id wf declared
  obtain ⟨-, finite⟩ := Bool.and_eq_true_iff.mp (show sampleBlock x = true from wf)
  refine ⟨binPower (.declared id) x, by rw [← declared]; rfl, length_binPower _ x, fun k h => ?_⟩
  rw [getElem_binPower_declared]
  exact ⟨declaredBin_wf id x k, value_declaredBin_nonneg id x k, fun zero =>
    value_declaredBin_of_zero id k fun y hy => (F32.isZero_iff_value (List.all_eq_true.mp finite y hy)).mpr (zero y hy)⟩

end Sys2Proof.Machine
end

section
/-!
PROOFS. The peak and its frequency (43_spectral_estimator.md R164, R165): `PEAK_BIN` finds the first of the greatest powers, and
`BIN_TO_HZ` rounds a product and a quotient.
-/

namespace Sys2Proof.Machine

/-! ### The peak -/

/-- Among the first `n` powers the `k`-th is a greatest one, and the first such (43_spectral_estimator.md R164). -/
def IsFirstPeak (p : List Power) (n k : ℕ) : Prop :=
  k < n ∧ ∃ h : k < p.length, (∀ j (hj : j < p.length), j < n → p[j].value ≤ p[k].value) ∧
    ∀ j (hj : j < k), p[j].value < p[k].value

section
variable {p : List Power} {n k : ℕ}

theorem isFirstPeak_one (h : 0 < p.length) : IsFirstPeak p 1 0 := by
  refine ⟨Nat.one_pos, h, fun j _ hj => ?_, nofun⟩
  obtain rfl := Nat.lt_one_iff.mp hj
  exact le_rfl

/-- A power that is not greater leaves the peak (43_spectral_estimator.md R164). -/
theorem IsFirstPeak.keep (peak : IsFirstPeak p n k) (hk : k < p.length) (hn : n < p.length) (le : p[n].value ≤ p[k].value) :
    IsFirstPeak p (n + 1) k := by
  obtain ⟨kn, _, greatest, first⟩ := peak
  refine ⟨by omega, hk, fun j hj jn => ?_, first⟩
  rcases Nat.lt_succ_iff_lt_or_eq.mp jn with before | rfl
  · exact greatest j hj before
  · exact le

/-- A greater power is the new peak (43_spectral_estimator.md R164). -/
theorem IsFirstPeak.displace (peak : IsFirstPeak p n k) (hk : k < p.length) (hn : n < p.length)
    (lt : p[k].value < p[n].value) : IsFirstPeak p (n + 1) n := by
  obtain ⟨_, _, greatest, _⟩ := peak
  refine ⟨n.lt_succ_self, hn, fun j hj jn => ?_, fun j jn => (greatest j _ jn).trans_lt lt⟩
  rcases Nat.lt_succ_iff_lt_or_eq.mp jn with before | rfl
  · exact ((greatest j hj before).trans_lt lt).le
  · exact le_rfl

/-- Where no power exceeds the one of bin 0, that bin is the peak. -/
theorem IsFirstPeak.eq_zero (peak : IsFirstPeak p n k)
    (top : ∀ j (hj : j < p.length), p[j].value ≤ (p[0]'(Nat.zero_lt_of_lt hj)).value) : k = 0 := by
  obtain ⟨_, hk, _, first⟩ := peak
  by_contra later
  exact (first 0 (Nat.pos_of_ne_zero later)).not_ge (top k hk)

end

/-- The loop keeps the first peak of what it has read. -/
theorem peakLoop_isFirstPeak {p : List Power} (wf : ∀ q ∈ p, q.wf = true) {rest : List Power} {n best : ℕ}
    (unread : p.drop n = rest) (read : n ≤ p.length) (hb : best < p.length) (peak : IsFirstPeak p n best) :
    IsFirstPeak p p.length (peakLoop rest n best p[best]) := by
  induction rest generalizing n best with
  | nil =>
    obtain rfl : n = p.length := le_antisymm read (List.drop_eq_nil_iff.mp unread)
    exact peak
  | cons q rest ih =>
    have hn : n < p.length := List.length_lt_of_drop_ne_nil (unread ▸ List.cons_ne_nil q rest)
    obtain ⟨rfl, later⟩ := List.cons.inj ((List.drop_eq_getElem_cons hn).symm.trans unread)
    have greater := powerGt_iff p[n] p[best] (wf _ (List.getElem_mem hn)) (wf _ (List.getElem_mem hb))
    rw [peakLoop]
    split_ifs with gt
    · exact ih later hn hn (peak.displace hb hn (greater.mp gt))
    · exact ih later hn hb (peak.keep hb hn (not_lt.mp (greater.not.mp gt)))

/-- `PEAK_BIN` finds the first peak of the whole list (43_spectral_estimator.md R164). -/
theorem peakBin_isFirstPeak {p : List Power} (wf : ∀ q ∈ p, q.wf = true) (ne : 0 < p.length) :
    IsFirstPeak p p.length (peakBin p) := by
  cases p with
  | nil => exact absurd ne (Nat.lt_irrefl 0)
  | cons q rest => exact peakLoop_isFirstPeak wf rfl ne ne (isFirstPeak_one ne)

/-- Settles O23: the loop's invariant, `powerGt` being the order of the real numbers. -/
theorem peakIsFirstMaximum : Obligations.PeakIsFirstMaximum := by
  intro s p wf
  obtain ⟨size, powers⟩ := Bool.and_eq_true_iff.mp wf
  have ne : 1 ≤ p.length := of_decide_eq_true (Bool.and_eq_true_iff.mp size).1
  obtain ⟨_, h, greatest, first⟩ := peakBin_isFirstPeak (List.all_eq_true.mp powers) ne
  exact ⟨peakBin p, rfl, h, fun j hj => greatest j hj hj, first⟩

/-! ### The frequency of a bin -/

section
variable {cfg : Cfg} (ranges : cfg.rangesMet)
include ranges

/-- `NSAMP` is exact in binary32, and not zero (00_scope.md R6). -/
theorem ofNat_nsamp : (F32.ofNat cfg.nsamp).isFinite = true ∧ (F32.ofNat cfg.nsamp).value = cfg.nsamp ∧ (cfg.nsamp : ℝ) ≠ 0 := by
  obtain ⟨-, -, -, -, ⟨-, two, size⟩, -⟩ := ranges
  have exact : cfg.nsamp ≤ 2 ^ 24 := by omega
  exact ⟨F32.isFinite_ofNat exact, F32.value_ofNat exact, by positivity⟩

theorem sampleRate_positive : cfg.sampleRateHz.positive := by
  obtain ⟨-, -, -, -, -, rate, -⟩ := ranges
  exact rate

/-- The product of a bin index and the sample rate is rounded once (43_spectral_estimator.md R165). -/
theorem rounds_binProduct {k : ℕ} (hk : k ≤ 2 ^ 24) :
    Rounds ((k : ℝ) * cfg.sampleRateHz.value) ((F32.ofNat k).mul cfg.sampleRateHz) := by
  have rounded := rounds_mul (F32.isFinite_ofNat hk) (sampleRate_positive ranges).1
  rwa [F32.value_ofNat hk] at rounded

/-- The quotient by `NSAMP` is rounded once (43_spectral_estimator.md R165). -/
theorem rounds_binToHz {k : ℕ} (finite : ((F32.ofNat k).mul cfg.sampleRateHz).isFinite = true) :
    Rounds (((F32.ofNat k).mul cfg.sampleRateHz).value / cfg.nsamp) (binToHz cfg k) := by
  obtain ⟨divisor, exact, nonzero⟩ := ofNat_nsamp ranges
  have rounded := rounds_div finite divisor (exact ▸ nonzero)
  rwa [exact] at rounded

/-- An overflow of the product goes on as `+infinity` (43_spectral_estimator.md R165). -/
theorem binToHz_of_overflow {k : ℕ} (overflow : (F32.ofNat k).mul cfg.sampleRateHz = .inf false) :
    binToHz cfg k = .inf false := by
  rw [binToHz, overflow, F32.inf_div _ (ofNat_nsamp ranges).1, F32.isNeg_ofNat]
  rfl

/-- The frequency of a bin is never a NaN (43_spectral_estimator.md R165). -/
theorem isNaN_binToHz {k : ℕ} (hk : k ≤ 2 ^ 24) : (binToHz cfg k).isNaN = false := by
  have rounded := rounds_binProduct ranges hk
  cases finite : ((F32.ofNat k).mul cfg.sampleRateHz).isFinite with
  | true => exact (rounds_binToHz ranges finite).isNaN_eq_false
  | false =>
    have rate := (sampleRate_positive ranges).2
    rw [binToHz_of_overflow ranges (rounded.eq_inf_of_nonneg (by positivity) finite)]
    rfl

/-- Bin 0 is at `+0.0` Hz (43_spectral_estimator.md R165). -/
theorem binToHz_zero : binToHz cfg 0 = F32.zero := by
  obtain ⟨divisor, exact, nonzero⟩ := ofNat_nsamp ranges
  have rate := sampleRate_positive ranges
  have zero : F32.ofNat 0 = F32.zero := rneSigned_zero false Nat.one_pos
  have product : F32.zero.mul cfg.sampleRateHz = F32.zero := by
    rw [F32.mul_of_isFinite rfl rate.1, rate.isNeg_eq_false, show F32.zero.absScaled = 0 from rfl, Nat.zero_mul]
    exact rneSigned_zero false (Nat.mul_pos F32.one_pos F32.one_pos)
  have pos : 0 < (F32.ofNat cfg.nsamp).absScaled := Int.natAbs_pos.mpr fun z =>
    nonzero (exact ▸ F32.value_eq_zero.mpr z)
  rw [binToHz, zero, product, F32.div_of_isFinite rfl divisor, if_neg ((F32.isZero_iff_value divisor).not.mpr (exact ▸ nonzero)),
    F32.isNeg_ofNat]
  exact rneSigned_zero false pos

end

/-- Settles O24: the product rounds a number that is not negative, so it is finite or `+infinity`. -/
theorem binToHzRoundsTwice : Obligations.BinToHzRoundsTwice := by
  intro s k ranges hk
  have index : k ≤ 2 ^ 24 := by
    obtain ⟨-, -, -, -, ⟨-, -, size⟩, -⟩ := ranges
    omega
  exact ⟨_, binToHz s.cfg k, rounds_binProduct ranges index, rfl, isNaN_binToHz ranges index, rounds_binToHz ranges,
    binToHz_of_overflow ranges, fun zero => zero ▸ binToHz_zero ranges⟩

end Sys2Proof.Machine
end

section
/-!
PROOFS. The whole estimator (43_spectral_estimator.md R166, R167): the composition of the four operations, and its answer on
buffers without a pitch.
-/

namespace Sys2Proof.Machine

theorem exec_estimate_of_buf {s : State} {codes : List ℕ} (buf : s.buf = some codes) (length : codes.length = s.cfg.nsamp) :
    exec .estimate s = .next { s with result := some (.xv (estimate s.cfg codes)) } :=
  orFault_eq_next.mpr ⟨codes, readBuffer_eq_ok.mpr ⟨buf, length⟩, rfl⟩

/-- The powers the estimator searches (43_spectral_estimator.md R166). -/
abbrev estimatePowers (cfg : Cfg) (codes : List ℕ) : List Power := binPower cfg.fftPower (dcFilter cfg.nsamp codes)

section
variable {cfg : Cfg} (ranges : cfg.rangesMet) {codes : List ℕ} (length : codes.length = cfg.nsamp)
include ranges length

theorem length_estimatePowers : (estimatePowers cfg codes).length = cfg.nsamp / 2 ∧ 0 < cfg.nsamp / 2 := by
  obtain ⟨-, -, -, -, ⟨-, two, -⟩, -⟩ := ranges
  exact ⟨by rw [length_binPower, length_dcFilter, length], by omega⟩

/-- The bin the estimator finds is the first peak (43_spectral_estimator.md R164, R166). -/
theorem estimatePeak_isFirstPeak :
    IsFirstPeak (estimatePowers cfg codes) (estimatePowers cfg codes).length (peakBin (estimatePowers cfg codes)) := by
  obtain ⟨size, pos⟩ := length_estimatePowers ranges length
  have block : 0 < (dcFilter cfg.nsamp codes).length := by
    rw [length_dcFilter, length]
    exact nsamp_pos ranges
  exact peakBin_isFirstPeak (wf_of_mem_binPower _ block) (size ▸ pos)

/-- Where no power exceeds that of bin 0 the estimate is `+0.0` (43_spectral_estimator.md R167). -/
theorem estimate_eq_zero (top : ∀ j (hj : j < (estimatePowers cfg codes).length),
    (estimatePowers cfg codes)[j].value ≤ ((estimatePowers cfg codes)[0]'(Nat.zero_lt_of_lt hj)).value) :
    estimate cfg codes = F32.zero := by
  rw [estimate, (estimatePeak_isFirstPeak ranges length).eq_zero top, binToHz_zero ranges]

end

/-- Settles O25: the peak is a bin of the list, whose frequency is no NaN. -/
theorem estimateComposes : Obligations.EstimateComposes := by
  intro s codes wf buf whole
  have ranges := rangesMet_of_wf wf
  obtain ⟨size, -⟩ := length_estimatePowers ranges whole.1
  have inside := (estimatePeak_isFirstPeak ranges whole.1).1
  have index : peakBin (estimatePowers s.cfg codes) ≤ 2 ^ 24 := by
    obtain ⟨-, -, -, -, ⟨-, -, limit⟩, -⟩ := ranges
    omega
  exact ⟨_, _, _, _, exec_dcFilter_of_buf buf whole.1, rfl, rfl, rfl, exec_estimate_of_buf buf whole.1,
    isNaN_binToHz ranges index⟩

/-! ### Buffers without a pitch -/

/-- A sum with two alternating multiples is a geometric sum of every second power. -/
theorem sum_range_alternating (c : ℕ → ℂ) (z : ℂ) (h : ℕ) :
    ∑ i ∈ Finset.range (2 * h), c (i % 2) * z ^ i = (c 0 + c 1 * z) * ∑ j ∈ Finset.range h, (z ^ 2) ^ j := by
  induction h with
  | zero => simp
  | succ h ih =>
    have odd : (2 * h + 1) % 2 = 1 := by omega
    rw [Nat.mul_succ, Finset.sum_range_succ, Finset.sum_range_succ, ih, Finset.sum_range_succ, Nat.mul_mod_right, odd]
    ring

/-- The turn of a bin above 0 and below `n / 2`, made twice, is not a whole one. -/
theorem binTurn_sq_ne_one {n k : ℕ} (pos : 0 < k) (hk : 2 * k < n) : binTurn n k ^ 2 ≠ 1 := by
  rw [binTurn_pow (by omega), Nat.mod_eq_of_lt hk]
  exact (inv_rootOfUnity_primitive (by omega)).pow_ne_one_of_pos_of_lt (by omega) hk

/-- A block that alternates between two numbers has nothing in a bin above 0 and below `NSAMP/2` (43_spectral_estimator.md R167). -/
theorem dftValue_of_alternating {x : List F32} (even : x.length % 2 = 0) {c : ℕ → ℝ}
    (alternating : ∀ i (h : i < x.length), x[i].value = c (i % 2)) {k : ℕ} (pos : 0 < k) (hk : 2 * k < x.length) :
    dftValue x k = 0 := by
  obtain ⟨h, half⟩ : ∃ h, x.length = 2 * h := ⟨x.length / 2, by omega⟩
  have whole : (binTurn x.length k ^ 2) ^ h = 1 := by rw [← pow_mul, ← half, binTurn_pow_order (by omega)]
  have bin : dftValue x k = ∑ i ∈ Finset.range x.length, (c (i % 2) : ℂ) * binTurn x.length k ^ i := by
    rw [dftValue_eq, Finset.sum_range]
    exact Finset.sum_congr rfl fun i _ => by rw [← alternating i i.isLt]; rfl
  rw [bin, half, sum_range_alternating fun i => (c i : ℂ), ← half, geom_sum_eq (binTurn_sq_ne_one pos hk), whole, sub_self,
    zero_div, mul_zero]

section
variable {cfg : Cfg} (ranges : cfg.rangesMet) {codes : List ℕ}
include ranges

/-- Under the reference a buffer that alternates between two codes gives `+0.0` Hz (43_spectral_estimator.md R167). -/
theorem estimate_of_alternating (length : codes.length = cfg.nsamp) (reference : cfg.fftPower = .reference) {u w : ℕ}
    (alternating : ∀ i d : ℕ, codes[i]? = some d → d = if i % 2 = 0 then u else w) : estimate cfg codes = F32.zero := by
  have size : (dcFilter cfg.nsamp codes).length = cfg.nsamp := (length_dcFilter _ _).trans length
  have block : 0 < (dcFilter cfg.nsamp codes).length := (nsamp_pos ranges).trans_eq size.symm
  have even : (dcFilter cfg.nsamp codes).length % 2 = 0 := by
    obtain ⟨-, -, -, -, ⟨even, -⟩, -⟩ := ranges
    rwa [size]
  have samples (i : ℕ) (h : i < (dcFilter cfg.nsamp codes).length) : (dcFilter cfg.nsamp codes)[i].value =
      ((F32.ofNat (if i % 2 = 0 then u else w)).sub (meanOf cfg.nsamp codes)).value := by
    rw [getElem_dcFilter, ← alternating i _ (List.getElem?_eq_getElem _)]
  refine estimate_eq_zero ranges length fun k hk => ?_
  rcases Nat.eq_zero_or_pos k with rfl | pos
  · exact le_rfl
  have bin : 2 * k < (dcFilter cfg.nsamp codes).length := by
    rw [length_binPower] at hk
    omega
  rw [value_binPower_of_reference reference block, value_binPower_of_reference reference block,
    dftValue_of_alternating (c := fun r => ((F32.ofNat (if r = 0 then u else w)).sub (meanOf cfg.nsamp codes)).value)
      even samples pos bin, map_zero]
  exact Complex.normSq_nonneg _

/-- A constant buffer gives `+0.0` Hz: under the reference it alternates between one code, and a declared FFT finds no power in its
zero samples (43_spectral_estimator.md R167). -/
theorem estimate_of_const (whole : wholeBuffer cfg codes) {v : ℕ} (const : ∀ d ∈ codes, d = v) : estimate cfg codes = F32.zero := by
  cases power : cfg.fftPower with
  | reference =>
    refine estimate_of_alternating ranges whole.1 power (u := v) (w := v) fun i d hd => ?_
    rw [ite_self]
    exact const d (List.mem_of_getElem? hd)
  | declared id =>
    have zeros : ∀ y ∈ dcFilter cfg.nsamp codes, y.isZero = true := fun y hy =>
      eq_zero_of_mem_dcFilter ranges whole const y hy ▸ rfl
    refine estimate_eq_zero ranges whole.1 fun k hk => ?_
    rw [value_binPower_of_declared_of_zero power zeros, value_binPower_of_declared_of_zero power zeros]

end

/-- No entry of `FT` is below zero, so `+0.0` Hz quantizes to index 0 (41_quantizer.md R121, 43_spectral_estimator.md R167). -/
theorem quantizeFloor_zero_ft {s : State} (wf : s.cfg.wf = true) (tables : s.tablesGenerated) :
    quantizeFloor F32.zero s.ft = .ok 0 := by
  obtain ⟨strict, -, size⟩ := strictTables_of_wf wf tables
  have ne : 0 < s.ft.length := (tables_length tables).1 ▸ size
  have first : s.ft[0] = freqEntry s.cfg 0 := by simp [tables.1, freqTable]
  have finite := strict.1 _ (List.getElem_mem ne)
  have below : F32.zero.le s.ft[0] = true := by
    obtain ⟨-, ⟨-, root⟩, -⟩ := rangesMet_of_wf wf
    have floor : (0 : ℤ) ≤ ⌊s.cfg.rootFreq.value * (2 : ℝ) ^ (((0 : ℕ) : ℝ) / 12) * 1000 + 1 / 2⌋ := by positivity
    rw [F32.le_iff_value rfl finite, F32.value_zero, first]
    exact (rounds_freqEntry root 0).value_nonneg (first ▸ finite) (div_nonneg (by exact_mod_cast floor) (by norm_num))
  obtain ⟨i, search, index⟩ := quantizeFloor_isFloorIndex strict ne (x := F32.zero) rfl
  rw [search, index.unique (isFloorIndex_first strict ne below)]

/-- Settles O26: both kinds of buffer leave no power outside bin 0, and a tie is won by bin 0. -/
theorem degenerateBuffersGiveZeroHz : Obligations.DegenerateBuffersGiveZeroHz := by
  intro s codes wf tables buf whole
  have ranges := rangesMet_of_wf wf
  have run := exec_estimate_of_buf buf whole.1
  refine ⟨?constant, ?alternating, exec_quantizeFloor_of_ok (quantizeFloor_zero_ft wf tables)⟩
  case constant =>
    rintro ⟨v, const⟩
    rwa [estimate_of_const ranges whole const] at run
  case alternating =>
    rintro reference ⟨u, w, alternating⟩
    rwa [estimate_of_alternating ranges whole.1 reference alternating] at run

end Sys2Proof.Machine
end

section
/-!
PROOFS. The SampleAverager (44_sample_averager.md R180, R181): the quotient and the scale are roundings of numbers that are not
negative, so their product is one too, except that an infinite quotient times a zero scale is a NaN.
-/

namespace Sys2Proof

/-! ### Values that are not negative -/

/-- A finite value is determined by its sign and its number. -/
theorem F32.eq_of_value_eq {x y : F32} (hx : x.isFinite = true) (hy : y.isFinite = true) (sign : x.isNeg = y.isNeg)
    (same : x.value = y.value) : x = y := by
  obtain ⟨neg, j, hj, rfl⟩ := F32.exists_eq_ofFields hx
  obtain ⟨neg', k, hk, rfl⟩ := F32.exists_eq_ofFields hy
  rw [F32.isNeg_ofFields, F32.isNeg_ofFields] at sign
  subst sign
  have fields : F32.fieldsValue j = F32.fieldsValue k := by
    rw [F32.value_ofFields _ hj, F32.value_ofFields _ hk] at same
    cases neg
    · exact same
    · exact neg_injective same
  rw [F32.fieldsValue_strictMono.injective fields]

theorem F32.positive_ofNat {k : ℕ} (pos : 0 < k) (hk : k ≤ 2 ^ 24) : (F32.ofNat k).positive :=
  ⟨F32.isFinite_ofNat hk, by rw [F32.value_ofNat hk]; exact_mod_cast pos⟩

/-- By a positive value only the sign of the dividend counts (00_scope.md R12). -/
theorem F32.positive.div_eq {x y : F32} (hx : x.isFinite = true) (hy : y.positive) :
    x.div y = rneSigned x.isNeg x.absScaled y.absScaled ∧ 0 < y.absScaled := by
  have pos : 0 < y.absScaled := Int.natAbs_pos.mpr fun z => hy.2.ne' (F32.value_eq_zero.mpr z)
  rw [F32.div_of_isFinite hx hy.1, if_neg ((F32.isZero_iff_value hy.1).not.mpr hy.2.ne'), hy.isNeg_eq_false, Bool.bne_false]
  exact ⟨rfl, pos⟩

/-- A quotient by a positive value keeps the sign of the dividend, a zero's too (00_scope.md R12). -/
theorem F32.positive.isNeg_div {x y : F32} (hx : x.isFinite = true) (hy : y.positive) : (x.div y).isNeg = x.isNeg := by
  obtain ⟨quotient, pos⟩ := hy.div_eq hx
  rw [quotient, isNeg_rneSigned _ _ pos]

theorem F32.positive.zero_div {y : F32} (hy : y.positive) : F32.zero.div y = F32.zero := by
  obtain ⟨quotient, pos⟩ := hy.div_eq (x := F32.zero) rfl
  exact quotient.trans (rneSigned_zero false pos)

/-- Zero times a finite value keeps the sign of that value (00_scope.md R12). -/
theorem F32.zero_mul_of_isFinite {y : F32} (hy : y.isFinite = true) : F32.zero.mul y = .fin y.isNeg 0 0 := by
  rw [F32.mul_of_isFinite rfl hy, show F32.zero.absScaled = 0 from rfl, Nat.zero_mul,
    rneSigned_zero _ (Nat.mul_pos F32.one_pos F32.one_pos), show F32.zero.isNeg = false from rfl, Bool.false_bne]

/-- An infinity times a finite value is a NaN exactly where that value is a zero (00_scope.md R12). -/
theorem F32.inf_mul (neg : Bool) {y : F32} (hy : y.isFinite = true) :
    (F32.inf neg).mul y = if y.isZero then .nan else .inf (neg != y.isNeg) := by
  obtain ⟨s, e, f, rfl⟩ := F32.exists_eq_fin hy
  simp only [F32.mul]

theorem F32.zero_le_inf : F32.zero.le (.inf false) = true :=
  F32.le_iff_lt_or_eq_true.mpr (.inl (F32.compare_inf rfl).2.1)

/-- The rounding of a number that is not negative compares as not negative. -/
theorem Rounds.zero_le {q : ℝ} {x : F32} (h : Rounds q x) (nonneg : 0 ≤ q) : F32.zero.le x = true := by
  cases finite : x.isFinite with
  | true => exact (F32.le_iff_value rfl finite).mpr (F32.value_zero ▸ h.value_nonneg finite nonneg)
  | false => exact h.eq_inf_of_nonneg nonneg finite ▸ F32.zero_le_inf

/-- Only a number of at most half the least subnormal rounds to a zero. -/
theorem Rounds.le_of_value_eq_zero {q : ℝ} {x : F32} (h : Rounds q x) (hx : x.isFinite = true) (zero : x.value = 0) :
    q ≤ (2 : ℝ) ^ (-150 : ℤ) := by
  have least : (F32.fin false 0 1).value = 2 * (2 : ℝ) ^ (-150 : ℤ) := by
    have unit : F32.magnitude 0 (1 : BitVec 23).toNat = 1 := rfl
    norm_num [F32.value, F32.scaled, unit]
  have half : (0 : ℝ) < (2 : ℝ) ^ (-150 : ℤ) := by positivity
  have near := ((h.1 (h.isFinite_iff.mp hx)).2 (.fin false 0 1) rfl).1
  rw [zero, least, zero_sub, abs_neg] at near
  refine le_of_not_gt fun above => near.not_gt ?_
  exact (abs_lt.mpr ⟨by linarith, by linarith⟩).trans_le (le_abs_self q)

end Sys2Proof

namespace Sys2Proof.Machine

theorem exec_averageVoltage_of_buf {s : State} {codes : List ℕ} (buf : s.buf = some codes)
    (length : codes.length = s.cfg.nsamp) :
    exec .averageVoltage s = .next { s with result := some (.xv (averageVoltage s.cfg codes)) } :=
  orFault_eq_next.mpr ⟨codes, readBuffer_eq_ok.mpr ⟨buf, length⟩, rfl⟩

/-! ### The mean and the scale -/

theorem isNeg_meanOf {n : ℕ} (hn : 0 < n) (codes : List ℕ) : (meanOf n codes).isNeg = false := by
  rw [meanOf, rne32, isNeg_rneSigned _ _ hn, decide_eq_false (Int.natCast_nonneg _).not_gt]

section
variable {cfg : Cfg} (ranges : cfg.rangesMet)
include ranges

theorem inputDivider_positive : cfg.inputDivider.positive := by
  obtain ⟨-, -, -, -, -, -, -, -, -, divider, -⟩ := ranges
  exact divider

theorem adcVref_positive : cfg.adcVref.positive := by
  obtain ⟨-, -, -, -, -, -, -, -, vref, -⟩ := ranges
  exact vref

/-- The codes are so few that binary32 holds their number exactly (44_sample_averager.md R180). -/
theorem codeCount_le : 2 ^ cfg.adcCodeBits ≤ 2 ^ 24 := by
  obtain ⟨-, -, -, -, -, -, sample, ⟨-, bits⟩, -⟩ := ranges
  exact Nat.pow_le_pow_right two_pos (by omega)

theorem codeCount_positive : (F32.ofNat (2 ^ cfg.adcCodeBits)).positive :=
  F32.positive_ofNat (by positivity) (codeCount_le ranges)

theorem value_codeCount : (F32.ofNat (2 ^ cfg.adcCodeBits)).value = 2 ^ cfg.adcCodeBits := by
  rw [F32.value_ofNat (codeCount_le ranges), Nat.cast_pow, Nat.cast_ofNat]

/-- The scale is rounded once (44_sample_averager.md R180). -/
theorem rounds_adcScale : Rounds (cfg.adcVref.value / 2 ^ cfg.adcCodeBits) (adcScale cfg) := by
  have rounded := rounds_div (adcVref_positive ranges).1 (codeCount_positive ranges).1 (codeCount_positive ranges).2.ne'
  rwa [value_codeCount ranges] at rounded

/-- The scale is at most the reference voltage, so it does not overflow. -/
theorem isFinite_adcScale : (adcScale cfg).isFinite = true := by
  have vref := adcVref_positive ranges
  rw [(rounds_adcScale ranges).isFinite_iff, abs_of_nonneg (div_nonneg vref.2.le (by positivity))]
  exact (div_le_self vref.2.le (one_le_pow₀ one_le_two)).trans_lt ((le_abs_self _).trans_lt (F32.abs_value_lt vref.1))

theorem isNeg_adcScale : (adcScale cfg).isNeg = false := by
  rw [adcScale, (codeCount_positive ranges).isNeg_div (adcVref_positive ranges).1,
    (adcVref_positive ranges).isNeg_eq_false]

theorem value_adcScale_nonneg : 0 ≤ (adcScale cfg).value :=
  (rounds_adcScale ranges).value_nonneg (isFinite_adcScale ranges) (div_nonneg (adcVref_positive ranges).2.le (by positivity))

/-- A zero scale takes a reference voltage of at most `2^(ADC_CODE_BITS - 150)` (44_sample_averager.md R181). -/
theorem adcVref_le_of_isZero_adcScale (zero : (adcScale cfg).isZero = true) :
    cfg.adcVref.value ≤ (2 : ℝ) ^ ((cfg.adcCodeBits : ℤ) - 150) := by
  have finite := isFinite_adcScale ranges
  have small := (rounds_adcScale ranges).le_of_value_eq_zero finite ((F32.isZero_iff_value finite).mp zero)
  rwa [div_le_iff₀ (by positivity), ← zpow_natCast, ← zpow_add₀ two_ne_zero, neg_add_eq_sub] at small

end

/-! ### The quotient and the product -/

/-- The mean over the divider, the averager's `t0` (44_sample_averager.md R180). -/
abbrev averageQuotient (cfg : Cfg) (codes : List ℕ) : F32 := (meanOf cfg.nsamp codes).div cfg.inputDivider

theorem averageVoltage_eq (cfg : Cfg) (codes : List ℕ) :
    averageVoltage cfg codes = (averageQuotient cfg codes).mul (adcScale cfg) := rfl

/-- With a finite quotient the product is rounded once (44_sample_averager.md R180). -/
theorem rounds_averageVoltage {cfg : Cfg} (ranges : cfg.rangesMet) {codes : List ℕ}
    (finite : (averageQuotient cfg codes).isFinite = true) :
    Rounds ((averageQuotient cfg codes).value * (adcScale cfg).value) (averageVoltage cfg codes) :=
  rounds_mul finite (isFinite_adcScale ranges)

section
variable {cfg : Cfg} (ranges : cfg.rangesMet) {codes : List ℕ} (whole : wholeBuffer cfg codes)
include ranges whole

theorem rounds_averageQuotient :
    Rounds ((meanOf cfg.nsamp codes).value / cfg.inputDivider.value) (averageQuotient cfg codes) :=
  rounds_div (meanOf_bounds ranges whole).1 (inputDivider_positive ranges).1 (inputDivider_positive ranges).2.ne'

theorem exactQuotient_nonneg : 0 ≤ (meanOf cfg.nsamp codes).value / cfg.inputDivider.value :=
  div_nonneg (meanOf_bounds ranges whole).2.1 (inputDivider_positive ranges).2.le

/-- The quotient overflows only under a divider below `2^-112` (44_sample_averager.md R181). -/
theorem inputDivider_lt_of_overflow (overflow : (averageQuotient cfg codes).isFinite = false) :
    cfg.inputDivider.value < (2 : ℝ) ^ (-112 : ℤ) := by
  obtain ⟨-, -, bound⟩ := meanOf_bounds ranges whole
  have code : (maxCode cfg : ℝ) ≤ 65535 := by
    obtain ⟨-, -, -, -, -, -, bits, -⟩ := ranges
    rcases bits with bits | bits <;> norm_num [cast_maxCode, bits]
  have large : 2 ^ 128 - 2 ^ 103 ≤ (meanOf cfg.nsamp codes).value / cfg.inputDivider.value := by
    rw [← not_lt, ← abs_of_nonneg (exactQuotient_nonneg ranges whole), ← (rounds_averageQuotient ranges whole).isFinite_iff, overflow]
    exact Bool.false_ne_true
  rw [le_div_iff₀ (inputDivider_positive ranges).2] at large
  norm_num at large ⊢
  linarith

/-- An overflow of the quotient goes on as `+infinity`, or as a NaN where the scale is a zero (44_sample_averager.md R181). -/
theorem averageVoltage_of_overflow (overflow : (averageQuotient cfg codes).isFinite = false) :
    averageVoltage cfg codes = if (adcScale cfg).isZero then .nan else .inf false := by
  rw [averageVoltage_eq, (rounds_averageQuotient ranges whole).eq_inf_of_nonneg (exactQuotient_nonneg ranges whole) overflow,
    F32.inf_mul _ (isFinite_adcScale ranges), isNeg_adcScale ranges]
  rfl

/-- With a finite quotient the voltage is a number that is not negative (44_sample_averager.md R181). -/
theorem averageVoltage_nonneg_of_isFinite (finite : (averageQuotient cfg codes).isFinite = true) :
    (averageVoltage cfg codes).isNaN = false ∧ F32.zero.le (averageVoltage cfg codes) = true := by
  have rounded := rounds_averageVoltage ranges finite
  have quotient := (rounds_averageQuotient ranges whole).value_nonneg finite (exactQuotient_nonneg ranges whole)
  exact ⟨rounded.isNaN_eq_false, rounded.zero_le (mul_nonneg quotient (value_adcScale_nonneg ranges))⟩

/-- The voltage is never negative (44_sample_averager.md R181). -/
theorem averageVoltage_nonneg (number : (averageVoltage cfg codes).isNaN = false) :
    F32.zero.le (averageVoltage cfg codes) = true := by
  cases finite : (averageQuotient cfg codes).isFinite with
  | true => exact (averageVoltage_nonneg_of_isFinite ranges whole finite).2
  | false =>
    rw [averageVoltage_of_overflow ranges whole finite] at number ⊢
    split_ifs at number ⊢
    · cases number
    · exact F32.zero_le_inf

/-- A NaN takes an infinite quotient and a zero scale (44_sample_averager.md R181). -/
theorem extremes_of_isNaN_averageVoltage (nan : (averageVoltage cfg codes).isNaN = true) :
    (averageQuotient cfg codes).isFinite = false ∧ (adcScale cfg).isZero = true := by
  cases finite : (averageQuotient cfg codes).isFinite with
  | true => simp [averageVoltage_nonneg_of_isFinite ranges whole finite] at nan
  | false =>
    rw [averageVoltage_of_overflow ranges whole finite] at nan
    split_ifs at nan with zero
    · exact ⟨rfl, zero⟩
    · cases nan

/-- The mean of a constant buffer is its code as a binary32, bit for bit (44_sample_averager.md R181). -/
theorem meanOf_of_const {v : ℕ} (const : ∀ d ∈ codes, d = v) : meanOf cfg.nsamp codes = F32.ofNat v := by
  have code : v ≤ 2 ^ 24 := by
    obtain ⟨d, hd⟩ := List.exists_mem_of_length_pos (whole.1 ▸ nsamp_pos ranges)
    exact const d hd ▸ (le_maxCode whole hd).trans (maxCode_le ranges)
  refine F32.eq_of_value_eq (meanOf_bounds ranges whole).1 (F32.isFinite_ofNat code) ?_ ?_
  · rw [isNeg_meanOf (nsamp_pos ranges), F32.isNeg_ofNat]
  · rw [value_meanOf_of_const ranges whole const, F32.value_ofNat code]

end

/-- A buffer of zeros gives `+0.0` V (44_sample_averager.md R181). -/
theorem averageVoltage_of_zeros {cfg : Cfg} (ranges : cfg.rangesMet) {codes : List ℕ} (zeros : ∀ d ∈ codes, d = 0) :
    averageVoltage cfg codes = F32.zero := by
  rw [averageVoltage, meanOf_of_sum_eq_zero (nsamp_pos ranges) (List.sum_eq_zero zeros),
    (inputDivider_positive ranges).zero_div, F32.zero_mul_of_isFinite (isFinite_adcScale ranges), isNeg_adcScale ranges]
  rfl

/-- Settles O27: the divider and the number of codes are not zero, so each operation is one rounding. -/
theorem averageVoltageRoundsInOrder : Obligations.AverageVoltageRoundsInOrder := by
  intro s codes wf buf whole
  have ranges := rangesMet_of_wf wf
  exact ⟨_, _, _, _, exec_mean_of_buf buf whole.1, rounds_averageQuotient ranges whole, rounds_adcScale ranges,
    exec_averageVoltage_of_buf buf whole.1, rfl, rounds_averageVoltage ranges⟩

/-- Settles O28: a NaN is an infinity times a zero, and each of the two bounds a field of the configuration. -/
theorem averageVoltageCorners : Obligations.AverageVoltageCorners := by
  intro s codes wf buf whole
  have ranges := rangesMet_of_wf wf
  refine ⟨_, exec_averageVoltage_of_buf buf whole.1, averageVoltage_nonneg ranges whole, fun nan => ?_,
    averageVoltage_of_zeros ranges, fun d const => ?_⟩
  · obtain ⟨overflow, zero⟩ := extremes_of_isNaN_averageVoltage ranges whole nan
    exact ⟨inputDivider_lt_of_overflow ranges whole overflow, adcVref_le_of_isZero_adcScale ranges zero⟩
  · rw [averageVoltage, meanOf_of_const ranges whole const, adcScale]

end Sys2Proof.Machine
end

section
/-!
PROOFS. How far one rounding can be off (00_scope.md R12): half a unit of the last of 24 bits, and so one part in `2^24` of a normal
number; and that roundings keep the order.
-/

namespace Sys2Proof

/-- A significand of 24 bits is a finite value exactly at every exponent of one; at the greatest it must not carry. -/
theorem F32.exists_value_eq {m e : ℕ} (hm : m ≤ 2 ^ 24) (he : e ≤ 252 ∨ e = 253 ∧ m < 2 ^ 24) :
    ∃ y : F32, y.isFinite = true ∧ y.value = m * (2 ^ e / 2 ^ 149) := by
  obtain ⟨r, hr, mag⟩ : ∃ r < 255 * 2 ^ 23, F32.fieldsMagnitude r = m * 2 ^ e := by
    rcases he with he | ⟨rfl, noCarry⟩
    · exact F32.exists_fieldsMagnitude_eq hm he
    rcases Nat.lt_or_ge m (2 ^ 23) with small | normal
    · obtain ⟨r, hr, eq⟩ := F32.exists_fieldsMagnitude_eq (m := 2 * m) (e := 252) (by omega) le_rfl
      exact ⟨r, hr, by rw [eq]; ring⟩
    · exact ⟨253 * 2 ^ 23 + m, by omega, F32.fieldsMagnitude_eq hm (.inr normal)⟩
  refine ⟨.ofFields false r, F32.isFinite_ofFields _ hr, ?_⟩
  rw [F32.value_ofFields _ hr, if_neg Bool.false_ne_true, F32.fieldsValue, mag]
  push_cast
  ring

section
variable {q : ℝ} {x : F32} (h : Rounds q x) (hx : x.isFinite = true)
include h hx

/-- A rounding is off by at most half a unit `2^e` (in 2^-149) in which the number has at most 24 bits. -/
theorem Rounds.abs_sub_le_half_unit {e : ℕ} (he : e ≤ 253) (nonneg : 0 ≤ q) (le : q ≤ 2 ^ 24 * (2 ^ e / 2 ^ 149)) :
    |x.value - q| ≤ 2 ^ e / 2 ^ 149 / 2 := by
  have small := h.isFinite_iff.mp hx
  rw [abs_of_nonneg nonneg] at small
  have unit : (0 : ℝ) < 2 ^ e / 2 ^ 149 := by positivity
  have below := Nat.floor_le (show 0 ≤ q / (2 ^ e / 2 ^ 149) + 1 / 2 by positivity)
  have above := Nat.lt_floor_add_one (q / (2 ^ e / 2 ^ 149) + 1 / 2)
  generalize ⌊q / (2 ^ e / 2 ^ 149) + 1 / 2⌋₊ = m at below above
  rw [← sub_le_iff_le_add, le_div_iff₀ unit] at below
  rw [← lt_sub_iff_add_lt, div_lt_iff₀ unit] at above
  have bits : m ≤ 2 ^ 24 := by
    have noMore : (m : ℝ) < 2 ^ 24 + 1 := by linarith [le_of_mul_le_mul_right (below.trans le) unit]
    exact Nat.lt_succ_iff.mp (by exact_mod_cast noMore)
  have exponent : e ≤ 252 ∨ e = 253 ∧ m < 2 ^ 24 := by
    rcases he.lt_or_eq with lt | rfl
    · exact .inl (by omega)
    refine .inr ⟨rfl, ?_⟩
    have scale : (2 : ℝ) ^ 253 / 2 ^ 149 = 2 ^ 104 := by norm_num
    rw [scale] at below
    have noCarry : (m : ℝ) < 2 ^ 24 := by linarith
    exact_mod_cast noCarry
  obtain ⟨y, hy, value⟩ := F32.exists_value_eq bits exponent
  refine ((h.1 (h.isFinite_iff.mp hx)).2 y hy).1.trans (abs_le.mpr ?_)
  rw [value]
  constructor <;> linarith

/-- The rounding of a normal number is off by at most one part in `2^24`. -/
theorem Rounds.abs_sub_le_of_normal (normal : (2 : ℝ) ^ (-126 : ℤ) ≤ q) : |x.value - q| ≤ q / 2 ^ 24 := by
  have pos : 0 < q := lt_of_lt_of_le (by positivity) normal
  have small := h.isFinite_iff.mp hx
  rw [abs_of_pos pos] at small
  have one : (1 : ℝ) ≤ q * 2 ^ 126 := by
    calc (1 : ℝ) = (2 : ℝ) ^ (-126 : ℤ) * 2 ^ 126 := by norm_num
      _ ≤ q * 2 ^ 126 := by gcongr
  obtain ⟨e, low, high⟩ := exists_nat_pow_near one one_lt_two
  have he : e < 254 := by
    have : (2 : ℝ) ^ e < 2 ^ 254 := by norm_num at low small ⊢; linarith
    exact (pow_lt_pow_iff_right₀ one_lt_two).mp this
  rw [pow_succ (2 : ℝ) e] at high
  refine (h.abs_sub_le_half_unit hx (e := e) (by omega) pos.le ?_).trans ?_
  · norm_num at high ⊢; linarith
  · norm_num at low ⊢; linarith

end

/-- The rounding of a greater number is no less. -/
theorem Rounds.value_mono {p q : ℝ} {x y : F32} (hx : Rounds p x) (hy : Rounds q y) (fx : x.isFinite = true)
    (fy : y.isFinite = true) (pq : p ≤ q) : x.value ≤ y.value := by
  by_contra above
  have above := not_le.mp above
  have nearP := ((hx.1 (hx.isFinite_iff.mp fx)).2 y fy).1
  have nearQ := ((hy.1 (hy.isFinite_iff.mp fy)).2 x fx).1
  rw [← sq_le_sq] at nearP nearQ
  have low : x.value + y.value ≤ 2 * p := by nlinarith
  have high : 2 * q ≤ x.value + y.value := by nlinarith
  obtain rfl : p = q := by linarith
  exact above.ne' (hx.value_unique hy)

end Sys2Proof
end

section
/-!
PROOFS. The DacCodec (45_dac_codec.md R200 to R205, R207): the clamp to the DAC's range, the code of a voltage in that range, its
order and its round trip, and the frame.
-/

namespace Sys2Proof

/-- A value that no bound of a positive range is beyond is finite and within it. -/
theorem F32.between_of_not_le {v top : F32} (number : v.isNaN = false) (htop : top.isFinite = true)
    (low : ¬ v.le F32.zero = true) (high : ¬ top.le v = true) : v.isFinite = true ∧ 0 < v.value ∧ v.value < top.value := by
  have finite : v.isFinite = true := by
    obtain _ | ⟨_ | _⟩ | ⟨neg, e, f⟩ := v
    case nan => cases number
    case inf.false => exact absurd (F32.le_iff_lt_or_eq_true.mpr (.inl (F32.compare_inf htop).2.1)) high
    case inf.true => exact absurd (F32.le_iff_lt_or_eq_true.mpr (.inl (F32.compare_inf rfl).1)) low
    case fin => rfl
  rw [F32.le_iff_value finite rfl, F32.value_zero, not_le] at low
  rw [F32.le_iff_value htop finite, not_le] at high
  exact ⟨finite, low, high⟩

theorem F32.isNaN_left_of_le {x y : F32} (h : x.le y = true) : x.isNaN = false := by
  by_contra nan
  simp [F32.compare_isNaN (y := y) (.inl (Bool.not_eq_false _ ▸ nan))] at h

theorem F32.value_nonneg_of_isNeg_eq_false {x : F32} (hx : x.isFinite = true) (sign : x.isNeg = false) : 0 ≤ x.value := by
  rw [F32.value_eq_sign_mul hx, sign, if_neg Bool.false_ne_true, one_mul]
  positivity

end Sys2Proof

namespace Sys2Proof.Machine

/-! ### The range of the DAC and its step -/

/-- A finite value from 0 to `DAC_VMAX`: what `CLAMP` gives and `V2CODE` takes (45_dac_codec.md R200, R201). -/
abbrev InDacRange (cfg : Cfg) (v : F32) : Prop := v.isFinite = true ∧ 0 ≤ v.value ∧ v.value ≤ cfg.dacVmax.value

theorem dacVmax_positive {cfg : Cfg} (ranges : cfg.rangesMet) : cfg.dacVmax.positive := by
  obtain ⟨-, -, -, -, -, -, -, -, -, -, vmax⟩ := ranges
  exact vmax

theorem inDacRange_zero {cfg : Cfg} (ranges : cfg.rangesMet) : InDacRange cfg F32.zero :=
  ⟨rfl, F32.value_zero.ge, F32.value_zero.trans_le (dacVmax_positive ranges).2.le⟩

theorem inDacRange_dacVmax {cfg : Cfg} (ranges : cfg.rangesMet) : InDacRange cfg cfg.dacVmax :=
  ⟨(dacVmax_positive ranges).1, (dacVmax_positive ranges).2.le, le_rfl⟩

/-- A floor that is not negative has the code `min(f, 1023)` (45_dac_codec.md R201). -/
theorem toNat_codeOfFloor {f : ℤ} (nonneg : 0 ≤ f) : ((codeOfFloor f).toNat : ℤ) = min f 1023 := by
  rw [codeOfFloor, if_neg nonneg.not_gt, BitVec.toNat_ofNat]
  omega

section
variable {cfg : Cfg} (wf : cfg.wf = true)
include wf

/-- The full-scale quotient is finite and at least 1023 (00_scope.md R7 `WF_DAC_FULLSCALE`). -/
theorem fullscale_of_wf : (cfg.dacVmax.div cfg.dacStep).isFinite = true ∧ 1023 ≤ ⌊(cfg.dacVmax.div cfg.dacStep).value⌋ := by
  obtain ⟨-, -, -, fullscale, -⟩ := cfg.failure_eq_none.mp (Option.isNone_iff_eq_none.mp wf)
  rwa [Cfg.fullscaleOk, Bool.and_eq_true, decide_eq_true_eq, ← F32.floor_value] at fullscale

/-- The step is above zero: a step rounded to zero has no finite quotient (00_scope.md R7). -/
theorem dacStep_positive : cfg.dacStep.positive := by
  have vmax := dacVmax_positive (rangesMet_of_wf wf)
  have finite := Cfg.isFinite_dacStep vmax.1
  have nonneg := (Cfg.rounds_dacStep vmax.1).value_nonneg finite (div_nonneg vmax.2.le (by norm_num))
  refine ⟨finite, nonneg.lt_of_ne' fun zero => ?_⟩
  simpa [F32.isFinite_div_zero vmax.1 finite zero] using (fullscale_of_wf wf).1

/-! ### The code of a voltage in the range -/

theorem rounds_dacQuotient {v : F32} (hv : v.isFinite = true) : Rounds (v.value / cfg.dacStep.value) (v.div cfg.dacStep) :=
  rounds_div hv (dacStep_positive wf).1 (dacStep_positive wf).2.ne'

/-- The quotient of a voltage in the range is not above the full-scale one, which is finite. -/
theorem isFinite_dacQuotient {v : F32} (hv : InDacRange cfg v) : (v.div cfg.dacStep).isFinite = true := by
  obtain ⟨finite, nonneg, le⟩ := hv
  have step := (dacStep_positive wf).2
  have vmax := dacVmax_positive (rangesMet_of_wf wf)
  have full := (rounds_dacQuotient wf vmax.1).isFinite_iff.mp (fullscale_of_wf wf).1
  rw [(rounds_dacQuotient wf finite).isFinite_iff]
  rw [abs_of_nonneg (div_nonneg vmax.2.le step.le)] at full
  rw [abs_of_nonneg (div_nonneg nonneg step.le)]
  exact (div_le_div_of_nonneg_right le step.le).trans_lt full

theorem dacQuotient_value_nonneg {v : F32} (hv : InDacRange cfg v) : 0 ≤ (v.div cfg.dacStep).value :=
  (rounds_dacQuotient wf hv.1).value_nonneg (isFinite_dacQuotient wf hv) (div_nonneg hv.2.1 (dacStep_positive wf).2.le)

theorem dacQuotient_value_mono {v w : F32} (hv : InDacRange cfg v) (hw : InDacRange cfg w) (le : v.value ≤ w.value) :
    (v.div cfg.dacStep).value ≤ (w.div cfg.dacStep).value :=
  (rounds_dacQuotient wf hv.1).value_mono (rounds_dacQuotient wf hw.1) (isFinite_dacQuotient wf hv) (isFinite_dacQuotient wf hw)
    (div_le_div_of_nonneg_right le (dacStep_positive wf).2.le)

/-- The code of a voltage in the range (45_dac_codec.md R201). -/
theorem toNat_voltageToCode {v : F32} (hv : InDacRange cfg v) :
    ((voltageToCode cfg v).toNat : ℤ) = min ⌊(v.div cfg.dacStep).value⌋ 1023 := by
  rw [voltageToCode, F32.floor_value]
  exact toNat_codeOfFloor (F32.floor_value _ ▸ Int.floor_nonneg.mpr (dacQuotient_value_nonneg wf hv))

theorem voltageToCode_zero : voltageToCode cfg F32.zero = 0 := by
  have code := toNat_voltageToCode wf (inDacRange_zero (rangesMet_of_wf wf))
  rw [(dacStep_positive wf).zero_div, F32.value_zero, Int.floor_zero] at code
  exact BitVec.eq_of_toNat_eq (by simpa using code)

/-- Full scale has the greatest code (45_dac_codec.md R202). -/
theorem voltageToCode_dacVmax : voltageToCode cfg cfg.dacVmax = 1023 := by
  have code := toNat_voltageToCode wf (inDacRange_dacVmax (rangesMet_of_wf wf))
  rw [min_eq_right (fullscale_of_wf wf).2] at code
  exact BitVec.eq_of_toNat_eq (by exact_mod_cast code)

/-- A higher voltage never gives a lower code (45_dac_codec.md R203). -/
theorem voltageToCode_mono {v w : F32} (hv : InDacRange cfg v) (hw : InDacRange cfg w) (le : v.value ≤ w.value) :
    (voltageToCode cfg v).toNat ≤ (voltageToCode cfg w).toNat := by
  have codes : ((voltageToCode cfg v).toNat : ℤ) ≤ (voltageToCode cfg w).toNat := by
    rw [toNat_voltageToCode wf hv, toNat_voltageToCode wf hw]
    exact min_le_min_right _ (Int.floor_le_floor (dacQuotient_value_mono wf hv hw le))
  exact_mod_cast codes

end

theorem exec_v2code (vc : F32) (s : State) :
    exec (.v2code vc) s = .next { s with result := some (.code (voltageToCode s.cfg vc)) } := rfl

/-- Settles O30: the roundings of the step and of the quotient, whose floor is the code. -/
theorem voltageToCodeFloors : Obligations.VoltageToCodeFloors := by
  intro s vc wf finite sign le
  have vmax := dacVmax_positive (rangesMet_of_wf wf)
  have range : InDacRange s.cfg vc :=
    ⟨finite, F32.value_nonneg_of_isNeg_eq_false finite sign, (F32.le_iff_value finite vmax.1).mp le⟩
  refine ⟨s.cfg.dacStep, vc.div s.cfg.dacStep, _, Cfg.rounds_dacStep vmax.1, (dacStep_positive wf).2, rounds_dacQuotient wf finite,
    isFinite_dacQuotient wf range, exec_v2code vc s, toNat_voltageToCode wf range, ?zero, ?full⟩
  case zero =>
    rintro rfl
    exact voltageToCode_zero wf
  case full =>
    rintro rfl
    exact voltageToCode_dacVmax wf

/-! ### The clamp -/

theorem clampVoltage_of_isNaN {cfg : Cfg} {v : F32} (nan : v.isNaN = true) : clampVoltage cfg v = none := if_pos nan

theorem clampVoltage_of_le_zero {cfg : Cfg} {v : F32} (low : v.le F32.zero = true) : clampVoltage cfg v = some F32.zero := by
  rw [clampVoltage, if_neg (by simp [F32.isNaN_left_of_le low]), if_pos low]

theorem clampVoltage_of_between {cfg : Cfg} {v : F32} (number : v.isNaN = false) (low : ¬ v.le F32.zero = true)
    (high : ¬ cfg.dacVmax.le v = true) : clampVoltage cfg v = some v := by
  rw [clampVoltage, if_neg (by simp [number]), if_neg low, if_neg high]

section
variable {cfg : Cfg} (ranges : cfg.rangesMet)
include ranges

theorem not_dacVmax_le_zero : ¬ cfg.dacVmax.le F32.zero = true := by
  have vmax := dacVmax_positive ranges
  rw [F32.le_iff_value vmax.1 rfl, F32.value_zero]
  exact vmax.2.not_ge

theorem clampVoltage_of_dacVmax_le {v : F32} (high : cfg.dacVmax.le v = true) : clampVoltage cfg v = some cfg.dacVmax := by
  have low : ¬ v.le F32.zero = true := fun low => not_dacVmax_le_zero ranges (F32.le_of_le_of_le high low)
  rw [clampVoltage, if_neg (by simp [F32.isNaN_of_le high]), if_neg low, if_pos high]

/-- What `CLAMP` can do with a number: one of its two bounds, or the number itself within them (45_dac_codec.md R200). -/
theorem clampVoltage_cases {v : F32} (number : v.isNaN = false) :
    (v.le F32.zero = true ∧ clampVoltage cfg v = some F32.zero) ∨
      (cfg.dacVmax.le v = true ∧ clampVoltage cfg v = some cfg.dacVmax) ∨
      ((v.isFinite = true ∧ 0 < v.value ∧ v.value < cfg.dacVmax.value) ∧ clampVoltage cfg v = some v) := by
  by_cases low : v.le F32.zero = true
  · exact .inl ⟨low, clampVoltage_of_le_zero low⟩
  by_cases high : cfg.dacVmax.le v = true
  · exact .inr (.inl ⟨high, clampVoltage_of_dacVmax_le ranges high⟩)
  · exact .inr (.inr ⟨F32.between_of_not_le number (dacVmax_positive ranges).1 low high, clampVoltage_of_between number low high⟩)

/-- `CLAMP` of a number is in the range (45_dac_codec.md R200). -/
theorem exists_clampVoltage {v : F32} (number : v.isNaN = false) : ∃ vc, clampVoltage cfg v = some vc ∧ InDacRange cfg vc := by
  rcases clampVoltage_cases ranges number with ⟨-, clamp⟩ | ⟨-, clamp⟩ | ⟨⟨finite, pos, lt⟩, clamp⟩
  · exact ⟨_, clamp, inDacRange_zero ranges⟩
  · exact ⟨_, clamp, inDacRange_dacVmax ranges⟩
  · exact ⟨_, clamp, finite, pos.le, lt.le⟩

/-- `CLAMP` leaves the number of a voltage in the range (45_dac_codec.md R200). -/
theorem clampVoltage_value {v vc : F32} (range : InDacRange cfg v) (clamp : clampVoltage cfg v = some vc) :
    vc.value = v.value := by
  obtain ⟨finite, nonneg, le⟩ := range
  rcases clampVoltage_cases ranges (F32.isNaN_of_isFinite finite) with ⟨low, same⟩ | ⟨high, same⟩ | ⟨-, same⟩ <;>
    obtain rfl := Option.some.inj (same.symm.trans clamp)
  · rw [F32.le_iff_value finite rfl, F32.value_zero] at low
    rw [F32.value_zero]
    exact nonneg.antisymm low
  · exact ((F32.le_iff_value (dacVmax_positive ranges).1 finite).mp high).antisymm le
  · rfl

/-- `CLAMP` keeps the order (45_dac_codec.md R203). -/
theorem clampVoltage_mono {v w vc wc : F32} (le : v.le w = true) (hv : clampVoltage cfg v = some vc)
    (hw : clampVoltage cfg w = some wc) (range : InDacRange cfg wc) : vc.value ≤ wc.value := by
  rcases clampVoltage_cases ranges (F32.isNaN_left_of_le le) with ⟨-, low⟩ | ⟨high, top⟩ | ⟨⟨finite, pos, lt⟩, mid⟩
  · obtain rfl := Option.some.inj (low.symm.trans hv)
    exact F32.value_zero.trans_le range.2.1
  · have topW := clampVoltage_of_dacVmax_le ranges (F32.le_of_le_of_le high le)
    rw [Option.some.inj (hv.symm.trans top), Option.some.inj (hw.symm.trans topW)]
  · obtain rfl := Option.some.inj (mid.symm.trans hv)
    rcases clampVoltage_cases ranges (F32.isNaN_of_le le) with ⟨lowW, -⟩ | ⟨-, topW⟩ | ⟨⟨finiteW, -⟩, midW⟩
    · have low := F32.le_of_le_of_le le lowW
      rw [F32.le_iff_value finite rfl, F32.value_zero] at low
      exact absurd pos low.not_gt
    · obtain rfl := Option.some.inj (topW.symm.trans hw)
      exact lt.le
    · obtain rfl := Option.some.inj (midW.symm.trans hw)
      exact (F32.le_iff_value finite finiteW).mp le

end

theorem exec_clamp_of_some {s : State} {v vc : F32} (clamp : clampVoltage s.cfg v = some vc) :
    exec (.clamp v) s = .next { s with result := some (.clamped vc) } := by
  rw [exec, execClamp, clamp]
  rfl

/-- A NaN at the codec is the fault `NUMERIC` (45_dac_codec.md R200). -/
theorem exec_clamp_of_isNaN {s : State} {v : F32} (nan : v.isNaN = true) : exec (.clamp v) s = .next s.codecFault := by
  rw [exec, execClamp, clampVoltage_of_isNaN nan]

/-- The fault of the codec sets `STATUS[7]` and `LAST` and nothing else of the status (60_exceptions.md R261). -/
theorem codecFault_eq (s : State) : s.codecFault = { s with
    status := s.statusWith true (statusIllegalEvent s.status) 0b100 (statusCh s.status) (statusState s.status)
    result := none } := by
  have status : s.codecFault.status =
      s.statusWith true (statusIllegalEvent s.status) 0b100 (statusCh s.status) (statusState s.status) := by
    rw [State.codecFault]
    apply status_ext <;> simp [LastOutcome.code]
  rw [← status]
  rfl

/-- Settles O29: `CLAMP` at, beyond and between its bounds, and the codec's fault on a NaN. -/
theorem clampLimits : Obligations.ClampLimits := by
  intro s v ranges
  refine ⟨fun low => exec_clamp_of_some (clampVoltage_of_le_zero low),
    fun high => exec_clamp_of_some (clampVoltage_of_dacVmax_le ranges high), fun low high => ?between, fun nan => ?nan⟩
  case between =>
    have number := F32.isNaN_left_of_le (F32.le_iff_lt_or_eq_true.mpr (.inl high))
    exact exec_clamp_of_some (clampVoltage_of_between number (F32.not_le_of_lt_true low) (F32.not_le_of_lt_true high))
  case nan => rw [exec_clamp_of_isNaN nan, codecFault_eq]

/-- Settles O31: the clamp keeps the order, the code of a clamped voltage keeps it, and the bounds have the codes 0 and 1023. -/
theorem codecIsMonotone : Obligations.CodecIsMonotone := by
  intro s v w wf le
  have ranges := rangesMet_of_wf wf
  obtain ⟨vc, clampV, rangeV⟩ := exists_clampVoltage ranges (F32.isNaN_left_of_le le)
  obtain ⟨wc, clampW, rangeW⟩ := exists_clampVoltage ranges (F32.isNaN_of_le le)
  have ordered := clampVoltage_mono ranges le clampV clampW rangeW
  refine ⟨vc, wc, _, _, exec_clamp_of_some clampV, exec_clamp_of_some clampW, (F32.le_iff_value rangeV.1 rangeW.1).mpr ordered,
    exec_v2code vc s, exec_v2code wc s, voltageToCode_mono wf rangeV rangeW ordered,
    Nat.lt_succ_iff.mp (voltageToCode s.cfg wc).isLt, fun low => ?low, fun high => ?high⟩
  case low =>
    rw [Option.some.inj (clampV.symm.trans (clampVoltage_of_le_zero low)), voltageToCode_zero wf]
  case high =>
    rw [Option.some.inj (clampV.symm.trans (clampVoltage_of_dacVmax_le ranges high)), voltageToCode_dacVmax wf]

/-! ### The round trip -/

section
variable {cfg : Cfg} (wf : cfg.wf = true)
include wf

/-- The decoded value is the rounding of the code times the step (45_dac_codec.md R204). -/
theorem rounds_decodeCode (code : DacCode) : Rounds ((code.toNat : ℝ) * cfg.dacStep.value) (decodeCode cfg code) := by
  have bits : code.toNat ≤ 2 ^ 24 := by
    have := code.isLt
    omega
  have product := rounds_mul (F32.isFinite_ofNat bits) (dacStep_positive wf).1
  rwa [F32.value_ofNat bits] at product

variable (normal : (2 : ℝ) ^ (-126 : ℤ) ≤ cfg.dacStep.value)
include normal

/-- A normal step is so close to its exact value that the full-scale quotient stays below 1023.5 (45_dac_codec.md R201). -/
theorem dacVmax_le_steps : cfg.dacVmax.value ≤ 1023.5 * cfg.dacStep.value := by
  have vmax := dacVmax_positive (rangesMet_of_wf wf)
  have step := dacStep_positive wf
  rcases le_total (cfg.dacVmax.value / 1023) cfg.dacStep.value with up | down
  · linarith [step.2]
  · have near := (abs_le.mp ((Cfg.rounds_dacStep vmax.1).abs_sub_le_of_normal step.1 (normal.trans down))).1
    linarith

/-- Up to one rounding the quotient lies between the code and the next (45_dac_codec.md R204). -/
theorem abs_code_sub_quotient_lt {v : F32} (hv : InDacRange cfg v) :
    |((voltageToCode cfg v).toNat : ℝ) - v.value / cfg.dacStep.value| < 1 + 1 / 2 ^ 15 := by
  obtain ⟨finite, nonneg, le⟩ := hv
  have step := (dacStep_positive wf).2
  have quotient : v.value / cfg.dacStep.value ≤ 1023.5 := by
    rw [div_le_iff₀ step]
    exact le.trans (dacVmax_le_steps wf normal)
  have near := (rounds_dacQuotient wf finite).abs_sub_le_half_unit (isFinite_dacQuotient wf ⟨finite, nonneg, le⟩) (e := 135)
    (by norm_num) (div_nonneg nonneg step.le) (quotient.trans (by norm_num))
  obtain ⟨low, high⟩ := abs_le.mp near
  have floor : ((voltageToCode cfg v).toNat : ℤ) = ⌊(v.div cfg.dacStep).value⌋ := by
    rw [toNat_voltageToCode wf ⟨finite, nonneg, le⟩, min_eq_left]
    refine Int.lt_add_one_iff.mp (Int.floor_lt.mpr ?_)
    norm_num at high quotient ⊢
    linarith
  have code : ((voltageToCode cfg v).toNat : ℝ) = ⌊(v.div cfg.dacStep).value⌋ := by exact_mod_cast floor
  have below := Int.floor_le (v.div cfg.dacStep).value
  have above := Int.lt_floor_add_one (v.div cfg.dacStep).value
  rw [code]
  norm_num at low high ⊢
  exact abs_lt.mpr ⟨by linarith, by linarith⟩

/-- The decoded value is off from the code times the step by one rounding (45_dac_codec.md R204). -/
theorem abs_decodeCode_sub_le {code : DacCode} (finite : (decodeCode cfg code).isFinite = true) :
    |(decodeCode cfg code).value - code.toNat * cfg.dacStep.value| ≤ cfg.dacStep.value / 2 ^ 14 := by
  have step := (dacStep_positive wf).2
  have rounded := rounds_decodeCode wf code
  have limit : (code.toNat : ℝ) ≤ 1023 := by exact_mod_cast Nat.lt_succ_iff.mp code.isLt
  rcases Nat.eq_zero_or_pos code.toNat with zero | pos
  · rw [zero, Nat.cast_zero, zero_mul] at rounded ⊢
    rw [rounded.value_unique (rounds_zero false), show F32.fin false 0 0 = F32.zero from rfl, F32.value_zero, sub_zero, abs_zero]
    positivity
  · have one : (1 : ℝ) ≤ code.toNat := by exact_mod_cast pos
    refine (rounded.abs_sub_le_of_normal finite (normal.trans (le_mul_of_one_le_left step.le one))).trans ?_
    have := mul_le_mul_of_nonneg_right limit step.le
    linarith

/-- The round trip of a voltage in the range (45_dac_codec.md R204). -/
theorem abs_decodeCode_voltageToCode_sub_lt {v : F32} (hv : InDacRange cfg v)
    (finite : (decodeCode cfg (voltageToCode cfg v)).isFinite = true) :
    |(decodeCode cfg (voltageToCode cfg v)).value - v.value| < cfg.dacStep.value * (1 + (2 : ℝ) ^ (-13 : ℤ)) := by
  have step := (dacStep_positive wf).2
  have decoded := abs_decodeCode_sub_le wf normal finite
  have coded : |(voltageToCode cfg v).toNat * cfg.dacStep.value - v.value| < (1 + 1 / 2 ^ 15) * cfg.dacStep.value := by
    have scaled := mul_lt_mul_of_pos_right (abs_code_sub_quotient_lt wf normal hv) step
    rwa [← abs_of_pos step, ← abs_mul, abs_of_pos step, sub_mul, div_mul_cancel₀ _ step.ne'] at scaled
  calc |(decodeCode cfg (voltageToCode cfg v)).value - v.value|
      ≤ |(decodeCode cfg (voltageToCode cfg v)).value - (voltageToCode cfg v).toNat * cfg.dacStep.value| +
        |(voltageToCode cfg v).toNat * cfg.dacStep.value - v.value| := abs_sub_le _ _ _
    _ < cfg.dacStep.value / 2 ^ 14 + (1 + 1 / 2 ^ 15) * cfg.dacStep.value := add_lt_add_of_le_of_lt decoded coded
    _ ≤ cfg.dacStep.value * (1 + (2 : ℝ) ^ (-13 : ℤ)) := by norm_num; linarith

end

/-- Settles O32: the floor is off by less than one step, the quotient and the product each by one rounding. -/
theorem codecRoundTrips : Obligations.CodecRoundTrips := by
  rintro s v _ wf finite nonneg le rfl normal
  have ranges := rangesMet_of_wf wf
  obtain ⟨vc, clamp, range⟩ := exists_clampVoltage ranges (F32.isNaN_of_isFinite finite)
  refine ⟨vc, _, exec_clamp_of_some clamp, exec_v2code vc s, rounds_decodeCode wf _, fun decoded => ?_⟩
  rw [← clampVoltage_value ranges ⟨finite, nonneg, le⟩ clamp]
  exact abs_decodeCode_voltageToCode_sub_lt wf normal range decoded

/-! ### The frame -/

/-- The control nibble of a channel that exists has 4 bits (00_scope.md R7 `WF_CTRL`). -/
theorem dacCtrl_lt {cfg : Cfg} (wf : cfg.wf = true) {c : Chan} (channel : cfg.hasChannel c = true) : cfg.dacCtrl.get c < 16 := by
  obtain ⟨-, -, -, -, ctrlA, ctrlB⟩ := cfg.failure_eq_none_iff_met.mp (Option.isNone_iff_eq_none.mp wf)
  cases c with
  | a => exact ctrlA
  | b => exact ctrlB (of_decide_eq_true channel)

theorem exec_packFrame_of_hasChannel {s : State} {c : Chan} (channel : s.cfg.hasChannel c = true) (code : DacCode) :
    exec (.packFrame c code) s = .next { s with result := some (.fr (packFrame s.cfg c code)) } := if_pos channel

/-- Settles O33: the fields of the packed bits, the nibble unchanged by its 4 bits. -/
theorem packFrameFields : Obligations.PackFrameFields := by
  intro s c code wf channel
  refine ⟨_, exec_packFrame_of_hasChannel channel code, ?_, packBits_code _ _, packBits_pad _ _⟩
  rw [packFrame, packBits_ctrl, BitVec.toNat_ofNat, Nat.mod_eq_of_lt (dacCtrl_lt wf channel)]

/-- `ENCODE` answers with the frame of the clamped voltage's code (45_dac_codec.md R207). -/
theorem exec_encodeVoltage_of_some {s : State} {c : Chan} {v vc : F32} (channel : s.cfg.hasChannel c = true)
    (clamp : clampVoltage s.cfg v = some vc) : exec (.encodeVoltage c v) s =
      .next { s with result := some (.fr (packFrame s.cfg c (voltageToCode s.cfg vc))) } := by
  rw [exec, execEncodeVoltage, if_pos channel, encodeVoltage, clamp]
  rfl

theorem exec_encodeVoltage_of_isNaN {s : State} {c : Chan} {v : F32} (channel : s.cfg.hasChannel c = true)
    (nan : v.isNaN = true) : exec (.encodeVoltage c v) s = .next s.codecFault := by
  rw [exec, execEncodeVoltage, if_pos channel, encodeVoltage, clampVoltage_of_isNaN nan]
  rfl

/-- Settles O34: each operation runs on what the one before it gave. -/
theorem encodeComposes : Obligations.EncodeComposes := by
  intro s c v wf channel
  refine ⟨fun number => ?_, fun nan => ?_⟩
  · obtain ⟨vc, clamp, -⟩ := exists_clampVoltage (rangesMet_of_wf wf) number
    exact ⟨vc, _, _, exec_clamp_of_some clamp, exec_v2code vc s, exec_packFrame_of_hasChannel channel _,
      exec_encodeVoltage_of_some channel clamp⟩
  · rw [exec_encodeVoltage_of_isNaN channel nan, exec_clamp_of_isNaN nan]

end Sys2Proof.Machine
end

section
/-!
PROOFS. The steps of the sequencer that take no capture (46_event_dispatcher.md R221 to R224, R227, R228), each as the one state it
commits with every field it leaves; and the wait of every step that is not enabled (R230, 60_exceptions.md R272).
-/

namespace Sys2Proof.Machine

/-! ### The state each operation commits -/

/-- Writing the field `STATE` leaves the other fields of the status (10_state.md R27). -/
theorem withStatusState_eq (st : BitVec 16) (v : BitVec 2) : withStatusState st v =
    statusWord (statusReserved st) (statusNumeric st) (statusIllegalEvent st) (statusLast st) (statusCh st) v := by
  apply status_ext <;> simp

/-- Recording a reserved word sets its bit and leaves the other fields of the status (46_event_dispatcher.md R223). -/
theorem withStatusFault_illegalEvent (st : BitVec 16) : withStatusFault st .illegalEvent =
    statusWord (statusReserved st) (statusNumeric st) true (statusLast st) (statusCh st) (statusState st) := by
  apply status_ext <;> simp

theorem enterEvent_fields (s : State) (c : Chan) : s.enterEvent c = { s with
    seq := .sampling c
    adcReq := some (s.cfg.adcInput.get c)
    status := s.statusWith (statusNumeric s.status) (statusIllegalEvent s.status) (statusLast s.status) c.bit 0b01 } := by
  have status : (s.enterEvent c).status =
      s.statusWith (statusNumeric s.status) (statusIllegalEvent s.status) (statusLast s.status) c.bit 0b01 := by
    simp [withStatusState_eq, Seq.code]
  rw [← status]
  rfl

theorem consumeOffer_raiseFault_fields (s : State) : s.consumeOffer.raiseFault .illegalEvent = { s with
    offer := none
    status := s.statusWith (statusNumeric s.status) true (statusLast s.status) (statusCh s.status)
      (statusState s.status) } := by
  have status := withStatusFault_illegalEvent s.status
  rw [State.statusWith, ← status]
  rfl

theorem recordWrite_returnToIdle_fields (s : State) (c : Chan) (v : F32) :
    ((s.consumeWrite.recordWrite c v).setLast .emitted).returnToIdle = { s with
      dacDone := false
      chan := s.chan.set c ⟨true, some v⟩
      seq := .idle
      status := s.statusWith (statusNumeric s.status) (statusIllegalEvent s.status) 0b001 (statusCh s.status) 0b00 } := by
  have status : (((s.consumeWrite.recordWrite c v).setLast .emitted).returnToIdle).status =
      s.statusWith (statusNumeric s.status) (statusIllegalEvent s.status) 0b001 (statusCh s.status) 0b00 := by
    simp [withStatusState_eq, Seq.code, LastOutcome.code]
  rw [← status]
  rfl

theorem returnToIdle_fields (s : State) : s.returnToIdle = { s with
    seq := .idle
    status := s.statusWith (statusNumeric s.status) (statusIllegalEvent s.status) (statusLast s.status)
      (statusCh s.status) 0b00 } := by
  have status : s.returnToIdle.status = s.statusWith (statusNumeric s.status) (statusIllegalEvent s.status)
      (statusLast s.status) (statusCh s.status) 0b00 := withStatusState_eq s.status 0b00
  rw [← status]
  rfl

/-! ### What an enabled step runs -/

/-- A reserved word that is accepted is consumed and recorded (46_event_dispatcher.md R223). -/
theorem acceptReserved_of_accepts {s : State} {i : Instr} (acc : s.accepts i = true) :
    acceptReserved i s = .next (s.consumeOffer.raiseFault .illegalEvent) := if_pos acc

theorem exec_freeRunTrigger_of_idle {s : State} (mode : s.cfg.mode = .spectral) (seq : s.seq = .idle) :
    exec .freeRunTrigger s = .next (s.enterEvent .a) := by
  rw [exec, execFreeRunTrigger, mode, seq]

theorem exec_writeDone_of_written {s : State} {c : Chan} {v : F32} (seq : s.seq = .emitting c (some v))
    (done : s.dacDone = true) :
    exec .writeDone s = .next ((s.consumeWrite.recordWrite c v).setLast .emitted).returnToIdle := by
  rw [exec, execWriteDone, seq, done]

theorem exec_holdDone_of_held {s : State} {c : Chan} (seq : s.seq = .emitting c none) :
    exec .holdDone s = .next s.returnToIdle := by
  rw [exec, execHoldDone, seq]

/-! ### The event words -/

/-- The port accepts the instruction of the offered word (46_event_dispatcher.md R229). -/
theorem accepts_of_encode {s : State} {i : Instr} {ev : EventWord} (mode : s.cfg.mode = .event) (seq : s.seq = .idle)
    (offer : s.offer = some ev) (word : encode i = some (.event ev)) : s.accepts i = true :=
  accepts_iff.mpr ⟨mode, seq, ev, offer, Except.ok.inj (decode_of_encode word)⟩

/-- Settles O36: the word is that of `GATE c`, which the port accepts. -/
theorem gateAccepted : Obligations.GateAccepted := by
  rintro s ev _ mode seq offer gate rfl
  have acc := accepts_iff.mpr ⟨mode, seq, ev, offer, if_pos gate⟩
  rw [exec, execGate, if_pos acc, enterEvent_fields]
  rfl

/-- Settles O37: the mask is the complement of the lines. -/
theorem scaleAccepted : Obligations.ScaleAccepted := by
  intro s mode seq offer
  refine ⟨maskFromPins s.pins, if_pos (accepts_of_encode mode seq offer rfl), fun i hi => ?_⟩
  simp [maskFromPins, hi]

/-- Settles O38: each word is that of its row, and the three rows are one acceptance. -/
theorem reservedWordFaults : Obligations.ReservedWordFaults := by
  rintro s _ x mode seq rfl
  rw [← consumeOffer_raiseFault_fields]
  exact ⟨fun offer => acceptReserved_of_accepts (accepts_of_encode mode seq offer rfl),
    fun offer => acceptReserved_of_accepts (accepts_of_encode mode seq offer rfl),
    fun offer => acceptReserved_of_accepts (accepts_of_encode mode seq offer rfl)⟩

/-! ### The other steps -/

/-- Settles O39: the entry into an event on channel A. -/
theorem freeRunTriggers : Obligations.FreeRunTriggers := by
  intro s mode seq
  rw [exec_freeRunTrigger_of_idle mode seq, enterEvent_fields]
  rfl

/-- Settles O42: the write is recorded on its channel and in `LAST` before the return to `Idle`. -/
theorem writeDoneRecords : Obligations.WriteDoneRecords := by
  intro s c v seq done
  rw [exec_writeDone_of_written seq done, recordWrite_returnToIdle_fields]

/-- Settles O43: the return to `Idle` alone. -/
theorem holdDoneReturns : Obligations.HoldDoneReturns := by
  intro s c seq
  rw [exec_holdDone_of_held seq, returnToIdle_fields]

/-! ### The enabled step -/

/-- An accepted word is the enabled step (46_event_dispatcher.md R220, R229). -/
theorem enabledStep_of_accepts {s : State} {i : Instr} (acc : s.accepts i = true) : s.enabledStep = some i := by
  obtain ⟨mode, seq, ev, offer, rfl⟩ := accepts_iff.mp acc
  rw [enabledStep_idle seq, mode, offer]
  rfl

theorem enabledStep_freeRunTrigger {s : State} (mode : s.cfg.mode = .spectral) (seq : s.seq = .idle) :
    s.enabledStep = some .freeRunTrigger := by
  rw [enabledStep_idle seq, mode]

theorem enabledStep_voltagePath {s : State} {c : Chan} (mode : s.cfg.mode = .event) (seq : s.seq = .sampling c)
    (done : s.adcDone = true) : s.enabledStep = some .voltagePath := by
  rw [enabledStep_sampling seq, if_pos done, mode]

theorem enabledStep_spectralPath {s : State} (mode : s.cfg.mode = .spectral) (seq : s.seq = .sampling .a)
    (done : s.adcDone = true) : s.enabledStep = some .spectralPath := by
  rw [enabledStep_sampling seq, if_pos done, mode]

theorem enabledStep_writeDone {s : State} {c : Chan} {v : F32} (seq : s.seq = .emitting c (some v))
    (done : s.dacDone = true) : s.enabledStep = some .writeDone := by
  rw [enabledStep_writing seq, if_pos done]

/-! ### The wait of a step that is not enabled -/

theorem execFreeRunTrigger_of_not_enabled {s : State} (off : s.enabledStep ≠ some .freeRunTrigger) :
    execFreeRunTrigger s = .next s := by
  unfold execFreeRunTrigger
  split
  · exact absurd (enabledStep_freeRunTrigger ‹_› ‹_›) off
  · rfl

theorem execVoltagePath_of_not_enabled {s : State} (off : s.enabledStep ≠ some .voltagePath) :
    execVoltagePath s = .next s := by
  unfold execVoltagePath
  split
  · exact absurd (enabledStep_voltagePath ‹_› ‹_› ‹_›) off
  · rfl

theorem execSpectralPath_of_not_enabled {s : State} (off : s.enabledStep ≠ some .spectralPath) :
    execSpectralPath s = .next s := by
  unfold execSpectralPath
  split
  · exact absurd (enabledStep_spectralPath ‹_› ‹_› ‹_›) off
  · rfl

theorem execWriteDone_of_not_enabled {s : State} (off : s.enabledStep ≠ some .writeDone) :
    execWriteDone s = .next s := by
  unfold execWriteDone
  split
  · exact absurd (enabledStep_writeDone ‹_› ‹_›) off
  · rfl

theorem execHoldDone_of_not_enabled {s : State} (off : s.enabledStep ≠ some .holdDone) :
    execHoldDone s = .next s := by
  unfold execHoldDone
  split
  · exact absurd (enabledStep_holding ‹_›) off
  · rfl

/-- A step that is not enabled waits (60_exceptions.md R272, log entry 10). -/
theorem exec_of_not_enabled {s : State} {i : Instr} (hi : i.isSeqStep = true) (off : s.enabledStep ≠ some i) :
    exec i s = .next s := by
  cases i
  case gate | scale | reserved00x | reserved101 | reserved11x => exact if_neg fun acc => off (enabledStep_of_accepts acc)
  case freeRunTrigger => exact execFreeRunTrigger_of_not_enabled off
  case voltagePath => exact execVoltagePath_of_not_enabled off
  case spectralPath => exact execSpectralPath_of_not_enabled off
  case writeDone => exact execWriteDone_of_not_enabled off
  case holdDone => exact execHoldDone_of_not_enabled off
  all_goals cases hi

/-- A step of the sequencer that changes the state is the enabled one (46_event_dispatcher.md R230). -/
theorem enabledStep_of_exec_ne {s : State} {i : Instr} (hi : i.isSeqStep = true) (changes : exec i s ≠ .next s) :
    s.enabledStep = some i := by
  by_contra off
  exact changes (exec_of_not_enabled hi off)

/-- Settles O44: a step that is not enabled waits, so two that change the state are both the enabled one. -/
theorem atMostOneStepEnabled : Obligations.AtMostOneStepEnabled :=
  ⟨fun _ _ hi off => exec_of_not_enabled hi off, fun _ _ _ hi hj changesI changesJ =>
    Option.some.inj ((enabledStep_of_exec_ne hi changesI).symm.trans (enabledStep_of_exec_ne hj changesJ))⟩

end Sys2Proof.Machine
end

section
/-!
PROOFS. The two paths (46_event_dispatcher.md R225, R226): over a completed capture each runs its unit operations one after another,
commits the end of the pipeline, and leaves every other field. A path that requests no write leaves every output as it was (R234).
-/

namespace Sys2Proof.Machine

/-! ### The state the end of a path commits -/

theorem endPath_emit_fields (s : State) (c : Chan) (vo : F32) (fr : Frame) : s.consumeCapture.endPath c (.emit vo fr) = { s with
    adcDone := false
    dacReq := some (c, fr)
    seq := .emitting c (some vo)
    status := s.statusWith (statusNumeric s.status) (statusIllegalEvent s.status) (statusLast s.status)
      (statusCh s.status) 0b10 } := by
  have status := withStatusState_eq s.status 0b10
  rw [State.statusWith, ← status]
  rfl

theorem endPath_hold_fields (s : State) (c : Chan) (l : LastOutcome) : s.consumeCapture.endPath c (.hold l) = { s with
    adcDone := false
    seq := .emitting c none
    status := s.statusWith (statusNumeric s.status) (statusIllegalEvent s.status) l.code (statusCh s.status) 0b10 } := by
  have status : (s.consumeCapture.endPath c (.hold l)).status =
      s.statusWith (statusNumeric s.status) (statusIllegalEvent s.status) l.code (statusCh s.status) 0b10 := by
    simp [State.endPath, withStatusState_eq, Seq.code]
  rw [← status]
  rfl

theorem endPath_numericFault_fields (s : State) (c : Chan) : s.consumeCapture.endPath c .numericFault = { s with
    adcDone := false
    seq := .emitting c none
    status := s.statusWith true (statusIllegalEvent s.status) 0b100 (statusCh s.status) 0b10 } := by
  have status : (s.consumeCapture.endPath c .numericFault).status =
      s.statusWith true (statusIllegalEvent s.status) 0b100 (statusCh s.status) 0b10 := by
    simp [State.endPath, withStatusState_eq, Seq.code, LastOutcome.code]
  rw [← status]
  rfl

/-! ### The paths over a completed capture -/

theorem State.Inv.tables {s : State} (inv : s.Inv) : s.tablesGenerated := inv.1

/-- The invariant has the handshake registers agree with `seq` (10_state.md R24). -/
theorem State.Inv.handshakes {s : State} (inv : s.Inv) : s.handshakesAgree := by
  obtain ⟨-, -, shake, -⟩ := inv
  exact shake

/-- A completed capture leaves a whole buffer to read (10_state.md R24, 20_memory.md R62). -/
theorem exists_buf_of_captured {s : State} {c : Chan} (inv : s.Inv) (seq : s.seq = .sampling c) (done : s.adcDone = true) :
    ∃ codes, s.buf = some codes ∧ codes.length = s.cfg.nsamp := by
  obtain ⟨codes, read⟩ := readBuffer_of_captured inv seq done
  exact ⟨codes, readBuffer_eq_ok.mp read⟩

/-- `VOLTAGE_PATH` commits the end of its pipeline (46_event_dispatcher.md R225). -/
theorem exec_voltagePath_of_captured {s : State} {c : Chan} {codes : List ℕ} {e : PathEnd} (mode : s.cfg.mode = .event)
    (seq : s.seq = .sampling c) (done : s.adcDone = true) (buf : s.buf = some codes) (length : codes.length = s.cfg.nsamp)
    (run : voltagePipeline s.cfg s.vt s.mask c codes = .ok e) :
    exec .voltagePath s = .next (s.consumeCapture.endPath c e) := by
  rw [exec, execVoltagePath, mode, seq, done]
  exact orFault_eq_next.mpr ⟨codes, readBuffer_eq_ok.mpr ⟨buf, length⟩, orFault_eq_next.mpr ⟨e, run, rfl⟩⟩

/-- `SPECTRAL_PATH` commits the end of its pipeline (46_event_dispatcher.md R226). -/
theorem exec_spectralPath_of_captured {s : State} {codes : List ℕ} {e : PathEnd} (mode : s.cfg.mode = .spectral)
    (seq : s.seq = .sampling .a) (done : s.adcDone = true) (buf : s.buf = some codes) (length : codes.length = s.cfg.nsamp)
    (run : spectralPipeline s.cfg s.ft s.vt codes = .ok e) :
    exec .spectralPath s = .next (s.consumeCapture.endPath .a e) := by
  rw [exec, execSpectralPath, mode, seq, done]
  exact orFault_eq_next.mpr ⟨codes, readBuffer_eq_ok.mpr ⟨buf, length⟩, orFault_eq_next.mpr ⟨e, run, rfl⟩⟩

/-! ### The frame of a table entry -/

theorem exec_encodeVoltage_of_frame {s : State} {c : Chan} {v : F32} {fr : Frame} (channel : s.cfg.hasChannel c = true)
    (frame : encodeVoltage s.cfg c v = some fr) :
    exec (.encodeVoltage c v) s = .next { s with result := some (.fr fr) } := by
  rw [exec, execEncodeVoltage, if_pos channel, frame]
  rfl

theorem emitVoltage_of_frame {cfg : Cfg} {c : Chan} {v : F32} {fr : Frame} (frame : encodeVoltage cfg c v = some fr) :
    emitVoltage cfg c v = .emit v fr := by
  rw [emitVoltage, frame]

/-- Every entry of `VT` is finite, so it has a frame (45_dac_codec.md R207). -/
theorem exists_frame_of_entry {s : State} (wf : s.cfg.wf = true) (tables : s.tablesGenerated) (c : Chan) {j : ℕ}
    (inside : j < s.vt.length) : ∃ fr, encodeVoltage s.cfg c s.vt[j] = some fr := by
  have finite := vt_finite tables (Option.isNone_iff_eq_none.mp wf) s.vt[j] (List.getElem_mem inside)
  exact Option.isSome_iff_exists.mp (encodeVoltage_isSome (F32.isNaN_of_isFinite finite))

/-! ### The voltage path -/

theorem voltagePipeline_of_isNaN {cfg : Cfg} {vt : List F32} {mask : Degrees} {c : Chan} {codes : List ℕ}
    (nan : (averageVoltage cfg codes).isNaN = true) : voltagePipeline cfg vt mask c codes = .ok .numericFault := if_pos nan

/-- An average that is a number is quantized and corrected (46_event_dispatcher.md R225). -/
theorem voltagePipeline_of_index {cfg : Cfg} {vt : List F32} (mask : Degrees) (c : Chan) {codes : List ℕ} {qi : ℕ}
    (number : (averageVoltage cfg codes).isNaN = false) (search : quantizeFloor (averageVoltage cfg codes) vt = .ok qi) :
    voltagePipeline cfg vt mask c codes = afterCorrection cfg vt c (correct qi mask cfg.n) := by
  rw [voltagePipeline, if_neg (by simp [number]), search]

/-- A corrected index leads to the frame of its table entry (46_event_dispatcher.md R225). -/
theorem afterCorrection_of_frame {cfg : Cfg} {vt : List F32} {c : Chan} {j : ℕ} {fr : Frame} (inside : j < vt.length)
    (frame : encodeVoltage cfg c vt[j] = some fr) : afterCorrection cfg vt c (.some j) = .ok (.emit vt[j] fr) := by
  rw [afterCorrection, readTable_of_lt inside, ← emitVoltage_of_frame frame]
  rfl

/-- Settles O40: the pipeline is the operations one after another, and its end one of the four the rule names. -/
theorem voltagePathCommits : Obligations.VoltagePathCommits := by
  intro s c wf inv mode seq done
  have tables := inv.tables
  obtain ⟨codes, buf, length⟩ := exists_buf_of_captured inv seq done
  have commit {e : PathEnd} (run : voltagePipeline s.cfg s.vt s.mask c codes = .ok e) :=
    exec_voltagePath_of_captured mode seq done buf length run
  refine ⟨_, exec_averageVoltage_of_buf buf length, fun nan => ?fault, fun number => ?index⟩
  case fault => rw [commit (voltagePipeline_of_isNaN nan), endPath_numericFault_fields]
  case index =>
    have size : 0 < s.vt.length := (tables_length tables).2 ▸ n_pos_of_failure (Option.isNone_iff_eq_none.mp wf)
    obtain ⟨qi, search, below⟩ := quantizeFloor_ok (averageVoltage s.cfg codes) s.vt size
    have pipeline := voltagePipeline_of_index s.mask c number search
    refine ⟨qi, _, exec_quantizeFloor_of_ok search, rfl, fun j corrected => ?some, fun empty => ?empty, fun low => ?below⟩
    case some =>
      have inside := (correct_le _ _ _ _ corrected).trans_lt below
      obtain ⟨fr, frame⟩ := exists_frame_of_entry wf tables c inside
      rw [corrected, afterCorrection_of_frame inside frame] at pipeline
      refine ⟨_, fr, exec_indexToVoltage_of_lt inside, exec_encodeVoltage_of_frame (hasChannel_of_event mode c) frame, ?_⟩
      rw [commit pipeline, endPath_emit_fields]
    case empty =>
      rw [empty] at pipeline
      rw [commit pipeline, endPath_hold_fields]
      rfl
    case below =>
      rw [low] at pipeline
      rw [commit pipeline, endPath_hold_fields]
      rfl

/-! ### The spectral path -/

/-- The estimate is the frequency of a bin, which is no NaN (43_spectral_estimator.md R165, R166). -/
theorem isNaN_estimate {cfg : Cfg} (ranges : cfg.rangesMet) {codes : List ℕ} (length : codes.length = cfg.nsamp) :
    (estimate cfg codes).isNaN = false := by
  have bin := (estimatePeak_isFirstPeak ranges length).1
  rw [(length_estimatePowers ranges length).1] at bin
  have index : peakBin (estimatePowers cfg codes) ≤ 2 ^ 24 := by
    obtain ⟨-, -, -, -, ⟨-, -, limit⟩, -⟩ := ranges
    omega
  exact isNaN_binToHz ranges index

/-- A quantized estimate leads to the frame of its table entry (46_event_dispatcher.md R226). -/
theorem spectralPipeline_of_frame {cfg : Cfg} {ft vt : List F32} {codes : List ℕ} {qi : ℕ} {fr : Frame}
    (search : quantizeFloor (estimate cfg codes) ft = .ok qi) (inside : qi < vt.length)
    (frame : encodeVoltage cfg .a vt[qi] = some fr) : spectralPipeline cfg ft vt codes = .ok (.emit vt[qi] fr) := by
  rw [spectralPipeline, search, ← emitVoltage_of_frame frame]
  dsimp only
  rw [readTable_of_lt inside]
  rfl

/-- Settles O41: the pipeline is the operations one after another, none of which can fail. -/
theorem spectralPathCommits : Obligations.SpectralPathCommits := by
  intro s wf inv mode seq done
  have tables := inv.tables
  obtain ⟨codes, buf, length⟩ := exists_buf_of_captured inv seq done
  obtain ⟨ft, vt⟩ := tables_length tables
  have size : 0 < s.ft.length := ft ▸ n_pos_of_failure (Option.isNone_iff_eq_none.mp wf)
  obtain ⟨qi, search, below⟩ := quantizeFloor_ok (estimate s.cfg codes) s.ft size
  have inside : qi < s.vt.length := by omega
  obtain ⟨fr, frame⟩ := exists_frame_of_entry wf tables .a inside
  refine ⟨_, qi, _, fr, exec_estimate_of_buf buf length, isNaN_estimate (rangesMet_of_wf wf) length,
    exec_quantizeFloor_of_ok search, exec_indexToVoltage_of_lt inside, exec_encodeVoltage_of_frame rfl frame, ?_⟩
  rw [exec_spectralPath_of_captured mode seq done buf length (spectralPipeline_of_frame search inside frame),
    endPath_emit_fields]

/-! ### A path that requests no write -/

/-- From `s` to `t` nothing is written to the DAC and no channel is recorded, and `LAST` names the hold or the fault
(46_event_dispatcher.md R234). -/
def HeldOutputs (s t : State) : Prop :=
  t.trace = s.trace ∧ t.dacOut = s.dacOut ∧ t.chan = s.chan ∧
    (statusLast t.status = 0b010 ∨ statusLast t.status = 0b011 ∨ statusLast t.status = 0b100)

/-- A legal end of the voltage path requests the frame of a voltage, or holds every output (46_event_dispatcher.md R225, R234). -/
theorem endPath_cases {cfg : Cfg} (s : State) {c : Chan} {e : PathEnd} (legal : e.legal cfg c) :
    (∃ vo fr, e = .emit vo fr) ∨
      ((s.endPath c e).seq = .emitting c none ∧ (s.endPath c e).dacReq = s.dacReq ∧ HeldOutputs s (s.endPath c e)) := by
  obtain ⟨vo, fr, rfl, -⟩ | (rfl | rfl) | rfl := legal
  · exact .inl ⟨vo, fr, rfl⟩
  · exact .inr ⟨rfl, rfl, rfl, rfl, rfl, .inl (by simp [State.endPath, LastOutcome.code])⟩
  · exact .inr ⟨rfl, rfl, rfl, rfl, rfl, .inr (.inl (by simp [State.endPath, LastOutcome.code]))⟩
  · exact .inr ⟨rfl, rfl, rfl, rfl, rfl, .inr (.inr (endPath_numericFault s c).2.1)⟩

/-- The return to `Idle` leaves a held event as it is (46_event_dispatcher.md R228, R234). -/
theorem HeldOutputs.returnToIdle {s t : State} (h : HeldOutputs s t) : HeldOutputs s t.returnToIdle := by
  obtain ⟨trace, dacOut, chan, last⟩ := h
  exact ⟨trace, dacOut, chan, by simpa using last⟩

/-- Settles O58: an end of the path without a voltage is a hold or the fault, and the return to `Idle` keeps what they leave. -/
theorem heldEventKeepsOutput : Obligations.HeldEventKeepsOutput := by
  intro s t c inv seq run held
  obtain rfl | ⟨d, codes, e, -, seq', done, -, -, pipeline, rfl⟩ := execVoltagePath_next run
  · cases seq.symm.trans held
  · cases seq.symm.trans seq'
    obtain ⟨vo, fr, rfl⟩ | ⟨-, req, trace, dacOut, chan, last⟩ :=
      endPath_cases s.consumeCapture (voltagePipeline_legal pipeline)
    · cases held
    · obtain ⟨-, clear, -⟩ := handshakes_of_captured inv.handshakes seq done
      have req := req.trans clear
      exact ⟨req, dacOut, trace, chan, last, _, exec_holdDone_of_held held, rfl, req, dacOut, trace, chan,
        statusLast_withStatusState _ _⟩

end Sys2Proof.Machine
end

section
/-!
PROOFS. The turn and the step (46_event_dispatcher.md R220): a step runs the instruction that is enabled or decoded, and the table of
transitions, row by row.
-/

namespace Sys2Proof.Machine

/-! ### A step is one instruction -/

theorem seqTurn_of_enabled {s : State} {i : Instr} (enabled : s.enabledStep = some i) : seqTurn s = exec i s := by
  rw [seqTurn, enabled]

theorem seqTurn_of_none {s : State} (off : s.enabledStep = none) : seqTurn s = .next s := by
  rw [seqTurn, off]

/-- A step of a well-formed configuration reads the script's first line (30_encoding.md R89). -/
theorem step_of_line {s : State} {m : Move} {rest : List Move} (wf : s.cfg.wf = true) (script : s.script = m :: rest) :
    step s = runMove m { s with script := rest } :=
  (step_of_wf (Option.isNone_iff_eq_none.mp wf)).trans (turn_cons script)

/-- On an empty script a step runs the enabled instruction (46_event_dispatcher.md R220). -/
theorem step_of_enabled_nil {s : State} {i : Instr} (wf : s.cfg.wf = true) (script : s.script = [])
    (enabled : s.enabledStep = some i) : step s = exec i s := by
  rw [step_of_wf (Option.isNone_iff_eq_none.mp wf), turn_nil script, seqTurn_of_enabled enabled]

/-- A `STEP` line runs the enabled instruction (30_encoding.md R89). -/
theorem step_of_enabled_line {s : State} {i : Instr} {rest : List Move} (wf : s.cfg.wf = true)
    (script : s.script = .step :: rest) (enabled : s.enabledStep = some i) : step s = exec i { s with script := rest } :=
  (step_of_line wf script).trans (seqTurn_of_enabled (s := { s with script := rest }) enabled)

/-- An offered word is enabled in EVENT Idle (46_event_dispatcher.md R220). -/
theorem enabledStep_of_offer {s : State} {ev : EventWord} (mode : s.cfg.mode = .event) (seq : s.seq = .idle)
    (offer : s.offer = some ev) : s.enabledStep = some (decodeEvent ev) :=
  enabledStep_of_accepts (accepts_iff.mpr ⟨mode, seq, ev, offer, rfl⟩)

/-- A requested frame that decodes is what the DAC runs (60_exceptions.md R278, log entry 13). -/
theorem dacInstr_of_requested {s : State} {c : Chan} {fr : Frame} {i : Instr} (requested : s.dacReq = some (c, fr))
    (dec : decodeFrame fr = .ok i) : dacInstr s = i := by
  rw [dacInstr, requested]
  dsimp only
  rw [dec]

/-- A `WRITEDONE` line runs the requested frame (30_encoding.md R89). -/
theorem step_of_requested_line {s : State} {c : Chan} {fr : Frame} {i : Instr} {rest : List Move} (wf : s.cfg.wf = true)
    (script : s.script = .writeDone :: rest) (requested : s.dacReq = some (c, fr)) (dec : decodeFrame fr = .ok i) :
    step s = exec i { s with script := rest } := by
  have turn : dacInstr { s with script := rest } = i := dacInstr_of_requested (c := c) requested dec
  rw [step_of_line wf script, runMove, turn]

/-! ### A word placed by `withFetchWord` -/

theorem toOption_eq_some {ε α : Type} {e : Except ε α} {x : α} (h : e.toOption = some x) : e = .ok x := by
  cases e <;> cases h
  rfl

/-- The event word in a byte is its low bits (30_encoding.md R80). -/
theorem decodeEventByte_ofNat {w : ℕ} {i : Instr} (dec : decodeEventByte (BitVec.ofNat 8 w) = .ok i) :
    decodeEvent (BitVec.ofNat 3 w) = i := by
  unfold decodeEventByte at dec
  split_ifs at dec
  have low : (BitVec.ofNat 8 w).extractLsb' 0 3 = BitVec.ofNat 3 w := by
    apply BitVec.eq_of_toNat_eq
    simp
  rw [← low]
  exact Except.ok.inj dec

/-- A word of the opcode table is an event word of at most one byte, or a frame (30_encoding.md R81, R85). -/
theorem decodeTableWord_eq_some {nbits w : ℕ} {i : Instr} (dec : decodeTableWord nbits w = some i) :
    (nbits ≤ 8 ∧ decodeEvent (BitVec.ofNat 3 w) = i) ∨ (¬ nbits ≤ 8 ∧ decodeFrame (BitVec.ofNat 16 w) = .ok i) := by
  unfold decodeTableWord at dec
  split_ifs at dec with small
  · exact .inl ⟨small, decodeEventByte_ofNat (toOption_eq_some dec)⟩
  · exact .inr ⟨small, (decodeWire_wireBytes _).symm.trans (toOption_eq_some dec)⟩

/-- Settles O5: an offered word is the enabled step, a requested frame is what the DAC runs, and `withFetchWord` places a word as
one of the two. -/
theorem stepRunsDecodedWord : Obligations.StepRunsDecodedWord := by
  refine ⟨fun s ev i wf mode seq offer dec => ?offered, fun s c fr i rest wf requested script dec =>
    step_of_requested_line wf script requested dec, fun s i wf script enabled => step_of_enabled_nil wf script enabled,
    fun s nbits w i wf dec => ?placed⟩
  case offered =>
    have enabled : s.enabledStep = some i := Except.ok.inj dec ▸ enabledStep_of_offer mode seq offer
    exact ⟨fun script => step_of_enabled_nil wf script enabled, fun rest script => step_of_enabled_line wf script enabled⟩
  case placed =>
    obtain ⟨small, rfl⟩ | ⟨large, dec⟩ := decodeTableWord_eq_some dec
    · have placed : s.withFetchWord nbits w = placeEvent s (BitVec.ofNat 3 w) := if_pos small
      rw [placed] at wf ⊢
      exact step_of_enabled_line wf rfl (enabledStep_of_offer rfl rfl rfl)
    · have placed : s.withFetchWord nbits w = placeFrame s (BitVec.ofNat 16 w) := if_neg large
      rw [placed] at wf ⊢
      exact step_of_requested_line wf rfl rfl dec

/-! ### The turn never stops -/

/-- Over a completed capture `VOLTAGE_PATH` commits a legal end (46_event_dispatcher.md R225). -/
theorem exists_voltagePath_end {s : State} {c : Chan} (wf : s.cfg.wf = true) (inv : s.Inv) (mode : s.cfg.mode = .event)
    (seq : s.seq = .sampling c) (done : s.adcDone = true) :
    ∃ e : PathEnd, e.legal s.cfg c ∧ exec .voltagePath s = .next (s.consumeCapture.endPath c e) := by
  have size : 0 < s.vt.length := (tables_length inv.tables).2 ▸ n_pos_of_failure (Option.isNone_iff_eq_none.mp wf)
  obtain ⟨codes, buf, length⟩ := exists_buf_of_captured inv seq done
  obtain ⟨e, run⟩ := voltagePipeline_ok s.cfg s.mask c codes size
  exact ⟨e, voltagePipeline_legal run, exec_voltagePath_of_captured mode seq done buf length run⟩

/-- In the spectral mode only channel A is ever sampled (46_event_dispatcher.md R233). -/
theorem eq_a_of_captured {s : State} {c : Chan} (inv : s.Inv) (mode : s.cfg.mode = .spectral) (seq : s.seq = .sampling c)
    (done : s.adcDone = true) : c = .a := by
  obtain ⟨channel, -⟩ := handshakes_of_captured inv.handshakes seq done
  cases c with
  | a => rfl
  | b => exact absurd channel (hasChannel_b_of_spectral mode)

/-- An accepted word is consumed, whichever row it selects (46_event_dispatcher.md R221 to R223). -/
theorem exists_exec_of_accepts {s : State} {i : Instr} {ev : EventWord} (word : encode i = some (.event ev))
    (acc : s.accepts i = true) : ∃ t, exec i s = .next t := by
  cases i
  case gate | scale | reserved00x | reserved101 | reserved11x => exact ⟨_, if_pos acc⟩
  all_goals cases word

/-! ### The waits -/

theorem enabledStep_of_no_offer {s : State} (mode : s.cfg.mode = .event) (seq : s.seq = .idle) (offer : s.offer = none) :
    s.enabledStep = none := by
  rw [enabledStep_idle seq, mode, offer]
  rfl

theorem enabledStep_of_capturing {s : State} {c : Chan} (seq : s.seq = .sampling c) (pending : s.adcDone = false) :
    s.enabledStep = none := by
  rw [enabledStep_sampling seq, pending]
  rfl

theorem enabledStep_of_writing {s : State} {c : Chan} {v : F32} (seq : s.seq = .emitting c (some v))
    (pending : s.dacDone = false) : s.enabledStep = none := by
  rw [enabledStep_writing seq, pending]
  rfl

/-- The sequencer's turn goes on from every state of the invariant (46_event_dispatcher.md R220, log entry 10). -/
theorem exists_seqTurn {s : State} (wf : s.cfg.wf = true) (inv : s.Inv) : ∃ t, seqTurn s = .next t := by
  have goes {i : Instr} (enabled : s.enabledStep = some i) (run : ∃ t, exec i s = .next t) : ∃ t, seqTurn s = .next t :=
    seqTurn_of_enabled enabled ▸ run
  have waits (off : s.enabledStep = none) : ∃ t, seqTurn s = .next t := ⟨s, seqTurn_of_none off⟩
  rcases seq : s.seq with _ | c | ⟨c, _ | v⟩
  case idle =>
    rcases mode : s.cfg.mode with _ | _
    · exact goes (enabledStep_freeRunTrigger mode seq) ⟨_, exec_freeRunTrigger_of_idle mode seq⟩
    · rcases offer : s.offer with _ | ev
      · exact waits (enabledStep_of_no_offer mode seq offer)
      · have word := encode_decodeEvent ev
        exact goes (enabledStep_of_offer mode seq offer) (exists_exec_of_accepts word (accepts_of_encode mode seq offer word))
  case sampling =>
    rcases done : s.adcDone with _ | _
    · exact waits (enabledStep_of_capturing seq done)
    · rcases mode : s.cfg.mode with _ | _
      · obtain rfl := eq_a_of_captured inv mode seq done
        obtain ⟨_, _, _, _, -, -, -, -, -, run⟩ := spectralPathCommits s wf inv mode seq done
        exact goes (enabledStep_spectralPath mode seq done) ⟨_, run⟩
      · obtain ⟨e, -, run⟩ := exists_voltagePath_end wf inv mode seq done
        exact goes (enabledStep_voltagePath mode seq done) ⟨_, run⟩
  case emitting.none => exact goes (enabledStep_holding seq) ⟨_, exec_holdDone_of_held seq⟩
  case emitting.some =>
    rcases done : s.dacDone with _ | _
    · exact waits (enabledStep_of_writing seq done)
    · exact goes (enabledStep_writeDone seq done) ⟨_, exec_writeDone_of_written seq done⟩

/-! ### The table of transitions -/

/-- A reserved word is consumed and recorded (46_event_dispatcher.md R223). -/
theorem exec_reservedWord {s : State} {ev : EventWord} (acc : s.accepts (decodeEvent ev) = true)
    (notGate : ev &&& 0b110 ≠ 0b010) (notScale : ev ≠ 0b100) :
    exec (decodeEvent ev) s = .next (s.consumeOffer.raiseFault .illegalEvent) := by
  rw [decodeEvent, if_neg notGate, if_neg notScale] at acc ⊢
  split_ifs at acc ⊢ <;> exact acceptReserved_of_accepts acc

/-- Every end of a path is in `Emitting` (46_event_dispatcher.md R225). -/
theorem exists_endPath_seq (s : State) (c : Chan) (e : PathEnd) : ∃ pend, (s.endPath c e).seq = .emitting c pend := by
  cases e <;> exact ⟨_, rfl⟩

/-- Settles O45: each row is its enabled step and the state that step commits. -/
theorem sequencerTransitions : Obligations.SequencerTransitions := by
  intro s wf inv
  obtain ⟨t, run⟩ := exists_seqTurn wf inv
  have waits (off : s.enabledStep = none) : s.enabledStep = none ∧ t = s :=
    ⟨off, Host.Outcome.next.inj (run.symm.trans (seqTurn_of_none off))⟩
  have takes {i : Instr} {u : State} (enabled : s.enabledStep = some i) (commits : exec i s = .next u) : t = u :=
    Host.Outcome.next.inj (run.symm.trans ((seqTurn_of_enabled enabled).trans commits))
  refine ⟨t, run, fun seq mode => ?freeRun, fun seq mode offer => waits (enabledStep_of_no_offer mode seq offer),
    fun seq mode c offer => ?gate, fun seq mode offer => ?scale, fun seq mode ev offer notGate notScale => ?reserved,
    fun c seq pending => waits (enabledStep_of_capturing seq pending), fun c seq done mode => ?voltagePath,
    fun c seq done mode => ?spectralPath, fun c v seq pending => waits (enabledStep_of_writing seq pending),
    fun c v seq done => ?writeDone, fun c seq => ?holdDone⟩
  case freeRun =>
    have enabled := enabledStep_freeRunTrigger mode seq
    obtain rfl := takes enabled (exec_freeRunTrigger_of_idle mode seq)
    exact ⟨enabled, rfl⟩
  case gate =>
    have acc : s.accepts (.gate c) = true := accepts_of_encode mode seq offer rfl
    obtain rfl := takes (enabledStep_of_accepts acc) (if_pos acc)
    exact ⟨enabledStep_of_accepts acc, rfl⟩
  case scale =>
    have acc : s.accepts .scale = true := accepts_of_encode mode seq offer rfl
    obtain rfl := takes (enabledStep_of_accepts acc) (if_pos acc)
    exact ⟨enabledStep_of_accepts acc, seq⟩
  case reserved =>
    have acc : s.accepts (decodeEvent ev) = true := accepts_iff.mpr ⟨mode, seq, ev, offer, rfl⟩
    obtain rfl := takes (enabledStep_of_accepts acc) (exec_reservedWord acc notGate notScale)
    exact ⟨enabledStep_of_accepts acc, seq, by simp⟩
  case voltagePath =>
    have enabled := enabledStep_voltagePath mode seq done
    obtain ⟨e, -, commits⟩ := exists_voltagePath_end wf inv mode seq done
    obtain rfl := takes enabled commits
    exact ⟨enabled, exists_endPath_seq _ c e⟩
  case spectralPath =>
    obtain rfl := eq_a_of_captured inv mode seq done
    have enabled := enabledStep_spectralPath mode seq done
    obtain ⟨_, _, vo, _, -, -, -, -, -, commits⟩ := spectralPathCommits s wf inv mode seq done
    obtain rfl := takes enabled commits
    exact ⟨enabled, rfl, vo, rfl⟩
  case writeDone =>
    have enabled := enabledStep_writeDone seq done
    obtain rfl := takes enabled (exec_writeDone_of_written seq done)
    exact ⟨enabled, rfl⟩
  case holdDone =>
    have enabled := enabledStep_holding seq
    obtain rfl := takes enabled (exec_holdDone_of_held seq)
    exact ⟨enabled, rfl⟩

end Sys2Proof.Machine
end

section
/-!
PROOFS. One event from `Idle` to `Idle` (46_event_dispatcher.md R230, R232): the lines of a served event one by one, each as the step
it takes.
-/

namespace Sys2Proof.Machine

/-! ### Runs -/

/-- A step that goes on is the first of a longer run. -/
theorem coreRun_succ {M : Host.Core} {s t : M.State} (k : ℕ) (h : M.step s = .next t) : M.run (k + 1) s = M.run k t := by
  rw [Host.Core.run, h]

theorem runSteps_succ {s t : State} (k : ℕ) (h : step s = .next t) : runSteps (k + 1) s = runSteps k t :=
  coreRun_succ (M := core) k h

theorem runSteps_two {s t u : State} (first : step s = .next t) (second : step t = .next u) : runSteps 2 s = .next u :=
  (runSteps_succ 1 first).trans (runSteps_succ 0 second)

/-! ### The lines of an event -/

section
variable {s : State} {rest : List Move} (wf : s.cfg.wf = true)
include wf

/-- An `EV` line offers its word to a free port (60_exceptions.md R279). -/
theorem step_offer_line {ev : EventWord} (mode : s.cfg.mode = .event) (free : s.offer = none)
    (script : s.script = .offer ev :: rest) : step s = .next { s with script := rest, offer := some ev } := by
  rw [step_of_line wf script, runMove, moveOffer, mode, free]

/-- A gate word on a free port in `Idle` is offered, and the `STEP` line after it accepts it (46_event_dispatcher.md R221). -/
theorem exists_gate_entry {c : Chan} (mode : s.cfg.mode = .event) (seq : s.seq = .idle) (free : s.offer = none)
    (script : s.script = lineGate c :: .step :: rest) : ∃ t, step s = .next t ∧
      step t = .next (State.enterEvent { s with script := rest, offer := none } c) := by
  refine ⟨_, step_offer_line wf mode free script, ?_⟩
  have acc := accepts_of_encode (s := { s with script := rest, offer := some _ }) (i := .gate c) mode seq rfl rfl
  exact (step_of_enabled_line (s := { s with script := .step :: rest, offer := some _ }) wf rfl
    (enabledStep_of_accepts acc)).trans (if_pos acc)

/-- A `CAPTURE` line delivers a whole buffer for the requested capture (60_exceptions.md R277). -/
theorem step_capture_line {codes : List ℕ} (requested : s.adcReq.isSome = true) (whole : wholeBuffer s.cfg codes)
    (script : s.script = .capture codes :: rest) : step s = .next (State.deliverCapture { s with script := rest } codes) := by
  obtain ⟨inp, req⟩ := Option.isSome_iff_exists.mp requested
  rw [step_of_line wf script, runMove, exec, execAdcComplete, req]
  exact (if_pos whole.1).trans (if_pos whole.2)

/-- A `WRITEDONE` line latches the requested frame (60_exceptions.md R278). -/
theorem step_writeDone_line {c : Chan} {fr : Frame} (inv : s.Inv) (requested : s.dacReq = some (c, fr))
    (script : s.script = .writeDone :: rest) : step s = .next (State.latchFrame { s with script := rest } c fr) := by
  obtain ⟨v, -, -, -, -, frame⟩ := emitting_of_dacReq inv.handshakes requested
  have pad := encodeVoltage_pad frame
  rw [step_of_requested_line wf script requested (decodeFrame_eq_ok.mpr ⟨pad, rfl⟩)]
  exact dacFrameLatchesRequestedFrame { s with script := rest } c fr _ _ requested rfl rfl pad

/-- The line that ends `TRIGGER c` is read as the lines it stands for (30_encoding.md R90). -/
theorem step_settle_line {c : Chan} (script : s.script = .settle c :: rest) :
    step s = .next { s with script := settleLines s c ++ rest } :=
  step_of_line wf script

end

/-! ### The end of an event -/

/-- From `s` to `t` the event has ended: the sequencer is in `Idle`, the lines after the event are left, and the offer and the mask
are as they were (46_event_dispatcher.md R227, R228). -/
def BackInIdle (s t : State) (rest : List Move) : Prop :=
  t.seq = .idle ∧ t.script = rest ∧ t.offer = s.offer ∧ t.mask = s.mask

/-- From `s` to `t` exactly one frame is emitted, on channel `c` (46_event_dispatcher.md R227, R232). -/
def EmittedOnce (s t : State) (c : Chan) : Prop :=
  ∃ fr v, t.trace = s.trace ++ [(c, fr)] ∧ t.dacOut.get c = some fr ∧ t.chan.get c = ⟨true, some v⟩ ∧
    statusLast t.status = 0b001

/-- A requested write that is served ends the event with its frame (46_event_dispatcher.md R227). -/
theorem exists_write_served {s : State} {c : Chan} {v : F32} {fr : Frame} {rest : List Move} (inv : s.Inv)
    (wf : s.cfg.wf = true) (seq : s.seq = .emitting c (some v)) (requested : s.dacReq = some (c, fr))
    (script : s.script = .writeDone :: .step :: rest) :
    ∃ t, runSteps 2 s = .next t ∧ BackInIdle s t rest ∧ EmittedOnce s t c := by
  have latch := step_writeDone_line wf inv requested script
  have record := (step_of_enabled_line (s := State.latchFrame { s with script := .step :: rest } c fr) wf rfl
    (enabledStep_writeDone seq rfl)).trans (exec_writeDone_of_written seq rfl)
  exact ⟨_, runSteps_two latch record, ⟨rfl, rfl, rfl, rfl⟩, fr, v, rfl, PerChan.get_set_self _ _ _,
    PerChan.get_set_self _ _ _, by simp [LastOutcome.code]⟩

/-- The end of `TRIGGER c` serves a requested write (30_encoding.md R90). -/
theorem exists_write_settled {s : State} {c : Chan} {v : F32} {fr : Frame} {rest : List Move} (inv : s.Inv)
    (wf : s.cfg.wf = true) (seq : s.seq = .emitting c (some v)) (requested : s.dacReq = some (c, fr))
    (script : s.script = .settle c :: rest) :
    ∃ t, runSteps 3 s = .next t ∧ BackInIdle s t rest ∧ EmittedOnce s t c := by
  have lines : settleLines s c = [.writeDone, .step] := by
    rw [settleLines, seq]
    exact if_pos rfl
  have settle := step_settle_line wf script
  rw [lines] at settle
  obtain ⟨t, run, ended⟩ := exists_write_served (s := { s with script := [.writeDone, .step] ++ rest }) inv wf seq requested rfl
  exact ⟨t, (runSteps_succ 2 settle).trans run, ended⟩

/-- The end of `TRIGGER c` returns a held event to `Idle` (30_encoding.md R90, 46_event_dispatcher.md R228). -/
theorem hold_settled {s : State} {c : Chan} {rest : List Move} (seq : s.seq = .emitting c none) (wf : s.cfg.wf = true)
    (script : s.script = .settle c :: rest) : runSteps 2 s = .next (State.returnToIdle { s with script := rest }) := by
  have lines : settleLines s c = [.step] := by rw [settleLines, seq]
  have settle := step_settle_line wf script
  rw [lines] at settle
  have hold := (step_of_enabled_line (s := { s with script := [.step] ++ rest }) wf rfl
    (enabledStep_holding seq)).trans (exec_holdDone_of_held seq)
  exact runSteps_two settle hold

/-! ### A completed capture, served to the end -/

/-- The end of a path leaves the configuration, the script, the offer and the mask (46_event_dispatcher.md R225, R226). -/
theorem endPath_kept (s : State) (c : Chan) (e : PathEnd) :
    (s.endPath c e).cfg = s.cfg ∧ (s.endPath c e).script = s.script ∧ (s.endPath c e).offer = s.offer ∧
      (s.endPath c e).mask = s.mask := by
  cases e <;> exact ⟨rfl, rfl, rfl, rfl⟩

/-- A `STEP` line over a completed capture commits a legal end of the voltage path (46_event_dispatcher.md R225). -/
theorem exists_voltagePath_step {s : State} {c : Chan} {rest : List Move} (inv : s.Inv) (wf : s.cfg.wf = true)
    (mode : s.cfg.mode = .event) (seq : s.seq = .sampling c) (done : s.adcDone = true) (script : s.script = .step :: rest) :
    ∃ e : PathEnd, e.legal s.cfg c ∧ step s = .next (State.endPath { s with script := rest, adcDone := false } c e) := by
  obtain ⟨e, legal, commits⟩ := exists_voltagePath_end (s := { s with script := rest }) wf inv mode seq done
  exact ⟨e, legal, (step_of_enabled_line wf script (enabledStep_voltagePath mode seq done)).trans commits⟩

/-- A `STEP` line over a completed capture requests the frame of the spectral path (46_event_dispatcher.md R226). -/
theorem exists_spectralPath_step {s : State} {rest : List Move} (inv : s.Inv) (wf : s.cfg.wf = true)
    (mode : s.cfg.mode = .spectral) (seq : s.seq = .sampling .a) (done : s.adcDone = true)
    (script : s.script = .step :: rest) :
    ∃ vo fr, step s = .next (State.endPath { s with script := rest, adcDone := false } .a (.emit vo fr)) := by
  obtain ⟨_, _, vo, fr, -, -, -, -, -, commits⟩ := spectralPathCommits { s with script := rest } wf inv mode seq done
  rw [← endPath_emit_fields] at commits
  exact ⟨vo, fr, (step_of_enabled_line wf script (enabledStep_spectralPath mode seq done)).trans commits⟩

/-- In the spectral mode a requested capture that is served ends with its frame (46_event_dispatcher.md R226, R232). -/
theorem exists_spectral_served {s : State} {codes : List ℕ} {rest : List Move} (inv : s.Inv) (wf : s.cfg.wf = true)
    (mode : s.cfg.mode = .spectral) (seq : s.seq = .sampling .a) (requested : s.adcReq.isSome = true)
    (whole : wholeBuffer s.cfg codes) (script : s.script = .capture codes :: .step :: .writeDone :: .step :: rest) :
    ∃ t, runSteps 4 s = .next t ∧ BackInIdle s t rest ∧ EmittedOnce s t .a := by
  have capture := step_capture_line wf requested whole script
  have inv := invariantKeptByStep _ _ inv capture
  obtain ⟨vo, fr, path⟩ := exists_spectralPath_step inv wf mode seq rfl rfl
  obtain ⟨t, run, ended⟩ := exists_write_served (invariantKeptByStep _ _ inv path) wf rfl rfl rfl
  exact ⟨t, (runSteps_succ 3 capture).trans ((runSteps_succ 2 path).trans run), ended⟩

/-- In the event mode a completed capture ends with its frame, or held (46_event_dispatcher.md R225, R232, R234). -/
theorem exists_capture_settled {s : State} {c : Chan} {rest : List Move} (inv : s.Inv) (wf : s.cfg.wf = true)
    (mode : s.cfg.mode = .event) (seq : s.seq = .sampling c) (done : s.adcDone = true)
    (script : s.script = .step :: .settle c :: rest) :
    ∃ k t, k ≤ 4 ∧ runSteps k s = .next t ∧ BackInIdle s t rest ∧ (EmittedOnce s t c ∨ HeldOutputs s t) := by
  obtain ⟨e, legal, path⟩ := exists_voltagePath_step inv wf mode seq done script
  obtain ⟨vo, fr, rfl⟩ | ⟨held, -, outputs⟩ := endPath_cases { s with script := .settle c :: rest, adcDone := false } legal
  · obtain ⟨t, run, idle, emitted⟩ := exists_write_settled (invariantKeptByStep _ _ inv path) wf rfl rfl rfl
    exact ⟨4, t, le_rfl, (runSteps_succ 3 path).trans run, idle, .inl emitted⟩
  · obtain ⟨cfg, script, offer, mask⟩ := endPath_kept { s with script := .settle c :: rest, adcDone := false } c e
    have settle := hold_settled held ((congrArg Cfg.wf cfg).trans wf) script
    exact ⟨3, _, by norm_num, (runSteps_succ 2 path).trans settle, ⟨rfl, rfl, offer, mask⟩, .inr outputs.returnToIdle⟩

/-- In the event mode a requested capture that is served ends with its frame, or held (46_event_dispatcher.md R232). -/
theorem exists_event_served {s : State} {c : Chan} {codes : List ℕ} {rest : List Move} (inv : s.Inv) (wf : s.cfg.wf = true)
    (mode : s.cfg.mode = .event) (seq : s.seq = .sampling c) (requested : s.adcReq.isSome = true)
    (whole : wholeBuffer s.cfg codes) (script : s.script = .capture codes :: .step :: .settle c :: rest) :
    ∃ k t, k ≤ 5 ∧ runSteps k s = .next t ∧ BackInIdle s t rest ∧ (EmittedOnce s t c ∨ HeldOutputs s t) := by
  have capture := step_capture_line wf requested whole script
  obtain ⟨k, t, le, run, ended⟩ := exists_capture_settled (invariantKeptByStep _ _ inv capture) wf mode seq rfl rfl
  exact ⟨k + 1, t, by omega, (runSteps_succ k capture).trans run, ended⟩

/-- Settles O59: the first line triggers, and the other four serve the capture and the write. -/
theorem spectralRoundEmitsOnce : Obligations.SpectralRoundEmitsOnce := by
  intro s codes rest wf inv mode seq whole script
  have trigger := (step_of_enabled_line wf script (enabledStep_freeRunTrigger mode seq)).trans
    (exec_freeRunTrigger_of_idle mode seq)
  obtain ⟨t, run, ⟨idle, left, -, mask⟩, fr, v, trace, dacOut, chan, last⟩ :=
    exists_spectral_served (invariantKeptByStep _ _ inv trigger) wf mode rfl rfl whole rfl
  exact ⟨t, fr, v, (runSteps_succ 4 trigger).trans run, idle, left, trace, dacOut, chan, last, mask⟩

/-- Settles O60: the first two lines offer the word and accept it, and the other three serve the capture and settle its end. -/
theorem gateEventServedOnce : Obligations.GateEventServedOnce := by
  intro s c codes rest wf inv mode seq free whole script
  obtain ⟨u, offer, accept⟩ := exists_gate_entry wf mode seq free script
  have inv := invariantKeptByStep _ _ inv offer
  obtain ⟨k, t, le, run, ⟨idle, left, taken, mask⟩, ended⟩ :=
    exists_event_served (invariantKeptByStep _ _ inv accept) wf mode rfl rfl whole rfl
  exact ⟨k + 2, t, by omega, (runSteps_succ _ offer).trans ((runSteps_succ _ accept).trans run), idle, left, taken, mask,
    ended⟩

end Sys2Proof.Machine
end

section
/-!
PROOFS. The collaborators (60_exceptions.md R277 to R281): the completions and the moves where they are enabled, and the refusal of
every other.
-/

namespace Sys2Proof.Machine

/-! ### The completions -/

/-- A requested capture is completed by a whole buffer (60_exceptions.md R277). -/
theorem execAdcComplete_of_requested {s : State} {codes : List Nat} {inp : InputId} (requested : s.adcReq = some inp)
    (whole : wholeBuffer s.cfg codes) : execAdcComplete codes s = .next (s.deliverCapture codes) := by
  obtain ⟨length, small⟩ := whole
  rw [execAdcComplete, requested]
  exact (if_pos length).trans (if_pos small)

/-- A list of codes is a whole buffer by its length and its codes (20_memory.md R62). -/
theorem wholeBuffer_iff {cfg : Cfg} {codes : List Nat} :
    wholeBuffer cfg codes ↔ codes.length = cfg.nsamp ∧ ∀ d ∈ codes, d < 2 ^ cfg.sampleBits := by
  simp [wholeBuffer, List.all_eq_true]

/-- Settles O47: the codes are a whole buffer for the requested capture. -/
theorem adcCompletes : Obligations.AdcCompletes :=
  fun _ _ _ requested length small => execAdcComplete_of_requested requested (wholeBuffer_iff.mpr ⟨length, small⟩)

/-- Settles O48: `latchFrame` is the update the statement writes out. -/
theorem dacCompletes : Obligations.DacCompletes := by
  intro s c fr requested
  rw [exec, execDacComplete, requested]
  rfl

/-! ### The refusals -/

/-- A collaborator's move that neither faults nor goes on is refused. -/
theorem exists_refused {r : Answer} (faultless : Faultless r) (stops : ∀ t, r ≠ .next t) : ∃ why, r = .refused why := by
  cases r with
  | next t => exact absurd rfl (stops t)
  | fault f => exact absurd rfl (faultless f)
  | refused why => exact ⟨why, rfl⟩

/-- Only a word that waits can be withdrawn (60_exceptions.md R279). -/
theorem offer_ne_none_of_moveLose {s t : State} (h : moveLose s = .next t) : s.offer ≠ none := by
  unfold moveLose at h
  split at h
  · cases h
  · split_ifs at h with pending
    exact Option.isSome_iff_ne_none.mp pending.1

theorem moveOffer_refused {s : State} {ev : EventWord} (off : ¬(s.cfg.mode = .event ∧ s.offer = none)) :
    ∃ why, moveOffer ev s = .refused why := by
  refine exists_refused (moveOffer_faultless ev s) fun t run => off ?_
  obtain ⟨mode, free, -⟩ := moveOffer_eq_next run
  exact ⟨mode, free⟩

theorem moveLose_refused {s : State} (off : ¬(s.cfg.mode = .event ∧ s.offer ≠ none ∧ s.seq ≠ .idle)) :
    ∃ why, moveLose s = .refused why := by
  refine exists_refused (moveLose_faultless s) fun t run => off ?_
  obtain ⟨mode, busy, -⟩ := moveLose_eq_next run
  exact ⟨mode, offer_ne_none_of_moveLose run, busy⟩

/-- A completion without a request, or with codes that are no whole buffer, is refused (60_exceptions.md R281). -/
theorem execAdcComplete_refused {s : State} {codes : List Nat} (off : s.adcReq = none ∨ ¬ wholeBuffer s.cfg codes) :
    ∃ why, execAdcComplete codes s = .refused why := by
  refine exists_refused (execAdcComplete_faultless codes s) fun t run => ?_
  obtain ⟨requested, whole, -⟩ := execAdcComplete_next run
  rcases off with idle | notWhole
  · exact Option.isSome_iff_ne_none.mp requested idle
  · exact notWhole whole

/-- The DAC takes no frame that is not requested (60_exceptions.md R281). -/
theorem execDac_refused {s : State} (idle : s.dacReq = none) : ∃ why, exec (dacInstr s) s = .refused why := by
  refine exists_refused (execDac_faultless s) fun t run => ?_
  obtain ⟨c, fr, requested, -⟩ := execDac_next (dacInstr_cases s) run
  cases idle.symm.trans requested

/-- Codes of another length, or with a code too large, are no whole buffer (60_exceptions.md R281). -/
theorem not_wholeBuffer {cfg : Cfg} {codes : List Nat}
    (bad : codes.length ≠ cfg.nsamp ∨ ∃ d ∈ codes, 2 ^ cfg.sampleBits ≤ d) : ¬ wholeBuffer cfg codes := by
  intro whole
  obtain ⟨length, small⟩ := wholeBuffer_iff.mp whole
  rcases bad with other | ⟨d, mem, large⟩
  · exact other length
  · exact (small d mem).not_ge large

/-- Settles O50: each enabled move is its update, and a move that goes on is an enabled one. -/
theorem environmentMovesOrRefuses : Obligations.EnvironmentMovesOrRefuses := by
  refine fun s => ⟨fun p => rfl, fun ev mode free => ?offer, fun ev off => moveOffer_refused off,
    fun mode waiting busy => ?lose, fun off => moveLose_refused off,
    fun codes bad => execAdcComplete_refused (bad.imp_right not_wholeBuffer),
    fun v bad => execAdcComplete_refused (bad.imp_right fun ⟨positive, large⟩ => ?fill),
    fun idle => execDac_refused idle, fun codes mode => ?round, fun codes mode => ?noRound⟩
  case offer => rw [runMove, moveOffer, mode, free]
  case lose =>
    rw [runMove, moveLose, mode]
    exact if_pos ⟨Option.isSome_iff_ne_none.mpr waiting, busy⟩
  case fill => exact not_wholeBuffer (.inr ⟨v, List.mem_replicate.mpr ⟨positive.ne', rfl⟩, large⟩)
  case round => rw [runMove, moveSpectralRound, mode]
  case noRound => exact ⟨.notSpectral, by rw [runMove, moveSpectralRound, mode]⟩

end Sys2Proof.Machine
end

section
/-!
PROOFS. Reset and boot (70_reset_and_hazards.md R290, R294, R295), and the wait for a collaborator that only its completion or `RESET`
ends (R304).
-/

namespace Sys2Proof.Machine

/-! ### Reset -/

/-- Settles O46: `execReset` writes the fields out, and `seq = Idle` with the kept mode and offer enables the step after it. -/
theorem resetSetsEverything : Obligations.ResetSetsEverything :=
  fun s => ⟨s.clearChannels, none, rfl, fun mode => if_pos (hasChannel_of_event mode .b), _, rfl, rfl,
    fun mode => enabledStep_freeRunTrigger mode rfl, fun mode _ offer => enabledStep_of_offer mode rfl offer,
    fun mode free => enabledStep_of_no_offer mode rfl free⟩

/-! ### Boot -/

/-- The block at power-up with both tables generated, before its reset (70_reset_and_hazards.md R295). -/
def tabled (cfg : Cfg) (pins : Degrees) : State :=
  { powerUp cfg pins with ft := freqTable cfg, vt := voltTable cfg }

theorem tabled_inv (cfg : Cfg) (pins : Degrees) : (tabled cfg pins).Inv := by
  refine ⟨⟨rfl, rfl⟩, nofun, ⟨rfl, rfl, rfl, rfl⟩, statusAgrees_reset rfl rfl, ⟨rfl, rfl⟩, ⟨?_, nofun⟩, fun _ => rfl⟩
  rintro (_ | _) <;> rfl

/-- Boot resets the block with its tables generated (70_reset_and_hazards.md R295). -/
theorem boot_of_wf {cfg : Cfg} (wf : cfg.wf = true) (pins : Degrees) : boot cfg pins = execReset (tabled cfg pins) := by
  rw [boot, Option.isNone_iff_eq_none.mp wf]
  rfl

/-- Boot names the check a configuration fails (70_reset_and_hazards.md R294). -/
theorem boot_of_not_wf {cfg : Cfg} (wf : cfg.wf = false) (pins : Degrees) :
    ∃ check, boot cfg pins = .refused (.configuration check) := by
  obtain ⟨check, failure⟩ := Option.isSome_iff_exists.mp (Option.isNone_eq_false_iff.mp wf)
  exact ⟨check, by rw [boot, failure]⟩

/-- Settles O52: either order of generation gives the block with its tables, which is a state of the invariant, and reset keeps the
invariant. -/
theorem bootReachesReset : Obligations.BootReachesReset := by
  refine fun cfg pins => ⟨fun bad => boot_of_not_wf bad pins, fun wf => ?wellFormed, ?testConfiguration⟩
  case wellFormed =>
    exact ⟨_, boot_of_wf wf pins, rfl, execReset_inv (tabled_inv cfg pins) rfl, rfl, rfl, rfl, rfl, rfl⟩
  case testConfiguration =>
    rintro rfl rfl
    exact boot_of_wf invariantAtReset.2 0xFFF

/-! ### The wait for a collaborator -/

/-- From `s` to `t` the sequencer, the requests and the completions stay, and nothing is latched (70_reset_and_hazards.md R304). -/
def WaitKept (s t : State) : Prop :=
  t.seq = s.seq ∧ t.adcReq = s.adcReq ∧ t.adcDone = s.adcDone ∧ t.dacReq = s.dacReq ∧ t.dacDone = s.dacDone ∧
    t.trace = s.trace

theorem WaitKept.refl (s : State) : WaitKept s s := ⟨rfl, rfl, rfl, rfl, rfl, rfl⟩

theorem WaitKept.blocked {s t : State} (kept : WaitKept s t) (blocked : s.blocked) : t.blocked := by
  obtain ⟨seq, adcReq, adcDone, dacReq, dacDone, -⟩ := kept
  rwa [State.blocked, seq, adcReq, adcDone, dacReq, dacDone]

/-- The sequencer waits for the completion of its request (46_event_dispatcher.md R220, 70_reset_and_hazards.md R304). -/
theorem enabledStep_of_blocked {s : State} (blocked : s.blocked) : s.enabledStep = none := by
  obtain ⟨c, seq, -, pending⟩ | ⟨c, v, seq, -, pending⟩ := blocked
  · exact enabledStep_of_capturing seq pending
  · exact enabledStep_of_writing seq pending

/-- With no step enabled, only `RESET` and the completion of a request end the wait (70_reset_and_hazards.md R304). -/
theorem runMove_waitKept {s t : State} {m : Move} (off : s.enabledStep = none) (run : runMove m s = .next t)
    (notReset : m ≠ .reset) (notCapture : s.adcReq.isSome = true → m.isCapture = false)
    (notWrite : s.dacReq.isSome = true → m ≠ .writeDone) : WaitKept s t := by
  cases m with
  | reset => exact absurd rfl notReset
  | pins | settle =>
    cases run
    exact .refl s
  | offer ev =>
    obtain ⟨-, -, rfl⟩ := moveOffer_eq_next run
    exact .refl s
  | lose =>
    obtain ⟨-, -, rfl⟩ := moveLose_eq_next run
    exact .refl s
  | capture | captureFill =>
    obtain ⟨requested, -, -⟩ := execAdcComplete_next run
    cases notCapture requested
  | writeDone =>
    obtain ⟨c, fr, requested, -⟩ := execDac_next (dacInstr_cases s) run
    exact absurd rfl (notWrite (Option.isSome_iff_exists.mpr ⟨_, requested⟩))
  | step =>
    rw [runMove, seqTurn_of_none off] at run
    cases run
    exact .refl s
  | run =>
    rw [runMove, off] at run
    cases run
    exact .refl s
  | expect o =>
    rw [moveExpect_eq_next run]
    exact .refl s
  | spectralRound codes =>
    rw [moveSpectralRound_eq_next run]
    exact .refl s

/-- Settles O51: nothing is enabled, so a line that goes on and neither resets nor completes keeps the wait. -/
theorem outstandingRequestBlocks : Obligations.OutstandingRequestBlocks := by
  intro s _ blocked
  have off := enabledStep_of_blocked blocked
  refine ⟨off, seqTurn_of_none off, ⟨_, rfl, rfl⟩, fun m t run notReset notCapture notWrite => ?_⟩
  have kept := runMove_waitKept off run notReset notCapture notWrite
  refine ⟨kept.blocked blocked, ?_⟩
  obtain ⟨seq, adcReq, -, dacReq, -, trace⟩ := kept
  exact ⟨seq, adcReq, dacReq, trace⟩

end Sys2Proof.Machine
end
